-- ==== Sys2Proof/Word.lean ====
section
/-! DEFINITION. The two word types of the block (spec/00_scope.md R8, R10): a data register or a byte of `BUF` is
8 bits, a command word 16 bits. Bit 0 is the least significant bit; every value is unsigned. -/

namespace Sys2Proof

/-- A data register, a StatusByte, a byte of `BUF` or of `ROM` (R8, R22). -/
abbrev Byte := BitVec 8

/-- A command word, written whole to host register `CMD` (R70). -/
abbrev CmdWord := BitVec 16

end Sys2Proof
end

