-- ==== Sys2Proof/Syntax.lean ====
section
/-! DEFINITION. The command set (spec/30_encoding.md R73): one constructor per row of opcode_table.json. -/

namespace Sys2Proof

/-- The fourteen commands (R2, R73). `b` is `CMD[0]` as a boolean, `v` and `len` are `CMD[7:0]` (R72). -/
inductive Instr where
  | reset                  -- RESET   0x0100        R107
  | rdbit                  -- RDBIT   0x0200        R110
  | wrbit (b : Bool)       -- WRBIT   0x0300 + b    R109
  | rdbyte                 -- RDBYTE  0x0400        R114
  | wrbyte (v : Byte)      -- WRBYTE  0x0500 + imm8 R112
  | rdbytes (len : Byte)   -- RDBYTES 0x0600 + len  R116
  | wrbytes (len : Byte)   -- WRBYTES 0x0700 + len  R115
  | skip                   -- SKIP    0x0800        R121
  | select                 -- SELECT  0x0900        R122
  | search                 -- SEARCH  0x0A00        R130
  | rstsrch                -- RSTSRCH 0x0B00        R140
  | attach (b : Bool)      -- ATTACH  0x0C00 + b    R165
  | crc8 (len : Byte)      -- CRC8    0x0D00 + len  R153
  | verify (len : Byte)    -- VERIFY  0x0E00 + len  R154
  deriving DecidableEq, Repr

end Sys2Proof
end

