-- ==== Sys2Proof/WellFormed.lean ====
section
/-! DEFINITION. Which terms of `Instr` are commands (spec/30_encoding.md R73, R74). Operand widths are in the types;
the one check left is that `VERIFY` has `len != 0`. -/

namespace Sys2Proof

/-- `VERIFY 0` is an illegal word (R74); every other term is a command. -/
def Instr.wellFormed : Instr → Bool
  | .verify len => len != 0
  | .reset | .rdbit | .wrbit _ | .rdbyte | .wrbyte _ | .rdbytes _ | .wrbytes _ => true
  | .skip | .select | .search | .rstsrch | .attach _ | .crc8 _ => true

end Sys2Proof
end

