-- ==== Sys2Proof/Decode.lean ====
section
/-! DEFINITION. The decoder of command words (spec/30_encoding.md R70 to R75), total on every 16-bit word and rejecting
by name, and after it the encoder written from the same table. A command word is one unit: it is never split into
bytes by any rule (spec/20_memory.md R52). -/

namespace Sys2Proof

/-- Why a word is no command (R74). -/
inductive DecodeReject where
  /-- `op == 0x00` or `op` in 0x0F..0xFF -/
  | illegalOpcode
  /-- a non-zero `arg` in format N -/
  | nonzeroOperand
  /-- a non-zero `arg[7:1]` in format B -/
  | nonzeroHighOperand
  /-- `VERIFY` with `len == 0` -/
  | verifyZero
  deriving DecidableEq, Repr

/-- `op = CMD[15:8]` (R70). -/
def opField (w : CmdWord) : Byte := w.extractLsb' 8 8

/-- `arg = CMD[7:0]` (R70). -/
def argField (w : CmdWord) : Byte := w.extractLsb' 0 8

/-- Format N: `arg` must be 0x00 (R71). -/
def formatN (arg : Byte) (i : Instr) : Except DecodeReject Instr :=
  if arg = 0 then .ok i else .error .nonzeroOperand

/-- Format B: `arg[7:1]` must be 0, `b = arg[0]` (R71, R72). -/
def formatB (arg : Byte) (i : Bool → Instr) : Except DecodeReject Instr :=
  if arg.extractLsb' 1 7 = 0 then .ok (i (arg.getLsbD 0)) else .error .nonzeroHighOperand

/-- The decoder, its tests in R73's order. -/
def decode (w : CmdWord) : Except DecodeReject Instr :=
  if opField w = 0x01 then formatN (argField w) .reset
  else if opField w = 0x02 then formatN (argField w) .rdbit
  else if opField w = 0x03 then formatB (argField w) .wrbit
  else if opField w = 0x04 then formatN (argField w) .rdbyte
  else if opField w = 0x05 then .ok (.wrbyte (argField w))
  else if opField w = 0x06 then .ok (.rdbytes (argField w))
  else if opField w = 0x07 then .ok (.wrbytes (argField w))
  else if opField w = 0x08 then formatN (argField w) .skip
  else if opField w = 0x09 then formatN (argField w) .select
  else if opField w = 0x0A then formatN (argField w) .search
  else if opField w = 0x0B then formatN (argField w) .rstsrch
  else if opField w = 0x0C then formatB (argField w) .attach
  else if opField w = 0x0D then .ok (.crc8 (argField w))
  else if opField w = 0x0E then
    if argField w = 0 then .error .verifyZero else .ok (.verify (argField w))
  else .error .illegalOpcode

/-- The opcode of a command (R73, column `op`). -/
def opcodeOf : Instr → Byte
  | .reset     => 0x01
  | .rdbit     => 0x02
  | .wrbit _   => 0x03
  | .rdbyte    => 0x04
  | .wrbyte _  => 0x05
  | .rdbytes _ => 0x06
  | .wrbytes _ => 0x07
  | .skip      => 0x08
  | .select    => 0x09
  | .search    => 0x0A
  | .rstsrch   => 0x0B
  | .attach _  => 0x0C
  | .crc8 _    => 0x0D
  | .verify _  => 0x0E

/-- A boolean as an operand byte: 1 for true, 0 for false (R11). -/
def boolArg (b : Bool) : Byte := if b then 1 else 0

/-- The operand byte of a command (R71, R72). -/
def operandOf : Instr → Byte
  | .wrbit b   => boolArg b
  | .attach b  => boolArg b
  | .wrbyte v  => v
  | .rdbytes n => n
  | .wrbytes n => n
  | .crc8 n    => n
  | .verify n  => n
  | .reset | .rdbit | .rdbyte | .skip | .select | .search | .rstsrch => 0

/-- The command word: `op` in bits 15:8, the operand in bits 7:0 (R70, R71). -/
def encode (i : Instr) : CmdWord := opcodeOf i ++ operandOf i

/-- One row of opcode_table.json. -/
structure OpcodeRow where
  mnemonic : String
  pattern  : CmdWord
  mask     : CmdWord
  deriving DecidableEq, Repr

/-- opcode_table.json's match and mask columns (R73). The row VERIFY carries the constraint `imm8 != 0`. -/
def opcodeTable : List OpcodeRow :=
  [⟨"RESET", 0x0100, 0xFFFF⟩, ⟨"RDBIT", 0x0200, 0xFFFF⟩, ⟨"WRBIT", 0x0300, 0xFFFE⟩, ⟨"RDBYTE", 0x0400, 0xFFFF⟩,
   ⟨"WRBYTE", 0x0500, 0xFF00⟩, ⟨"RDBYTES", 0x0600, 0xFF00⟩, ⟨"WRBYTES", 0x0700, 0xFF00⟩] ++
  [⟨"SKIP", 0x0800, 0xFFFF⟩, ⟨"SELECT", 0x0900, 0xFFFF⟩, ⟨"SEARCH", 0x0A00, 0xFFFF⟩, ⟨"RSTSRCH", 0x0B00, 0xFFFF⟩,
   ⟨"ATTACH", 0x0C00, 0xFFFE⟩, ⟨"CRC8", 0x0D00, 0xFF00⟩, ⟨"VERIFY", 0x0E00, 0xFF00⟩]

/-- A word falls under a row when it equals the row's pattern on the mask's bits. -/
def OpcodeRow.accepts (r : OpcodeRow) (w : CmdWord) : Bool := w &&& r.mask == r.pattern

/-- The mnemonic of a command, as opcode_table.json and R76's script syntax spell it. -/
def mnemonicOf : Instr → String
  | .reset     => "RESET"
  | .rdbit     => "RDBIT"
  | .wrbit _   => "WRBIT"
  | .rdbyte    => "RDBYTE"
  | .wrbyte _  => "WRBYTE"
  | .rdbytes _ => "RDBYTES"
  | .wrbytes _ => "WRBYTES"
  | .skip      => "SKIP"
  | .select    => "SELECT"
  | .search    => "SEARCH"
  | .rstsrch   => "RSTSRCH"
  | .attach _  => "ATTACH"
  | .crc8 _    => "CRC8"
  | .verify _  => "VERIFY"

/-- The command word that the opcode table's numbering gives: bit 0 is the least significant bit, bits from `nbits`
up are 0. A command is one 16-bit word, so its first word is all of it (R75). -/
def tableWord (nbits w : Nat) : CmdWord := BitVec.ofNat 16 (w % 2 ^ nbits)

/-- What the decoder reads from a word numbered as opcode_table.json numbers it; none where it rejects. -/
def decodeTableWord (nbits w : Nat) : Option Instr :=
  match decode (tableWord nbits w) with
  | .ok i => some i
  | .error _ => none

end Sys2Proof
end

