-- ==== Sys2Proof/Config.lean ====
section
/-! DEFINITION. What an implementation fixes (spec/00_scope.md R8) and the free values the spec leaves open.
An `opaque` constant has no body: no proof can see a value of it. -/

namespace Sys2Proof

/-- The environment's answer to one downstream request (R12, R80): success, and the byte a read brings back.
The byte of a failed answer, and of an answer to a primitive, is read by no rule (U4). -/
structure Answer where
  ok   : Bool
  byte : Byte
  deriving DecidableEq, Repr, Inhabited

/-- The parameters of R8. `POLL_MAX >= 1` is held as its predecessor, so that every value is legal (log 3).
`pollDelay` and `devAddr` are read by no rule (R8, R186). -/
structure Params where
  pollMaxPred   : Nat
  pollDelay     : Nat
  devAddr       : Nat
  timeoutDrst   : Bool
  cmdSearchRom  : Byte
  cmdSkipRom    : Byte
  cmdSelectRom  : Byte
  deriving DecidableEq, Repr

/-- `POLL_MAX` (R8: an integer, at least 1). -/
def Params.pollMax (p : Params) : Nat := p.pollMaxPred + 1

namespace Config

/-- `POLL_MAX - 1`: `POLL_MAX` is OPEN (R8, D12). -/
opaque pollMaxPred : Nat

/-- `POLL_DELAY`: OPEN, no rule reads it (R8, R186). -/
opaque pollDelay : Nat

/-- `DEV_ADDR`: OPEN, no rule reads it (R8). -/
opaque devAddr : Nat

/-- The parameters right after block reset: the OPEN ones are the constants above, the others R8's defaults
(the ROM command bytes `[from general knowledge, not in source]`, R88; PRESUMED by the spec, log 9). -/
def params : Params where
  pollMaxPred  := pollMaxPred
  pollDelay    := pollDelay
  devAddr      := devAddr
  timeoutDrst  := false
  cmdSearchRom := 0xF0
  cmdSkipRom   := 0xCC
  cmdSelectRom := 0x55

/-- FREE VALUE. The environment's n-th answer past the end of `State.answers`: any value (R7, U6, log 2).
DESIGN CHOICE (log 2, log 12), unsafe: it is one constant of the count alone, for all blocks, so the answers past the lists of
two states whose `freeCount` is equal provably agree. The spec leaves their relation open (R190, U6). -/
opaque freeAnswer : Nat → Answer

/-- FREE VALUE. What `BUF[k]` reads before anything has written it: any value, fixed until written (R24, U3, log 4).
DESIGN CHOICE (log 4, log 12), unsafe: it is one constant of the index alone, for all blocks and every block reset, so an
unwritten `BUF[k]` of two blocks, or of one block after two block resets, provably agrees. The spec leaves that open (R24, R190,
U3). -/
opaque unwrittenBuf : Nat → Byte

/-- FREE VALUE. What the n-th free draw gives when the host reads the write-only register `CMD` (R27, log 6).
DESIGN CHOICE (log 6), unsafe: it is one constant of the count alone, for all blocks. -/
opaque freeCmdRead : Nat → Byte

end Config

end Sys2Proof
end

