-- ==== Sys2Proof/Machine/State.lean ====
section
/-! DEFINITION. The state of one block (spec/10_state.md R20), the types of its ports, and the state after block reset
(R35, spec/70_reset_and_hazards.md R195). -/

namespace Sys2Proof.Machine

/-- The downstream primitives (spec/30_encoding.md R80). -/
inductive Prim where
  /-- `P_DRST`, device reset -/
  | drst
  /-- `P_WCFG(apu, spu, od)`, write-configuration -/
  | wcfg (apu spu od : Bool)
  /-- `P_1WRS`, 1-Wire reset -/
  | wrs
  /-- `P_1WSB(b)`, single bit -/
  | wsb (b : Bool)
  /-- `P_1WWB(v)`, write byte -/
  | wwb (v : Byte)
  /-- `P_1WRB`, read byte -/
  | wrb
  /-- `P_1WT(d)`, triplet with its direction -/
  | wt (d : Bool)
  /-- `P_SRP(ptr)`, read pointer set: only inside `ReadStatus()` and `ReadData()` (R81), never an event of its own -/
  | srp (ptr : Byte)
  /-- `P_CHSL`, channel select: never issued (R5, R80) -/
  | chsl (code : Byte)
  deriving DecidableEq, Repr

/-- The two fault kinds (spec/60_exceptions.md R180, R181). -/
inductive FaultKind where
  | short
  | reset
  deriving DecidableEq, Repr

/-- One element of the trace (spec/00_scope.md R14). A read that was answered `ok = false` carries no byte (U4). -/
inductive Event where
  | prim (p : Prim) (ok : Bool)
  | status (st : Option Byte)
  | data (v : Option Byte)
  | notify (k : FaultKind)
  deriving DecidableEq, Repr

/-- The failure causes a command can end with (R175). `NONE` is no failure and code 4 is reserved: neither is here. -/
inductive Cause where
  | transport
  | busyTimeout
  | collision
  | checksum
  | noPresence
  | noMoreDevices
  | illegalCommand
  deriving DecidableEq, Repr

/-- What the host can do between two commands (spec/00_scope.md R9, spec/10_state.md R27, spec/20_memory.md R51).
A register write carries 16 bits because `CMD` has 16; an 8-bit register takes bits 7:0 (log 7). -/
inductive HostMove where
  | writeReg (index : Nat) (value : CmdWord)
  | writeBuf (index : Byte) (value : Byte)
  | readReg (index : Nat)
  | readBuf (index : Byte)
  deriving DecidableEq, Repr

/-- `BUF`: the bytes written since block reset, addresses strictly rising (log 4). Its operations and its canonical
form `Memory.wf` are in Machine/Memory.lean. -/
abbrev Memory := List Host.Cell

/-- The block's state: R20's elements first, then the model's own fields. -/
structure State where
  /-- `CFG.APU` (R28) -/
  apu       : Bool
  /-- `CFG.SPU` (R28, R106) -/
  spu       : Bool
  /-- `CFG.OD` (R28) -/
  od        : Bool
  /-- `CB_EN`, a fault handler is attached (R32) -/
  cbEn      : Bool
  /-- `SD_SEEN`, hidden edge memory of SHORT (R33) -/
  sdSeen    : Bool
  /-- `RST_SEEN`, hidden edge memory of RESET (R33) -/
  rstSeen   : Bool
  /-- `ROM[0..7]`, the candidate address (R23) -/
  rom       : Vector Byte 8
  /-- `SRCH.LD`, the last discrepancy, 7 bits (R29) -/
  ld        : BitVec 7
  /-- `SRCH.LDF`, the last-device flag (R30) -/
  ldf       : Bool
  /-- `RES.OK` (R31) -/
  resOk     : Bool
  /-- `RES.BIT` (R31) -/
  resBit    : Bool
  /-- `CAUSE.CODE`, 4 bits (R31, R175) -/
  cause     : BitVec 4
  /-- `DATA` (R31) -/
  data      : Byte
  /-- `BUF[0..255]` (R24, R51) -/
  buf       : Memory
  /-- MODEL: the parameters of R8 (log 3) -/
  params    : Params
  /-- MODEL: the environment's answers still to come, in order (log 2) -/
  answers   : List Answer
  /-- MODEL: how many free values have been drawn (log 2) -/
  freeCount : Nat
  /-- MODEL: the trace, oldest event first (R14, R60; log 5) -/
  trace     : List Event
  /-- MODEL: the host's moves still to come (log 1) -/
  host      : List HostMove
  /-- MODEL: the values the host has read, oldest first (R167; log 6) -/
  hostOut   : List Byte
  deriving DecidableEq, Repr

/-- Reasons to stop. There are none: "The block has no traps" (spec/60_exceptions.md), every failure is a next state
(R176) and the accesses without a meaning (U1) have no move in the model (log 11). Safe: nothing raises it. -/
inductive Fault where
  deriving DecidableEq, Repr

/-- Reasons to refuse an instruction. -/
inductive Refusal where
  /-- Raised only by an arm of `exec` whose instruction has no meaning yet; no arm does. Safe. -/
  | notModelled (mnemonic : String)
  deriving DecidableEq, Repr

/-- The block right after block reset (R35, R195; the model's own fields: log 1 to 6). -/
def State.reset : State where
  apu       := false
  spu       := false
  od        := false
  cbEn      := false
  sdSeen    := false
  rstSeen   := false
  rom       := Vector.replicate 8 0
  ld        := 0
  ldf       := false
  resOk     := false
  resBit    := false
  cause     := 0
  data      := 0
  buf       := []
  params    := Config.params
  answers   := []
  freeCount := 0
  trace     := []
  host      := []
  hostOut   := []

end Sys2Proof.Machine
end

