-- ==== Sys2Proof/Machine/Flags.lean ====
section
/-! DEFINITION. Flag and code computations: the StatusByte's fields (spec/30_encoding.md R86, R87), the cause codes
(spec/60_exceptions.md R175), the fault kind codes (R181), the packing of the host registers (spec/10_state.md R27),
and the CRC-8 of the Checksum Validator (spec/42_crc.md R150 to R152). -/

namespace Sys2Proof.Machine

/-- StatusByte bit 0 (R86). -/
def statusBusy (st : Byte) : Bool := st.getLsbD 0
/-- StatusByte bit 1, PRESENCE-PULSE-DETECTED. -/
def statusPPD (st : Byte) : Bool := st.getLsbD 1
/-- StatusByte bit 2, SHORT-DETECTED. -/
def statusSD (st : Byte) : Bool := st.getLsbD 2
/-- StatusByte bit 3, LOGIC-LEVEL; no rule reads it. -/
def statusLL (st : Byte) : Bool := st.getLsbD 3
/-- StatusByte bit 4, RESET-DETECTED. -/
def statusRST (st : Byte) : Bool := st.getLsbD 4
/-- StatusByte bit 5, SINGLE-BIT-READ; SEARCH's `id_bit` (R87). -/
def statusSBR (st : Byte) : Bool := st.getLsbD 5
/-- StatusByte bit 6, TRIPLET-SECOND-BIT; SEARCH's `complement_bit` (R87). -/
def statusTSB (st : Byte) : Bool := st.getLsbD 6
/-- StatusByte bit 7, TRIPLET-DIRECTION; SEARCH's `chosen` (R87). -/
def statusDIR (st : Byte) : Bool := st.getLsbD 7

/-- `CAUSE = NONE` (R175). -/
def causeNone : BitVec 4 := 0

/-- The code of a failure cause (R175). -/
def Cause.code : Cause → BitVec 4
  | .transport      => 1
  | .busyTimeout    => 2
  | .collision      => 3
  | .checksum       => 5
  | .noPresence     => 6
  | .noMoreDevices  => 7
  | .illegalCommand => 8

/-- `SHORT = 0b01`, `RESET = 0b10` (R181). -/
def FaultKind.code : FaultKind → BitVec 2
  | .short => 0b01
  | .reset => 0b10

/-- A byte with bit `k` equal to `b` and the other bits 0. -/
def bitAt (k : Nat) (b : Bool) : Byte := if b then 1#8 <<< k else 0

/-- A byte with bit `k` set to `b`, other bits unchanged (R12 `setrombit`). -/
def setBitOf (v : Byte) (k : Nat) (b : Bool) : Byte :=
  if b then v ||| (1#8 <<< k) else v &&& ~~~(1#8 <<< k)

/-- `RES`: bit 0 `OK`, bit 1 `BIT` (R27). -/
def State.packRes (s : State) : Byte := bitAt 0 s.resOk ||| bitAt 1 s.resBit
/-- `CAUSE`: bits 3:0 (R27). -/
def State.packCause (s : State) : Byte := s.cause.setWidth 8
/-- `CFG`: bit 0 `APU`, bit 1 `SPU`, bit 2 `OD` (R27). -/
def State.packCfg (s : State) : Byte := bitAt 0 s.apu ||| bitAt 1 s.spu ||| bitAt 2 s.od
/-- `SRCH`: bits 6:0 `LD`, bit 7 `LDF` (R27). -/
def State.packSrch (s : State) : Byte := s.ld.setWidth 8 ||| bitAt 7 s.ldf
/-- `FLT`: bit 0 `CB_EN` (R27). -/
def State.packFlt (s : State) : Byte := bitAt 0 s.cbEn

/-- `CRC_POLY` bit-reflected: 0x31 reversed (R8, R150). -/
def crcPoly : Byte := 0x8C

/-- One of R150's eight inner steps: shift right, feed bit 0 of `crc ^ b` back through the polynomial. -/
def crcBit (crc b : Byte) : Byte :=
  if ((crc ^^^ b) &&& 1) = 1 then (crc >>> 1) ^^^ crcPoly else crc >>> 1

/-- R150's inner loop: `n` steps over one input byte, least significant bit first. -/
def crcBits : Nat → Byte → Byte → Byte
  | 0, crc, _ => crc
  | n + 1, crc, b => crcBits n (crcBit crc b) (b >>> 1)

/-- R150's outer loop from a given register value. -/
def crcFrom : Byte → List Byte → Byte
  | crc, [] => crc
  | crc, b :: d => crcFrom (crcBits 8 crc b) d

/-- `Crc8(d)`: zero initial value, no final XOR (R150). -/
def crc8 (d : List Byte) : Byte := crcFrom 0 d

/-- `Verify(d)`: the CRC of all but the last byte equals the last byte (R152). No byte, no trailing byte: false (U5;
no rule asks it, `VERIFY 0` is an illegal word). -/
def crcVerify (d : List Byte) : Bool :=
  match d.getLast? with
  | some v => crc8 d.dropLast == v
  | none => false

end Sys2Proof.Machine
end

