-- ==== Sys2Proof/Machine/Memory.lean ====
section
/-! DEFINITION. `BUF` as a list of (address, byte) pairs in one canonical form (spec/20_memory.md R51): addresses
strictly rising and below 256. An address that is not listed has no value of its own: nothing has written it since block
reset, and reading it gives the free value `Config.unwrittenBuf` (spec/10_state.md R24, U3; log 4). -/

namespace Sys2Proof.Machine

/-- `BUF_SIZE` (R8). -/
def bufSize : Nat := 256

/-- The byte last written at `a`, if any. -/
def Memory.get? : Memory → Nat → Option Byte
  | [], _ => none
  | (k, v) :: m, a => if k = a then some v else Memory.get? m a

/-- `BUF[a]` (R12): the byte last written, or the free value of a byte that nothing has written (U3).
DESIGN CHOICE (log 4), unsafe: that free value depends on `a` alone, so two blocks, or one block after two block resets, read the
same at an address neither has written; the spec leaves open whether they agree (R24, R190). -/
def Memory.read (m : Memory) (a : Nat) : Byte := (Memory.get? m a).getD (Config.unwrittenBuf a)

/-- `BUF[a] <- v` (R12), keeping the addresses in rising order. -/
def Memory.write : Memory → Nat → Byte → Memory
  | [], a, v => [(a, v)]
  | (k, w) :: m, a, v =>
    if a < k then (a, v) :: (k, w) :: m
    else if a = k then (a, v) :: m
    else (k, w) :: Memory.write m a v

/-- Every address is at least `lo` and below `bufSize`, and they rise strictly. -/
def Memory.wfFrom : Nat → Memory → Bool
  | _, [] => true
  | lo, (k, _) :: m => decide (lo ≤ k) && decide (k < bufSize) && Memory.wfFrom (k + 1) m

/-- The canonical form. -/
def Memory.wf (m : Memory) : Bool := Memory.wfFrom 0 m

end Sys2Proof.Machine
end

