-- ==== Sys2Proof/Machine/Operands.lean ====
section
/-! DEFINITION. The operand forms of the commands (spec/30_encoding.md R72, spec/20_memory.md R51 to R53): the byte count,
the buffer operand starting at `BUF[0]`, and the bits of the candidate address. -/

namespace Sys2Proof.Machine

/-- A format I operand used as a byte count: an unsigned integer 0..255 (R72). -/
def byteCount (len : Byte) : Nat := len.toNat

/-- `BUF[k]`. -/
def State.bufAt (s : State) (k : Nat) : Byte := Memory.read s.buf k

/-- `BUF[0..n-1]`, index upward (R22). -/
def State.bufBytes (s : State) (n : Nat) : List Byte := (List.range n).map s.bufAt

/-- `rombit(i) = (ROM[i div 8] >> (i mod 8)) & 1` (R12, R53). -/
def romBit (rom : Vector Byte 8) (i : Nat) : Bool := (rom[i / 8]?.getD 0).getLsbD (i % 8)

/-- `setrombit(i, b)`: bit `i mod 8` of `ROM[i div 8]` becomes `b`, other bits unchanged (R12). -/
def withRomBit (rom : Vector Byte 8) (i : Nat) (b : Bool) : Vector Byte 8 :=
  rom.setIfInBounds (i / 8) (setBitOf (rom[i / 8]?.getD 0) (i % 8) b)

/-- The requested direction of SEARCH step 4a (spec/41_search.md R133), for the values of `ROM` and `LD` at index `i`. -/
def requestedDir (rom : Vector Byte 8) (ld : BitVec 7) (i : Nat) : Bool :=
  if i < ld.toNat then romBit rom i else i == ld.toNat

end Sys2Proof.Machine
end

