-- ==== Sys2Proof/Machine/Ops.lean ====
section
/-! DEFINITION. The shared operations: named updates of the state, downstream requests and their answers, notification,
the end of a command (`done`, `raise Fail(c)`), and the internal procedures of spec/00_scope.md R13 that several commands
share (`WaitBusy`, `DoReset`, `DoBit`, `DoWriteByte`, `DoReadByte`, `ResetSearch`). -/

namespace Sys2Proof.Machine

/-! ### Named updates -/

/-- Append one event to the trace (R12, R60). -/
def State.emit (s : State) (e : Event) : State := { s with trace := s.trace ++ [e] }

/-- `CFG.SPU <- b`. -/
def State.setSpu (s : State) (b : Bool) : State := { s with spu := b }

/-- The three fields of `CFG` at once (R166). -/
def State.setCfg (s : State) (apu spu od : Bool) : State := { s with apu := apu, spu := spu, od := od }

/-- `CB_EN <- b`. -/
def State.setCbEn (s : State) (b : Bool) : State := { s with cbEn := b }

/-- `SD_SEEN <- b`. -/
def State.setSdSeen (s : State) (b : Bool) : State := { s with sdSeen := b }

/-- `RST_SEEN <- b`. -/
def State.setRstSeen (s : State) (b : Bool) : State := { s with rstSeen := b }

/-- `setrombit(i, b)` (R12). -/
def State.setRomBit (s : State) (i : Nat) (b : Bool) : State := { s with rom := withRomBit s.rom i b }

/-- `LD` and `LDF` (R135). -/
def State.setProgress (s : State) (ld : BitVec 7) (ldf : Bool) : State := { s with ld := ld, ldf := ldf }

/-- `ResetSearch()`: `ROM` all zero, `LD` and `LDF` 0 (spec/41_search.md R140). -/
def State.resetSearch (s : State) : State := { s with rom := Vector.replicate 8 0, ld := 0, ldf := false }

/-- `RES.OK` and `CAUSE`, written together at the end of a command (R31). -/
def State.setResult (s : State) (ok : Bool) (cause : BitVec 4) : State := { s with resOk := ok, cause := cause }

/-- `RES.BIT <- b`. -/
def State.setResBit (s : State) (b : Bool) : State := { s with resBit := b }

/-- `DATA <- v`. -/
def State.setData (s : State) (v : Byte) : State := { s with data := v }

/-- `BUF[k] <- v`. -/
def State.writeBuf (s : State) (k : Nat) (v : Byte) : State := { s with buf := Memory.write s.buf k v }

/-- The host's remaining moves. -/
def State.setHost (s : State) (h : List HostMove) : State := { s with host := h }

/-- Hand a value read to the host (R167). -/
def State.give (s : State) (v : Byte) : State := { s with hostOut := s.hostOut ++ [v] }

/-- One free value has been drawn. -/
def State.drawFree (s : State) : State := { s with freeCount := s.freeCount + 1 }

/-- One answer of the environment has been used: the listed one if there is one, else a free one (log 2). -/
def State.dropAnswer (s : State) : State :=
  { s with answers := s.answers.tail,
           freeCount := if s.answers.isEmpty then s.freeCount + 1 else s.freeCount }

/-- The environment's next answer: any value (R7, U6; log 2). -/
def State.nextAnswer (s : State) : Answer :=
  match s.answers with
  | a :: _ => a
  | [] => Config.freeAnswer s.freeCount

/-- `BUF[k], BUF[k+1], ... <- vs`. -/
def State.writeBufFrom (s : State) : Nat → List Byte → State
  | _, [] => s
  | k, v :: vs => State.writeBufFrom (s.writeBuf k v) (k + 1) vs

/-! ### The end of a command -/

/-- What a procedure ends in: a value, or a failure that ends the command (R13), each with the state it leaves. -/
inductive Result (α : Type) where
  | ok (a : α) (s : State)
  | fail (c : Cause) (s : State)

/-- Go on with `f` unless the procedure failed: a failure ends the command however deeply nested (R13). -/
def Result.bind {α β : Type} (r : Result α) (f : α → State → Result β) : Result β :=
  match r with
  | .ok a s => f a s
  | .fail c s => .fail c s

/-- `done`: `RES.OK <- 1`, `CAUSE <- NONE` (R12). -/
def commandDone (s : State) : State := s.setResult true causeNone

/-- `raise Fail(c)`: `RES.OK <- 0`, `CAUSE <- c`, nothing else is written or undone (R12, spec/60_exceptions.md R176).
This is the block's one way of ending a command early; there is nothing to return from. -/
def raiseFail (c : Cause) (s : State) : State := s.setResult false c.code

/-- The end of a command whose body ended in `r`. -/
def endCommand (r : Result Unit) : State :=
  match r with
  | .ok _ s => commandDone s
  | .fail c s => raiseFail c s

/-- A command always ends (R117, R141) and the engine is idle again (R176): a next state, never a stop. -/
def runCommand (r : Result Unit) : Host.Outcome State Fault Refusal := .next (endCommand r)

/-! ### Downstream requests (R12, R80, R81) -/

/-- `Prim(p)`: issue, append to the trace, fail with TRANSPORT if answered `ok = false`. -/
def prim (p : Prim) (s : State) : Result Unit :=
  if s.nextAnswer.ok then .ok () (s.dropAnswer.emit (.prim p true))
  else .fail .transport (s.dropAnswer.emit (.prim p false))

/-- A primitive whose answer is ignored: `P_DRST` of R104. -/
def primIgnored (p : Prim) (s : State) : State := s.dropAnswer.emit (.prim p s.nextAnswer.ok)

/-- `ReadStatus()`; not `ok` fails with TRANSPORT at once (R100). -/
def readStatus (s : State) : Result Byte :=
  if s.nextAnswer.ok then .ok s.nextAnswer.byte (s.dropAnswer.emit (.status (some s.nextAnswer.byte)))
  else .fail .transport (s.dropAnswer.emit (.status none))

/-- `ReadData()`; not `ok` fails with TRANSPORT (R113). -/
def readData (s : State) : Result Byte :=
  if s.nextAnswer.ok then .ok s.nextAnswer.byte (s.dropAnswer.emit (.data (some s.nextAnswer.byte)))
  else .fail .transport (s.dropAnswer.emit (.data none))

/-! ### Fault notification (spec/40_bus_transaction.md R102, R103; spec/60_exceptions.md R180 to R184) -/

/-- `Notify(kind)` if the condition has a rising edge and a handler is attached. -/
def notifyEdge (k : FaultKind) (now seen : Bool) (s : State) : State :=
  if now && !seen && s.cbEn then s.emit (.notify k) else s

/-- Steps (2) and (3) of one poll iteration: SHORT, then RESET; each flag takes the value of its status bit (R103). -/
def noteFaults (st : Byte) (s : State) : State :=
  let s1 := (notifyEdge .short (statusSD st) s.sdSeen s).setSdSeen (statusSD st)
  (notifyEdge .reset (statusRST st) s1.rstSeen s1).setRstSeen (statusRST st)

/-! ### WaitBusy (R100 to R104) -/

/-- One iteration up to the BUSY test: the status byte read, its fault edges noted. -/
def pollOnce (s : State) : Result Byte :=
  (readStatus s).bind fun st s1 => .ok st (noteFaults st s1)

/-- The retry budget is exhausted: `P_DRST` if the parameter asks for it, then `Fail(BUSY_TIMEOUT)` (R104). -/
def pollTimeout (s : State) : Result Byte :=
  .fail .busyTimeout (if s.params.timeoutDrst then primIgnored .drst s else s)

/-- Poll with `n` further reads left after this one (R101). -/
def pollLoop : Nat → State → Result Byte
  | 0, s => (pollOnce s).bind fun st s1 => if statusBusy st then pollTimeout s1 else .ok st s1
  | n + 1, s => (pollOnce s).bind fun st s1 => if statusBusy st then pollLoop n s1 else .ok st s1

/-- `WaitBusy()`: at most `POLL_MAX` status reads (R100, R101). -/
def waitBusy (s : State) : Result Byte := pollLoop s.params.pollMaxPred s

/-! ### Internal procedures -/

/-- The first step of `DoReset`: clear strong pull-up if it is set (R106). -/
def clearSpu (s : State) : Result Unit :=
  if s.spu then (prim (.wcfg s.apu false s.od) s).bind fun _ s1 => .ok () (s1.setSpu false)
  else .ok () s

/-- The last step of `DoReset`: restore strong pull-up if it had been set (R106). -/
def restoreSpu (spuWas : Bool) (s : State) : Result Unit :=
  if spuWas then (prim (.wcfg s.apu true s.od) s).bind fun _ s1 => .ok () (s1.setSpu true)
  else .ok () s

/-- `DoReset()`: answers the presence bit (R106). -/
def doReset (s : State) : Result Bool :=
  (clearSpu s).bind fun _ s1 =>
  (waitBusy s1).bind fun _ s2 =>
  (prim .wrs s2).bind fun _ s3 =>
  (waitBusy s3).bind fun st s4 =>
  (restoreSpu s.spu s4).bind fun _ s5 => .ok (statusPPD st) s5

/-- `DoBit(b)`: answers the sampled bit (R108). -/
def doBit (b : Bool) (s : State) : Result Bool :=
  (prim (.wsb b) s).bind fun _ s1 => (waitBusy s1).bind fun st s2 => .ok (statusSBR st) s2

/-- `DoWriteByte(v)` (R111). -/
def doWriteByte (v : Byte) (s : State) : Result Unit :=
  (prim (.wwb v) s).bind fun _ s1 => (waitBusy s1).bind fun _ s2 => .ok () s2

/-- `DoReadByte()` (R113). -/
def doReadByte (s : State) : Result Byte :=
  (prim .wrb s).bind fun _ s1 => (waitBusy s1).bind fun _ s2 => readData s2

/-- `n` bytes `BUF[k], BUF[k+1], ...` sent in that order, stopped by the first failure (R115, R122). -/
def writeBytesFrom : Nat → Nat → State → Result Unit
  | 0, _, s => .ok () s
  | n + 1, k, s => (doWriteByte (s.bufAt k) s).bind fun _ s1 => writeBytesFrom n (k + 1) s1

/-- `n` bytes received into `BUF[k], BUF[k+1], ...` in that order, stopped by the first failure (R116). -/
def readBytesInto : Nat → Nat → State → Result Unit
  | 0, _, s => .ok () s
  | n + 1, k, s => (doReadByte s).bind fun v s1 => readBytesInto n (k + 1) (s1.writeBuf k v)

end Sys2Proof.Machine
end

