-- ==== Sys2Proof/Machine/Bus.lean ====
section
/-! DEFINITION. The Bus Transaction Layer's commands (spec/40_bus_transaction.md R107 to R122): RESET, RDBIT, WRBIT,
RDBYTE, WRBYTE, RDBYTES, WRBYTES, SKIP, SELECT. -/

namespace Sys2Proof.Machine

/-- RESET (R107). -/
def execReset (s : State) : Host.Outcome State Fault Refusal :=
  runCommand ((doReset s).bind fun p s1 => if p then .ok () s1 else .fail .noPresence s1)

/-- RDBIT (R110): a read slot, its sample to `RES.BIT`. -/
def execRdbit (s : State) : Host.Outcome State Fault Refusal :=
  runCommand ((doBit true s).bind fun v s1 => .ok () (s1.setResBit v))

/-- WRBIT b (R109): the sample is discarded. -/
def execWrbit (b : Bool) (s : State) : Host.Outcome State Fault Refusal :=
  runCommand ((doBit b s).bind fun _ s1 => .ok () s1)

/-- RDBYTE (R114). -/
def execRdbyte (s : State) : Host.Outcome State Fault Refusal :=
  runCommand ((doReadByte s).bind fun v s1 => .ok () (s1.setData v))

/-- WRBYTE imm8 (R112). -/
def execWrbyte (v : Byte) (s : State) : Host.Outcome State Fault Refusal :=
  runCommand (doWriteByte v s)

/-- RDBYTES len (R116). `DATA` is not written. -/
def execRdbytes (len : Byte) (s : State) : Host.Outcome State Fault Refusal :=
  runCommand (readBytesInto (byteCount len) 0 s)

/-- WRBYTES len (R115). -/
def execWrbytes (len : Byte) (s : State) : Host.Outcome State Fault Refusal :=
  runCommand (writeBytesFrom (byteCount len) 0 s)

/-- SKIP (R121): the byte `CMD_SKIP_ROM`, no 1-Wire reset before it. -/
def execSkip (s : State) : Host.Outcome State Fault Refusal :=
  runCommand (doWriteByte s.params.cmdSkipRom s)

/-- SELECT (R122): the byte `CMD_SELECT_ROM`, then `BUF[0..7]`. -/
def execSelect (s : State) : Host.Outcome State Fault Refusal :=
  runCommand ((doWriteByte s.params.cmdSelectRom s).bind fun _ s1 => writeBytesFrom 8 0 s1)

end Sys2Proof.Machine
end

