-- ==== Sys2Proof/Machine/Checksum.lean ====
section
/-! DEFINITION. The Checksum Validator's commands (spec/42_crc.md R153, R154): CRC8 and VERIFY. Neither issues anything. -/

namespace Sys2Proof.Machine

/-- CRC8 len (R153). -/
def execCrc8 (len : Byte) (s : State) : Host.Outcome State Fault Refusal :=
  runCommand (.ok () (s.setData (crc8 (s.bufBytes (byteCount len)))))

/-- VERIFY len (R154). `VERIFY 0` is an illegal command word and fails as one (R74, R154; log 8). -/
def execVerify (len : Byte) (s : State) : Host.Outcome State Fault Refusal :=
  runCommand <|
    if len = 0 then .fail .illegalCommand s
    else if crcVerify (s.bufBytes (byteCount len)) then .ok () s
    else .fail .checksum s

end Sys2Proof.Machine
end

