-- ==== Sys2Proof/Machine/Search.lean ====
section
/-! DEFINITION. The Search Engine (spec/41_search.md R130 to R143): SEARCH and RSTSRCH. -/

namespace Sys2Proof.Machine

/-- Step 2: `DoReset`, and `ResetSearch` whenever it does not answer presence 1. The one place where a failure raised by
a procedure is caught before it ends the command (R131). -/
def searchPresence (s : State) : Result Unit :=
  match doReset s with
  | .fail c s1 => .fail c s1.resetSearch
  | .ok true s1 => .ok () s1
  | .ok false s1 => .fail .noPresence s1.resetSearch

/-- Both response bits set: nobody answers on this branch (R134, 4c). -/
def tripletCollision (st : Byte) : Bool := statusSBR st && statusTSB st

/-- Both branches exist and the 0 branch was taken (R134, 4d). -/
def tripletZeroTaken (st : Byte) : Bool := !statusSBR st && !statusTSB st && !statusDIR st

/-- Step 4 for one bit index: answers the new `last_zero` (R133, R134). -/
def searchBit (i : Nat) (lastZero : BitVec 7) (s : State) : Result (BitVec 7) :=
  (prim (.wt (requestedDir s.rom s.ld i)) s).bind fun _ s1 =>
  (waitBusy s1).bind fun st s2 =>
  if tripletCollision st then .fail .collision s2.resetSearch
  else .ok (if tripletZeroTaken st then BitVec.ofNat 7 i else lastZero) (s2.setRomBit i (statusDIR st))

/-- Step 4 for `n` bit indices from `i` upward. -/
def searchFrom : Nat → Nat → BitVec 7 → State → Result (BitVec 7)
  | 0, _, lastZero, s => .ok lastZero s
  | n + 1, i, lastZero, s => (searchBit i lastZero s).bind fun lz s1 => searchFrom n (i + 1) lz s1

/-- Step 5 (R135): `LD <- last_zero`; `LDF <- 1` if it is 0, else `LDF` is not written. -/
def searchProgress (lastZero : BitVec 7) (s : State) : State :=
  s.setProgress lastZero (if lastZero = 0 then true else s.ldf)

/-- Steps 6 and 7 (R136, R137): the checksum test, then the copy to `BUF[0..7]`. -/
def searchDeliver (s : State) : Result Unit :=
  if crcVerify s.rom.toList then .ok () (s.writeBufFrom 0 s.rom.toList) else .fail .checksum s

/-- SEARCH (R130). -/
def execSearch (s : State) : Host.Outcome State Fault Refusal :=
  runCommand <|
    if s.ldf then .fail .noMoreDevices s
    else
      (searchPresence s).bind fun _ s1 =>
      (doWriteByte s1.params.cmdSearchRom s1).bind fun _ s2 =>
      (searchFrom 64 0 0 s2).bind fun lz s3 => searchDeliver (searchProgress lz s3)

/-- RSTSRCH (R140): cannot fail, issues nothing. -/
def execRstsrch (s : State) : Host.Outcome State Fault Refusal :=
  runCommand (.ok () s.resetSearch)

end Sys2Proof.Machine
end

