-- ==== Sys2Proof/Machine/System.lean ====
section
/-! DEFINITION. The system commands (spec/43_system.md): ATTACH (R165), and what an illegal word does (R168). -/

namespace Sys2Proof.Machine

/-- ATTACH b (R165): the edge flags are not touched. -/
def execAttach (b : Bool) (s : State) : Host.Outcome State Fault Refusal :=
  runCommand (.ok () (s.setCbEn b))

/-- A word that is no command: `raise Fail(ILLEGAL_COMMAND)`, nothing else (R74, R168). -/
def execIllegal (s : State) : Host.Outcome State Fault Refusal :=
  runCommand (.fail .illegalCommand s)

end Sys2Proof.Machine
end

