-- ==== Sys2Proof/Machine/Dispatch.lean ====
section
/-! DEFINITION. One arm per command (spec/30_encoding.md R73), each a direct call of its meaning. -/

namespace Sys2Proof.Machine

open Sys2Proof

def exec (i : Instr) (s : State) : Host.Outcome State Fault Refusal :=
  match i with
  | .reset => Sys2Proof.Machine.execReset s
  | .rdbit => Sys2Proof.Machine.execRdbit s
  | .wrbit b => Sys2Proof.Machine.execWrbit b s
  | .rdbyte => Sys2Proof.Machine.execRdbyte s
  | .wrbyte v => Sys2Proof.Machine.execWrbyte v s
  | .rdbytes len => Sys2Proof.Machine.execRdbytes len s
  | .wrbytes len => Sys2Proof.Machine.execWrbytes len s
  | .skip => Sys2Proof.Machine.execSkip s
  | .select => Sys2Proof.Machine.execSelect s
  | .search => Sys2Proof.Machine.execSearch s
  | .rstsrch => Sys2Proof.Machine.execRstsrch s
  | .attach b => Sys2Proof.Machine.execAttach b s
  | .crc8 len => Sys2Proof.Machine.execCrc8 len s
  | .verify len => Sys2Proof.Machine.execVerify len s

end Sys2Proof.Machine
end

