-- ==== Sys2Proof/Machine/HostPort.lean ====
section
/-! DEFINITION. The host port (spec/10_state.md R27, spec/20_memory.md R51, R59, spec/43_system.md R166 to R168): what
each of the host's moves does. A move lands between commands only (R58, R207). -/

namespace Sys2Proof.Machine

open Sys2Proof

/-- A word written to `CMD` starts the command at once and runs it to completion (R70); an illegal word fails (R168). -/
def runWord (w : CmdWord) (s : State) : Host.Outcome State Fault Refusal :=
  match decode w with
  | .ok i => exec i s
  | .error _ => execIllegal s

/-- The host's write of `CFG`: bits 2:0, the others ignored; no traffic (R166). -/
def writeCfg (v : Byte) (s : State) : State := s.setCfg (v.getLsbD 0) (v.getLsbD 1) (v.getLsbD 2)

/-- A write to host register `index` (R27): 0 is `CMD`, 4 is `CFG`; read-only and unassigned ones ignore it (U11). -/
def hostWriteReg (index : Nat) (value : CmdWord) (s : State) : Host.Outcome State Fault Refusal :=
  if index = 0 then runWord value s
  else if index = 4 then .next (writeCfg (value.extractLsb' 0 8) s)
  else .next s

/-- The value of a read of host register `index` (R27, R167). Index 7 and those above 15 read as 0. The write-only
register `CMD` has no stated read value: a free one (log 6). -/
def hostRegValue (index : Nat) (s : State) : Byte :=
  if index = 0 then Config.freeCmdRead s.freeCount
  else if index = 1 then s.packRes
  else if index = 2 then s.packCause
  else if index = 3 then s.data
  else if index = 4 then s.packCfg
  else if index = 5 then s.packSrch
  else if index = 6 then s.packFlt
  else if 8 ≤ index then s.rom[index - 8]?.getD 0
  else 0

/-- A read of a host register: the value goes to the host; nothing the spec calls state changes (R59, R167). -/
def hostReadReg (index : Nat) (s : State) : State :=
  if index = 0 then (s.give (hostRegValue 0 s)).drawFree else s.give (hostRegValue index s)

/-- One move of the host. -/
def hostMove (m : HostMove) (s : State) : Host.Outcome State Fault Refusal :=
  match m with
  | .writeReg index value => hostWriteReg index value s
  | .writeBuf index value => .next (s.writeBuf index.toNat value)
  | .readReg index => .next (hostReadReg index s)
  | .readBuf index => .next (s.give (s.bufAt index.toNat))

/-- Take the host's next move; with none waiting the engine is idle and nothing changes (R35, R191; log 1). -/
def stepHost (s : State) : Host.Outcome State Fault Refusal :=
  match s.host with
  | [] => .next s
  | m :: rest => hostMove m (s.setHost rest)

/-- The move that presents a command word (R70). -/
def presentWord (w : CmdWord) : HostMove := .writeReg 0 w

end Sys2Proof.Machine
end

