-- ==== Sys2Proof/Machine/Step.lean ====
section
/-! DEFINITION. One step of the machine: the host's next move, a whole command if it is one (spec/00_scope.md R9). -/

namespace Sys2Proof.Machine

open Sys2Proof

/-- One step. -/
def step (s : State) : Host.Outcome State Fault Refusal := stepHost s

/-- The state in which the host's very next move presents the word `w` (numbered as opcode_table.json numbers it). -/
def State.withFetchWord (s : State) (nbits w : Nat) : State := s.setHost (presentWord (tableWord nbits w) :: s.host)

end Sys2Proof.Machine
end

