-- ==== Sys2Proof/Machine/Instances.lean ====
section
/-! DEFINITION. Several blocks side by side (spec/60_exceptions.md R190): each has its own full state, they share nothing
and send each other nothing. Blocks that share a transport are serialised by the host (R202): one of them steps at a time
(log 12). -/

namespace Sys2Proof.Machine

/-- Block `k` of a list of blocks takes one step; an index with no block changes nothing (the model's choice, log 12).
DESIGN CHOICE (log 12), unsafe: the blocks draw their free values from the same constants, so unwritten `BUF[k]` of two blocks,
and their answers past the lists at equal `freeCount`, provably agree; R190 and U3 leave their relation open. -/
def stepBlock (k : Nat) (blocks : List State) : Host.Outcome (List State) Fault Refusal :=
  match blocks[k]? with
  | none => .next blocks
  | some s =>
    match step s with
    | .next t => .next (blocks.set k t)
    | .fault r => .fault r
    | .refused r => .refused r

end Sys2Proof.Machine
end

