-- ==== Sys2Proof/Machine/Transport.lean ====
section
/-! DEFINITION. The default byte rendering `BRIDGE_ENC` of the trace at the transport level (spec/30_encoding.md R81 to
R85). Every number is `[from general knowledge, not in source]` in the spec and replaceable as a whole (D7; log 9). No
rule of the block depends on this file. -/

namespace Sys2Proof.Machine

/-- Read pointer codes (R85). -/
def ptrStatus : Byte := 0xF0
def ptrData : Byte := 0xE1
def ptrConfig : Byte := 0xC3

/-- The payload of the single-bit and triplet primitives: the bit in bit 7 (R82). -/
def highBit (b : Bool) : Byte := if b then 0x80 else 0x00

/-- The low half of the configuration byte, `{od, spu, 0, apu}` with bit 0 `APU` (R84). -/
def cfgNibble (apu spu od : Bool) : BitVec 4 :=
  BitVec.ofBool od ++ BitVec.ofBool spu ++ 0#1 ++ BitVec.ofBool apu

/-- The configuration byte: the upper half is the complement of the lower (R84). -/
def cfgByte (apu spu od : Bool) : Byte := (~~~ cfgNibble apu spu od) ++ cfgNibble apu spu od

/-- The bytes a primitive writes to the bridge (R84). -/
def primBytes : Prim → List Byte
  | .drst            => [0xF0]
  | .srp ptr         => [0xE1, ptr]
  | .wcfg apu spu od => [0xD2, cfgByte apu spu od]
  | .wrs             => [0xB4]
  | .wsb b           => [0x87, highBit b]
  | .wwb v           => [0xA5, v]
  | .wrb             => [0x96]
  | .wt d            => [0x78, highBit d]
  | .chsl code       => [0xC3, code]

/-- One operation of the abstract transport and how it ended (R81): `write(address, bytes)` with its success, or
`read(address, buffer, len)` with the byte it brought, none where it failed. -/
inductive TransportOp where
  | write (address : Nat) (bytes : List Byte) (ok : Bool)
  | read (address len : Nat) (byte : Option Byte)
  deriving DecidableEq, Repr

/-- The operation reported success. -/
def TransportOp.succeeded : TransportOp → Bool
  | .write _ _ ok   => ok
  | .read _ _ byte  => byte.isSome

/-- Which part of a composite read reported failure (R81). -/
inductive ReadPart where
  | pointerSet
  | read
  deriving DecidableEq, Repr

/-- `ReadStatus()` or `ReadData()` (R81): `setReadPointer(ptr)` followed by `read(address, buffer, 1)`; it fails if either
part does. After a pointer set that failed no read is made (DEDUCED from R175, "propagated immediately"; log 9). -/
def compositeRead (address : Nat) (ptr : Byte) (failed : ReadPart) (answer : Option Byte) : List TransportOp :=
  match answer, failed with
  | some v, _             => [.write address (primBytes (.srp ptr)) true, .read address 1 (some v)]
  | none,   .pointerSet   => [.write address (primBytes (.srp ptr)) false]
  | none,   .read         => [.write address (primBytes (.srp ptr)) true, .read address 1 none]

/-- The transport operations of one event. `failed` is read only for a composite read answered `ok = false`: at the
primitive level that is one answer, whichever part failed (R81). A notification is no transport operation. -/
def eventOps (address : Nat) (failed : ReadPart) : Event → List TransportOp
  | .prim p ok => [.write address (primBytes p) ok]
  | .status st => compositeRead address ptrStatus failed st
  | .data v    => compositeRead address ptrData failed v
  | .notify _  => []

/-- The trace at the transport level, at the bridge's address `DEV_ADDR`. Which part of a failed composite read failed is
the environment's: it is an argument, `failed k` for the trace's `k`-th event, so that every choice has its rendering. -/
def State.transportTrace (failed : Nat → ReadPart) (s : State) : List TransportOp :=
  s.trace.zipIdx.flatMap fun e => eventOps s.params.devAddr (failed e.2) e.1

end Sys2Proof.Machine
end

