-- ==== Sys2Proof/Safety.lean ====
section
/-! DEFINITION. What a safe run is, in the terms the statements use: the invariant of a block, what a command leaves
unchanged, how the environment's answers are described, and what is read off a trace. -/

namespace Sys2Proof.Machine

open Sys2Proof

/-! ### The invariant -/

/-- The codes R175 lets `CAUSE` hold: 0 to 8 without the reserved 4. -/
def legalCause (c : BitVec 4) : Bool := decide (c.toNat ≤ 8) && c != 4

/-- The invariant of a block: `BUF` in canonical form, `LD <= 63` (R29), `LDF` implies `LD == 0` (R30), a legal cause
(R175), and success only with cause NONE (R12). -/
structure State.Inv (s : State) : Prop where
  bufCanonical  : Memory.wf s.buf = true
  ldBound       : s.ld.toNat ≤ 63
  lastDeviceLd  : s.ldf = true → s.ld = 0
  causeLegal    : legalCause s.cause = true
  okMeansNone   : s.resOk = true → s.cause = causeNone

/-! ### What is kept -/

/-- `CFG` is the same. -/
def keepsCfg (s t : State) : Prop := t.apu = s.apu ∧ t.spu = s.spu ∧ t.od = s.od

/-- The search state is the same. -/
def keepsSearch (s t : State) : Prop := t.rom = s.rom ∧ t.ld = s.ld ∧ t.ldf = s.ldf

/-- The edge memories are the same. -/
def keepsEdges (s t : State) : Prop := t.sdSeen = s.sdSeen ∧ t.rstSeen = s.rstSeen

/-- The enable, the parameters, the host's moves and what the host has read are the same: no command but ATTACH writes
the first and none the others. -/
def keepsHostSide (s t : State) : Prop :=
  t.cbEn = s.cbEn ∧ t.params = s.params ∧ t.host = s.host ∧ t.hostOut = s.hostOut

/-- The downstream port is untouched: no request, no notification, no answer used (also no free one). -/
def keepsPort (s t : State) : Prop := t.trace = s.trace ∧ t.answers = s.answers ∧ t.freeCount = s.freeCount

/-- Every byte of `BUF` outside `0 .. n-1` reads as before. -/
def keepsBufFrom (n : Nat) (s t : State) : Prop := ∀ k, n ≤ k → t.bufAt k = s.bufAt k

/-! ### The environment's answers -/

/-- The environment's `n`-th answer from now on: the listed ones first, then free ones (log 2). -/
def State.answerAt (s : State) (n : Nat) : Answer :=
  (s.answers[n]?).getD (Config.freeAnswer (s.freeCount + (n - s.answers.length)))

/-- The environment's next answers are `as`. -/
def State.Answers (s : State) (as : List Answer) : Prop := ∀ n (h : n < as.length), s.answerAt n = as[n]

/-- The state after `n` answers have been used, everything else as it was. -/
def State.consumed (s : State) (n : Nat) : State :=
  { s with answers := s.answers.drop n, freeCount := s.freeCount + (n - s.answers.length) }

/-- A positive answer; the byte matters only for a read (R12). -/
def yes (v : Byte) : Answer := ⟨true, v⟩

/-- The status bytes one successful `WaitBusy` reads: some with BUSY set, then one with BUSY clear (R100). -/
structure Poll where
  busy : List Byte
  idle : Byte
  deriving DecidableEq, Repr

/-- In order. -/
def Poll.bytes (p : Poll) : List Byte := p.busy ++ [p.idle]

/-- The answers that bring them. -/
def Poll.answers (p : Poll) : List Answer := p.bytes.map yes

/-- The busy bytes are busy, the idle one is idle, and the idle one is among the first `budget` reads (R101). -/
def Poll.good (budget : Nat) (p : Poll) : Bool :=
  p.busy.all statusBusy && !statusBusy p.idle && decide (p.busy.length < budget)

/-- A primitive answered `ok` (with a meaningless byte) and the poll after it. -/
structure Exchange where
  note : Byte
  poll : Poll
  deriving DecidableEq, Repr

/-- The answers of an exchange. -/
def Exchange.answers (x : Exchange) : List Answer := yes x.note :: x.poll.answers

/-- Its poll is good. -/
def Exchange.good (budget : Nat) (x : Exchange) : Bool := x.poll.good budget

/-- The two exchanges of `DoReset`, between the answers to the clearing and the restoring configuration write where strong
pull-up is set (R106). -/
structure ResetExchange where
  clearNote   : Byte
  before      : Poll
  pulse       : Exchange
  restoreNote : Byte
  deriving DecidableEq, Repr

/-- The answers of a `DoReset`, in order. -/
def ResetExchange.answers (spu : Bool) (x : ResetExchange) : List Answer :=
  (if spu then [yes x.clearNote] else []) ++ x.before.answers ++ x.pulse.answers ++
    (if spu then [yes x.restoreNote] else [])

/-- Both its polls are good. -/
def ResetExchange.good (budget : Nat) (x : ResetExchange) : Bool := x.before.good budget && x.pulse.good budget

/-- How a primitive and the poll after it can fail: the primitive denied, a status read denied after some busy ones, or every
status read of the budget busy (R12, R100, R101). -/
inductive PollFailure where
  | primitive (byte : Byte)
  | statusRead (note : Byte) (busy : List Byte) (byte : Byte)
  | timeout (note : Byte) (busy : List Byte)
  deriving DecidableEq, Repr

/-- The answers that make it fail so, the one to a recovery reset apart. -/
def PollFailure.answers : PollFailure → List Answer
  | .primitive z => [⟨false, z⟩]
  | .statusRead note busy z => yes note :: busy.map yes ++ [⟨false, z⟩]
  | .timeout note busy => yes note :: busy.map yes

/-- The busy status bytes read. -/
def PollFailure.busy : PollFailure → List Byte
  | .primitive _ => []
  | .statusRead _ busy _ => busy
  | .timeout _ busy => busy

/-- They are busy, and as many as the budget says (R101). -/
def PollFailure.good (budget : Nat) : PollFailure → Bool
  | .primitive _ => true
  | .statusRead _ busy _ => busy.all statusBusy && decide (busy.length < budget)
  | .timeout _ busy => busy.all statusBusy && decide (busy.length = budget)

/-- The cause it fails with (R175). -/
def PollFailure.cause : PollFailure → Cause
  | .primitive _ => .transport
  | .statusRead _ _ _ => .transport
  | .timeout _ _ => .busyTimeout

/-! ### What the trace of a poll is (R102, R103) -/

/-- The notification of a rising edge, if there is one and a handler is attached. -/
def edgeEvents (k : FaultKind) (cbEn now seen : Bool) : List Event := if now && !seen && cbEn then [.notify k] else []

/-- The events of successful status reads with edge flags `sd` and `rst` at their start: each read, then SHORT's edge,
then RESET's. -/
def readEvents (cbEn : Bool) : Bool → Bool → List Byte → List Event
  | _, _, [] => []
  | sd, rst, st :: sts =>
    .status (some st) ::
      (edgeEvents .short cbEn (statusSD st) sd ++ edgeEvents .reset cbEn (statusRST st) rst ++
        readEvents cbEn (statusSD st) (statusRST st) sts)

/-- The value an edge flag has after successful status reads: the last one's status bit, or what it was. -/
def flagAfter (bit : Byte → Bool) (seen : Bool) (sts : List Byte) : Bool := (sts.getLast?.map bit).getD seen

/-- The events of a sequence of primitives, each answered `ok` and followed by a good poll. -/
def exchangeEvents (cbEn : Bool) : Bool → Bool → List (Prim × Exchange) → List Event
  | _, _, [] => []
  | sd, rst, (p, x) :: xs =>
    .prim p true :: (readEvents cbEn sd rst x.poll.bytes ++
      exchangeEvents cbEn (statusSD x.poll.idle) (statusRST x.poll.idle) xs)

/-- The events of read-byte exchanges, each followed by its data read (R113). -/
def readByteEvents (cbEn : Bool) : Bool → Bool → List (Exchange × Byte) → List Event
  | _, _, [] => []
  | sd, rst, (x, v) :: xs =>
    exchangeEvents cbEn sd rst [(.wrb, x)] ++
      .data (some v) :: readByteEvents cbEn (statusSD x.poll.idle) (statusRST x.poll.idle) xs

/-- The events of a failing primitive and poll, up to the recovery reset. -/
def PollFailure.events (cbEn sd rst : Bool) (p : Prim) : PollFailure → List Event
  | .primitive _ => [.prim p false]
  | .statusRead _ busy _ => .prim p true :: readEvents cbEn sd rst busy ++ [.status none]
  | .timeout _ busy => .prim p true :: readEvents cbEn sd rst busy

/-- The recovery reset of a timeout, if the parameter asks for it (R104); the environment's `n`-th answer is its answer. -/
def PollFailure.recovery (s : State) (n : Nat) : PollFailure → List Event
  | .primitive _ => []
  | .statusRead _ _ _ => []
  | .timeout _ _ => if s.params.timeoutDrst then [.prim .drst (s.answerAt n).ok] else []

/-- The events of a `DoReset` all of whose answers are positive (R106). -/
def resetEvents (s : State) (x : ResetExchange) : List Event :=
  (if s.spu then [.prim (.wcfg s.apu false s.od) true] else []) ++
  readEvents s.cbEn s.sdSeen s.rstSeen x.before.bytes ++
  exchangeEvents s.cbEn (statusSD x.before.idle) (statusRST x.before.idle) [(.wrs, x.pulse)] ++
  (if s.spu then [.prim (.wcfg s.apu true s.od) true] else [])

/-! ### What is read off a trace -/

/-- The events a command added: what comes after the trace it started with. -/
def newEvents (s t : State) : List Event := t.trace.drop s.trace.length

/-- A downstream request, not a notification. -/
def Event.isRequest : Event → Bool
  | .notify _ => false
  | .prim _ _ | .status _ | .data _ => true

/-- A primitive. -/
def Event.isPrim : Event → Bool
  | .prim _ _ => true
  | .status _ | .data _ | .notify _ => false

/-- A `ReadStatus()`. -/
def Event.isStatus : Event → Bool
  | .status _ => true
  | .prim _ _ | .data _ | .notify _ => false

/-- The byte of a successful `ReadStatus()`. -/
def Event.statusByte? : Event → Option Byte
  | .status (some st) => some st
  | .status none | .prim _ _ | .data _ | .notify _ => none

/-- The direction of a triplet, however answered. -/
def Event.tripletDir? : Event → Option Bool
  | .prim (.wt d) _ => some d
  | .prim .drst _ | .prim (.wcfg _ _ _) _ | .prim .wrs _ | .prim (.wsb _) _ | .prim (.wwb _) _ | .prim .wrb _ => none
  | .prim (.srp _) _ | .prim (.chsl _) _ | .status _ | .data _ | .notify _ => none

/-- The three bits of a configuration write that was answered `ok`. -/
def Event.acceptedCfg? : Event → Option (Bool × Bool × Bool)
  | .prim (.wcfg apu spu od) true => some (apu, spu, od)
  | .prim _ _ | .status _ | .data _ | .notify _ => none

/-- The five primitives that act on the 1-Wire line (R61). -/
def Prim.isOneWire : Prim → Bool
  | .wrs | .wsb _ | .wwb _ | .wrb | .wt _ => true
  | .drst | .wcfg _ _ _ | .srp _ | .chsl _ => false

/-- The number of rising edges of a status bit over the successful status reads among `es`, from a flag value (R184). -/
def risingEdges (bit : Byte → Bool) : Bool → List Byte → Nat
  | _, [] => 0
  | seen, st :: sts => (if bit st && !seen then 1 else 0) + risingEdges bit (bit st) sts

/-- Put the notifications into a list of requests: after each successful status read, SHORT if SD has a rising edge, then
RESET if RST has one, both only with a handler attached (R102, R103, R182). -/
def insertNotices (cbEn : Bool) : Bool → Bool → List Event → List Event
  | _, _, [] => []
  | sd, rst, e :: es =>
    match e.statusByte? with
    | some st =>
      e :: (edgeEvents .short cbEn (statusSD st) sd ++ edgeEvents .reset cbEn (statusRST st) rst ++
        insertNotices cbEn (statusSD st) (statusRST st) es)
    | none => e :: insertNotices cbEn sd rst es

/-- The ordering discipline of R61 and R60, over the events of ONE command. `waiting` says that the bridge may still be
busy: a 1-Wire primitive was accepted, or a status byte showed BUSY, and no status byte with BUSY clear has come since.
While waiting nothing is issued but status reads (and the `P_DRST` of a timeout, which is the last event). A request that
was answered `ok = false` is the last event. -/
def disciplined : Bool → List Event → Bool
  | _, [] => true
  | _, .status (some st) :: es => disciplined (statusBusy st) es
  | _, .status none :: es => es.isEmpty
  | waiting, .notify _ :: es => disciplined waiting es
  | waiting, .data (some _) :: es => !waiting && disciplined false es
  | waiting, .data none :: es => !waiting && es.isEmpty
  | waiting, .prim p ok :: es =>
    if p = .drst then waiting && es.isEmpty
    else !waiting && (if ok then disciplined p.isOneWire es else es.isEmpty)

/-- The bridge may still be busy after the events `es`, as `disciplined` says it, from `waiting` at their start (R61). -/
def stillWaiting : Bool → List Event → Bool
  | waiting, [] => waiting
  | _, .status (some st) :: es => stillWaiting (statusBusy st) es
  | waiting, .prim p ok :: es => stillWaiting (waiting || (ok && p.isOneWire)) es
  | waiting, .status none :: es => stillWaiting waiting es
  | waiting, .data _ :: es => stillWaiting waiting es
  | waiting, .notify _ :: es => stillWaiting waiting es

/-- Strong pull-up is off, as far as the accepted configuration writes tell, whenever a 1-Wire reset is issued (R201). -/
def pullUpOffAtReset : Bool → List Event → Bool
  | _, [] => true
  | spu, e :: es =>
    (match e with
      | .prim .wrs _ => !spu
      | .prim _ _ | .status _ | .data _ | .notify _ => true) &&
    pullUpOffAtReset (match e.acceptedCfg? with | some (_, b, _) => b | none => spu) es

/-- A triplet, however answered. -/
def Event.isTriplet (e : Event) : Bool := e.tripletDir?.isSome

/-- A 1-Wire reset, however answered. -/
def Event.isPulse : Event → Bool
  | .prim p _ => p == .wrs
  | .status _ | .data _ | .notify _ => false

/-- What the bridge reported of the primitives that `picks` picks: for each one that was accepted and whose poll succeeded,
the idle status byte that ends the poll. `pending` says that such a primitive's poll is open. -/
def idleBytes (picks : Event → Bool) : Bool → List Event → List Byte
  | _, [] => []
  | pending, e :: es =>
    match e.statusByte? with
    | some st =>
      if pending && !statusBusy st then st :: idleBytes picks false es else idleBytes picks pending es
    | none => idleBytes picks (pending || picks e) es

/-- The status bytes of the triplets (R134, 4b). -/
def tripletBytes : Bool → List Event → List Byte := idleBytes Event.isTriplet

/-- The status bytes of the 1-Wire resets: `st` of `DoReset` (R106). -/
def pulseBytes : Bool → List Event → List Byte := idleBytes Event.isPulse

/-- The recovery primitive of a timeout (R104). -/
def Event.isDeviceReset : Event → Bool
  | .prim p _ => p == .drst
  | .status _ | .data _ | .notify _ => false

/-- A request was answered `ok`. -/
def Event.answeredOk : Event → Bool
  | .prim _ ok => ok
  | .status st => st.isSome
  | .data v => v.isSome
  | .notify _ => false

/-- A request answered `ok = false`, other than `P_DRST`, whose answer R104 ignores. -/
def Event.isDenied (e : Event) : Bool := e.isRequest && !e.answeredOk && !e.isDeviceReset

/-- How many status reads in a row have shown BUSY, at the end of the events, after `n` before them. Notifications and the
recovery `P_DRST` do not break the row; every other request does, and so does a read that failed or showed BUSY clear. -/
def busyRow : Nat → List Event → Nat
  | n, [] => n
  | n, .status (some st) :: es => busyRow (if statusBusy st then n + 1 else 0) es
  | _, .status none :: es => busyRow 0 es
  | _, .data _ :: es => busyRow 0 es
  | n, .notify _ :: es => busyRow n es
  | n, .prim p _ :: es => busyRow (if p = .drst then n else 0) es

/-- A write-byte primitive, however answered. -/
def Event.isWriteByte : Event → Bool
  | .prim (.wwb _) _ => true
  | .prim .drst _ | .prim (.wcfg _ _ _) _ | .prim .wrs _ | .prim (.wsb _) _ | .prim .wrb _ | .prim (.wt _) _ => false
  | .prim (.srp _) _ | .prim (.chsl _) _ | .status _ | .data _ | .notify _ => false

/-- How many primitives a command may issue, `P_DRST` apart (R117, R141). -/
def primBound (spu : Bool) : Instr → Nat
  | .reset => if spu then 3 else 1
  | .rdbit | .wrbit _ | .rdbyte | .wrbyte _ | .skip => 1
  | .rdbytes len | .wrbytes len => len.toNat
  | .select => 9
  | .search => if spu then 68 else 66
  | .rstsrch | .attach _ | .crc8 _ | .verify _ => 0

/-- How many `WaitBusy` calls a command may make (R117, R141). -/
def pollBound : Instr → Nat
  | .reset => 2
  | .rdbit | .wrbit _ | .rdbyte | .wrbyte _ | .skip => 1
  | .rdbytes len | .wrbytes len => len.toNat
  | .select => 9
  | .search => 67
  | .rstsrch | .attach _ | .crc8 _ | .verify _ => 0

/-- A failed answer without its meaningless byte (U4). -/
def withoutFailedByte (a : Answer) : Answer := if a.ok then a else ⟨false, 0⟩

/-- The state whose listed failed answers carry no byte (U4). -/
def State.withoutFailedBytes (s : State) : State := { s with answers := s.answers.map withoutFailedByte }

/-- The causes a command can end with (R177). -/
def possibleCauses : Instr → List (BitVec 4)
  | .reset => [causeNone, Cause.transport.code, Cause.busyTimeout.code, Cause.noPresence.code]
  | .rdbit | .wrbit _ | .rdbyte | .wrbyte _ | .skip | .select =>
    [causeNone, Cause.transport.code, Cause.busyTimeout.code]
  | .rdbytes len | .wrbytes len =>
    if len = 0 then [causeNone] else [causeNone, Cause.transport.code, Cause.busyTimeout.code]
  | .search =>
    [causeNone, Cause.transport.code, Cause.busyTimeout.code, Cause.collision.code, Cause.checksum.code,
     Cause.noPresence.code, Cause.noMoreDevices.code]
  | .rstsrch | .attach _ | .crc8 _ => [causeNone]
  | .verify _ => [causeNone, Cause.checksum.code]

/-- The state after the commands of a list, one after another as long as each succeeds. -/
def runWhileOk : List Instr → State → Host.Outcome State Fault Refusal
  | [], s => .next s
  | i :: is, s =>
    match exec i s with
    | .next t => if t.resOk then runWhileOk is t else .next t
    | .fault r => .fault r
    | .refused r => .refused r

/-- The state after the commands of a list, one after another whatever their results. -/
def runAll : List Instr → State → Host.Outcome State Fault Refusal
  | [], s => .next s
  | i :: is, s =>
    match exec i s with
    | .next t => runAll is t
    | .fault r => .fault r
    | .refused r => .refused r

/-- A safe step: it goes on, and from a state that meets the invariant to one that does. -/
def safeStep (s : State) : Prop := ∃ t, step s = .next t ∧ (s.Inv → t.Inv)

end Sys2Proof.Machine
end

