-- ==== Sys2Proof/Certificates/Slice0/Obligations.lean ====
section
/-! DEFINITION. The statements, one per entry of OBLIGATIONS.json. Rules R<n> are of spec/. -/

open Sys2Proof Sys2Proof.Machine

/-! ### Reset and the invariant -/

/-- R195: the values after block reset. Two clauses say it in the model's terms: an unspecified byte of `BUF` (R24) is the free
value of its index, the model's choice (log 4), and that nothing is issued or notified (R196) is an empty trace, read by the
model from the rule (log 5). -/
def Obligations.BlockResetLeavesStatedValues : Prop :=
  let r := State.reset
  (∀ k (h : k < 8), r.rom[k] = 0) ∧ r.ld = 0 ∧ r.ldf = false ∧ (r.apu = false ∧ r.spu = false ∧ r.od = false) ∧
  r.cbEn = false ∧ (r.sdSeen = false ∧ r.rstSeen = false) ∧ (r.resOk = false ∧ r.resBit = false) ∧
  r.cause = causeNone ∧ r.data = 0 ∧ (∀ k, k < 256 → r.bufAt k = Config.unwrittenBuf k) ∧ r.trace = []

/-- The invariant of a block holds right after block reset. -/
def Obligations.BlockResetMeetsInvariant : Prop := State.reset.Inv

/-- Every step keeps the invariant: BUF canonical, `LD <= 63` (R29), `LDF == 1` implies `LD == 0` (R30), a cause R175
lets CAUSE hold, success only with cause NONE (R12). -/
def Obligations.EveryStepKeepsInvariant : Prop := ∀ s t, s.Inv → step s = .next t → t.Inv

/-- R176, R31: every command ends, in a next state; `RES.OK` is 1 exactly when `CAUSE` is NONE, and `CAUSE` is a code that
R175 lets it hold. -/
def Obligations.EveryCommandEndsWithItsResult : Prop :=
  ∀ i s, ∃ t, exec i s = .next t ∧ (t.resOk = true ↔ t.cause = causeNone) ∧ legalCause t.cause = true

/-- R175, R177: a command ends only with a cause that the table of R177 gives it (zero-length RDBYTES and WRBYTES, RSTSRCH,
ATTACH and CRC8 only with NONE), and each cause is reported exactly when what R175 names has happened: TRANSPORT when a request
other than P_DRST was denied; BUSY_TIMEOUT when the last reads are POLL_MAX status reads in a row with BUSY set; COLLISION when
a triplet reported both bits; CHECKSUM when VERIFY, or a SEARCH whose 64 triplets all passed, does not match; NO_PRESENCE when
the 1-Wire reset's poll ended without PPD and nothing was denied; NO_MORE_DEVICES when SEARCH starts in the terminal state. -/
def Obligations.CommandsEndOnlyWithTheirCauses : Prop :=
  ∀ i s t, exec i s = .next t →
    let es := newEvents s t
    let sts := tripletBytes false es
    (i.wellFormed = true → t.cause ∈ possibleCauses i) ∧
    (t.cause = 1 ↔ es.any Event.isDenied = true) ∧
    (t.cause = 2 ↔ busyRow 0 es = s.params.pollMax) ∧
    (t.cause = 3 ↔ sts.any tripletCollision = true) ∧
    (t.cause = 5 ↔
      (∃ len : Byte, i = .verify len ∧ len ≠ 0 ∧
        crc8 ((List.range (len.toNat - 1)).map s.bufAt) ≠ s.bufAt (len.toNat - 1)) ∨
      (sts.length = 64 ∧ sts.any tripletCollision = false ∧ crc8 (t.rom.toList.take 7) ≠ t.rom[7])) ∧
    (t.cause = 6 ↔ (∃ st ∈ pulseBytes false es, statusPPD st = false) ∧ es.any Event.isDenied = false) ∧
    (t.cause = 7 ↔ i = .search ∧ s.ldf = true)

/-! ### Encoding and the host port -/

/-- Decode of encode is the identity on every command with every operand. -/
def Obligations.DecodeOfEncodeIsIdentity : Prop := ∀ i : Instr, i.wellFormed = true → decode (encode i) = .ok i

/-- Each word has one meaning: a decoded word is the encoding of what it decodes to, and that is well formed. -/
def Obligations.EncodeOfDecodeIsIdentity : Prop :=
  ∀ w i, decode w = .ok i → encode i = w ∧ i.wellFormed = true

/-- R73, R74: a word is a command exactly when it matches a row of the opcode table and is not VERIFY 0, and then it matches
exactly one row, that of its mnemonic. -/
def Obligations.DecodeAgreesWithOpcodeTable : Prop :=
  ∀ w : CmdWord,
    ((∃ i, decode w = .ok i) ↔ (w ≠ 0x0E00 ∧ ∃ r ∈ opcodeTable, r.accepts w = true)) ∧
    (∀ i, decode w = .ok i → (opcodeTable.filter (·.accepts w)).map OpcodeRow.mnemonic = [mnemonicOf i])

/-- R73: eight words written out bit by bit decode to the commands they stand for. -/
def Obligations.WrittenOutWordsDecode : Prop :=
  decode 0b0000000100000000 = .ok .reset ∧ decode 0b0000001000000000 = .ok .rdbit ∧
  decode 0b0000001100000001 = .ok (.wrbit true) ∧ decode 0b0000010101000100 = .ok (.wrbyte 0x44) ∧
  decode 0b0000011000000011 = .ok (.rdbytes 3) ∧ decode 0b0000101000000000 = .ok .search ∧
  decode 0b0000110000000001 = .ok (.attach true) ∧ decode 0b0000111000001000 = .ok (.verify 8)

/-- R70: when the host's next move writes a word to CMD and the word decodes, the step is that command at the state with the
move taken; nothing is added around it. With no move waiting the engine is idle and the step changes nothing (the model's
choice, log 1). -/
def Obligations.StepRunsThePresentedCommand : Prop :=
  (∀ s w i rest, s.host = .writeReg 0 w :: rest → decode w = .ok i → step s = exec i { s with host := rest }) ∧
  (∀ s, s.host = [] → step s = .next s)

/-- R74, R168: an illegal word fails with ILLEGAL_COMMAND and changes nothing else. -/
def Obligations.IllegalWordOnlyFails : Prop :=
  ∀ (s : State) (w : CmdWord) rest, s.host = .writeReg 0 w :: rest →
    ((opField w).toNat = 0 ∨ 0x0E < (opField w).toNat ∨
      ((opField w).toNat ∈ [0x01, 0x02, 0x04, 0x08, 0x09, 0x0A, 0x0B] ∧ argField w ≠ 0) ∨
      ((opField w).toNat ∈ [0x03, 0x0C] ∧ (argField w).extractLsb' 1 7 ≠ 0) ∨ w = 0x0E00) →
    step s = .next { s with host := rest, resOk := false, cause := 8 }

/-- R166: a host write of CFG takes bits 2:0 into the three fields and changes nothing else. -/
def Obligations.HostWriteOfCfgSetsTheShadowOnly : Prop :=
  ∀ (s : State) (v : CmdWord) rest, s.host = .writeReg 4 v :: rest →
    step s = .next { s with host := rest, apu := v.getLsbD 0, spu := v.getLsbD 1, od := v.getLsbD 2 }

/-- R27: a write to any other register index is ignored; a write of a BUF byte stores it, and every other byte of BUF reads
as before, with nothing else changed (R51). -/
def Obligations.HostWritesElsewhere : Prop :=
  (∀ (s : State) index v rest, s.host = .writeReg index v :: rest → index ≠ 0 → index ≠ 4 →
    step s = .next { s with host := rest }) ∧
  (∀ (s : State) (k : Byte) (v : Byte) rest, s.host = .writeBuf k v :: rest →
    ∃ m, step s = .next { s with host := rest, buf := m } ∧ Memory.read m k.toNat = v ∧
      ∀ j, j ≠ k.toNat → Memory.read m j = Memory.read s.buf j)

/-- R27, R167: a read of a readable or unassigned register, or of a BUF byte, hands the host the value packed as R27 says
and changes nothing else. -/
def Obligations.HostReadsGiveThePackedValue : Prop :=
  (∀ (s : State) index rest, s.host = .readReg index :: rest → index ≠ 0 →
    ∃ v : Byte, step s = .next { s with host := rest, hostOut := s.hostOut ++ [v] } ∧
      (index = 1 → ∀ j, v.getLsbD j = if j = 0 then s.resOk else if j = 1 then s.resBit else false) ∧
      (index = 2 → ∀ j, v.getLsbD j = s.cause.getLsbD j) ∧
      (index = 3 → v = s.data) ∧
      (index = 4 → ∀ j, v.getLsbD j = if j = 0 then s.apu else if j = 1 then s.spu else if j = 2 then s.od else false) ∧
      (index = 5 → ∀ j, v.getLsbD j = if j = 7 then s.ldf else s.ld.getLsbD j) ∧
      (index = 6 → ∀ j, v.getLsbD j = if j = 0 then s.cbEn else false) ∧
      (∀ h : 8 ≤ index ∧ index < 16, v = s.rom[index - 8]) ∧
      ((index = 7 ∨ 16 ≤ index) → v = 0)) ∧
  (∀ (s : State) (k : Byte) rest, s.host = .readBuf k :: rest →
    step s = .next { s with host := rest, hostOut := s.hostOut ++ [s.bufAt k.toNat] })

/-! ### BUF -/

/-- Two buffers in canonical form that list the same bytes are equal data. -/
def Obligations.EqualBuffersAreEqualData : Prop :=
  ∀ m n : Memory, Memory.wf m = true → Memory.wf n = true → (∀ a, Memory.get? m a = Memory.get? n a) → m = n

/-! ### Single-request commands: completion with the exact next state -/

/-- R111, R112: WRBYTE with its primitive and its status reads answered positively and BUSY clear within the budget: the next
state uses those answers, adds P_1WWB(v) and the status reads with their notifications to the trace, moves the edge memories to
the last status byte, has RES.OK = 1 and CAUSE = NONE, and is otherwise the same. -/
def Obligations.WriteByteCompletes : Prop :=
  ∀ (s : State) v (x : Exchange), s.Answers x.answers → x.good s.params.pollMax = true →
    exec (.wrbyte v) s = .next
      { s.consumed x.answers.length with
        sdSeen := statusSD x.poll.idle, rstSeen := statusRST x.poll.idle,
        trace := s.trace ++ exchangeEvents s.cbEn s.sdSeen s.rstSeen [(.wwb v, x)],
        resOk := true, cause := 0 }

/-- R108, R109: WRBIT answered positively: as WRBYTE with P_1WSB(b); the sample is discarded, everything else is the same. -/
def Obligations.WriteBitCompletes : Prop :=
  ∀ (s : State) b (x : Exchange), s.Answers x.answers → x.good s.params.pollMax = true →
    exec (.wrbit b) s = .next
      { s.consumed x.answers.length with
        sdSeen := statusSD x.poll.idle, rstSeen := statusRST x.poll.idle,
        trace := s.trace ++ exchangeEvents s.cbEn s.sdSeen s.rstSeen [(.wsb b, x)],
        resOk := true, cause := 0 }

/-- R108, R110: RDBIT answered positively: it sends bit value 1 and stores the SINGLE-BIT-READ field of the idle status byte in
RES.BIT; trace, edge memories and result as for WRBIT, everything else is the same. -/
def Obligations.ReadBitCompletes : Prop :=
  ∀ (s : State) (x : Exchange), s.Answers x.answers → x.good s.params.pollMax = true →
    exec .rdbit s = .next
      { s.consumed x.answers.length with
        sdSeen := statusSD x.poll.idle, rstSeen := statusRST x.poll.idle,
        trace := s.trace ++ exchangeEvents s.cbEn s.sdSeen s.rstSeen [(.wsb true, x)],
        resBit := x.poll.idle.getLsbD 5, resOk := true, cause := 0 }

/-- R113, R114: RDBYTE answered positively: P_1WRB, the status reads, then one data read, whose byte goes to DATA; everything
else is the same. -/
def Obligations.ReadByteCompletes : Prop :=
  ∀ (s : State) (x : Exchange) v, s.Answers (x.answers ++ [yes v]) → x.good s.params.pollMax = true →
    exec .rdbyte s = .next
      { s.consumed (x.answers.length + 1) with
        sdSeen := statusSD x.poll.idle, rstSeen := statusRST x.poll.idle,
        trace := s.trace ++ exchangeEvents s.cbEn s.sdSeen s.rstSeen [(.wrb, x)] ++ [.data (some v)],
        data := v, resOk := true, cause := 0 }

/-- R121: SKIP answered positively: the byte CMD_SKIP_ROM is sent as by WRBYTE, and no 1-Wire reset before it. -/
def Obligations.SkipCompletes : Prop :=
  ∀ (s : State) (x : Exchange), s.Answers x.answers → x.good s.params.pollMax = true →
    exec .skip s = .next
      { s.consumed x.answers.length with
        sdSeen := statusSD x.poll.idle, rstSeen := statusRST x.poll.idle,
        trace := s.trace ++ exchangeEvents s.cbEn s.sdSeen s.rstSeen [(.wwb s.params.cmdSkipRom, x)],
        resOk := true, cause := 0 }

/-- R12: a primitive answered `ok = false` ends WRBIT, RDBIT, WRBYTE, RDBYTE and SKIP with TRANSPORT: one request, no status
read, nothing else changed. -/
def Obligations.DeniedPrimitiveEndsTheCommand : Prop :=
  ∀ (s : State) i p b v,
    (i, p) ∈ [(Instr.wrbit b, Prim.wsb b), (.rdbit, .wsb true), (.wrbyte v, .wwb v), (.rdbyte, .wrb),
      (.skip, .wwb s.params.cmdSkipRom)] →
    (s.answerAt 0).ok = false →
    exec i s = .next
      { s.consumed 1 with trace := s.trace ++ [.prim p false], resOk := false, cause := 1 }

/-- R100, R101, R104: `WaitBusy` under every course of the environment's answers. It returns the first status byte with BUSY
clear if that is among the first POLL_MAX reads; it ends with TRANSPORT at a denied read before that, which touches neither
edge flag; after POLL_MAX busy reads, no fewer and no more, it fails with BUSY_TIMEOUT, and with TIMEOUT_DRST one P_DRST
follows, whose answer changes nothing but its own event. The three courses exclude each other and there is no fourth. -/
def Obligations.WaitBusyFollowsItsRule : Prop :=
  (∀ (s : State) (busy : List Byte) (idle : Byte), (∀ st ∈ busy, statusBusy st = true) → statusBusy idle = false →
    busy.length < s.params.pollMax → s.Answers ((busy ++ [idle]).map yes) →
    waitBusy s = .ok idle
      { s.consumed (busy.length + 1) with
        sdSeen := statusSD idle, rstSeen := statusRST idle,
        trace := s.trace ++ readEvents s.cbEn s.sdSeen s.rstSeen (busy ++ [idle]) }) ∧
  (∀ (s : State) (busy : List Byte) z, (∀ st ∈ busy, statusBusy st = true) → busy.length < s.params.pollMax →
    s.Answers (busy.map yes ++ [⟨false, z⟩]) →
    waitBusy s = .fail .transport
      { s.consumed (busy.length + 1) with
        sdSeen := flagAfter statusSD s.sdSeen busy, rstSeen := flagAfter statusRST s.rstSeen busy,
        trace := s.trace ++ readEvents s.cbEn s.sdSeen s.rstSeen busy ++ [.status none] }) ∧
  (∀ (s : State) (busy : List Byte), (∀ st ∈ busy, statusBusy st = true) → busy.length = s.params.pollMax →
    s.Answers (busy.map yes) →
    waitBusy s = .fail .busyTimeout
      { s.consumed (busy.length + if s.params.timeoutDrst then 1 else 0) with
        sdSeen := flagAfter statusSD s.sdSeen busy, rstSeen := flagAfter statusRST s.rstSeen busy,
        trace := s.trace ++ readEvents s.cbEn s.sdSeen s.rstSeen busy ++
          (if s.params.timeoutDrst then [.prim .drst (s.answerAt busy.length).ok] else []) }) ∧
  (∀ s : State, ∃ busy : List Byte, (∀ st ∈ busy, statusBusy st = true) ∧
    ((busy.length < s.params.pollMax ∧ ∃ idle, statusBusy idle = false ∧ s.Answers ((busy ++ [idle]).map yes)) ∨
      (busy.length < s.params.pollMax ∧ ∃ z, s.Answers (busy.map yes ++ [⟨false, z⟩])) ∨
      (busy.length = s.params.pollMax ∧ s.Answers (busy.map yes))))

/-! ### Byte strings and addressing -/

/-- R115: WRBYTES answered positively sends `BUF[0..len-1]` in order, each byte with its own status reads; the exact next
state, for every length, 0 included. -/
def Obligations.WriteBytesCompletes : Prop :=
  ∀ (s : State) (len : Byte) (xs : List Exchange), xs.length = len.toNat →
    s.Answers (xs.flatMap Exchange.answers) → (∀ x ∈ xs, x.good s.params.pollMax = true) →
    exec (.wrbytes len) s = .next
      { s.consumed (xs.flatMap Exchange.answers).length with
        sdSeen := flagAfter statusSD s.sdSeen (xs.map (·.poll.idle)),
        rstSeen := flagAfter statusRST s.rstSeen (xs.map (·.poll.idle)),
        trace := s.trace ++ exchangeEvents s.cbEn s.sdSeen s.rstSeen
          (((List.range len.toNat).map fun k => Prim.wwb (s.bufAt k)).zip xs),
        resOk := true, cause := 0 }

/-- R115: WRBYTES ends at the first byte that fails, whether its primitive is denied, a status read is, or BUSY never clears:
the bytes before it were sent, the later ones are not; the exact next state. -/
def Obligations.WriteBytesStopsAtFirstFailure : Prop :=
  ∀ (s : State) (len : Byte) (xs : List Exchange) (f : PollFailure), xs.length < len.toNat →
    s.Answers (xs.flatMap Exchange.answers ++ f.answers) → (∀ x ∈ xs, x.good s.params.pollMax = true) →
    f.good s.params.pollMax = true →
    let sd := flagAfter statusSD s.sdSeen (xs.map (·.poll.idle))
    let rst := flagAfter statusRST s.rstSeen (xs.map (·.poll.idle))
    let n := (xs.flatMap Exchange.answers).length + f.answers.length
    exec (.wrbytes len) s = .next
      { s.consumed (n + (f.recovery s n).length) with
        sdSeen := flagAfter statusSD sd f.busy,
        rstSeen := flagAfter statusRST rst f.busy,
        trace := s.trace ++ exchangeEvents s.cbEn s.sdSeen s.rstSeen
            (((List.range xs.length).map fun k => Prim.wwb (s.bufAt k)).zip xs) ++
          f.events s.cbEn sd rst (.wwb (s.bufAt xs.length)) ++ f.recovery s n,
        resOk := false, cause := f.cause.code }

/-- R113, R116: RDBYTES answered positively: for each byte P_1WRB, its status reads and one data read, in that order and
nothing more; the bytes read are stored in `BUF[0..len-1]`, DATA and the rest of BUF are left. For every length, 0 included. -/
def Obligations.ReadBytesCompletes : Prop :=
  ∀ (s : State) (len : Byte) (xs : List (Exchange × Byte)), xs.length = len.toNat →
    s.Answers (xs.flatMap fun x => x.1.answers ++ [yes x.2]) → (∀ x ∈ xs, x.1.good s.params.pollMax = true) →
    ∃ t, exec (.rdbytes len) s = .next t ∧ t.resOk = true ∧ t.cause = 0 ∧
      (∀ k (h : k < xs.length), t.bufAt k = xs[k].2) ∧ keepsBufFrom len.toNat s t ∧
      t.sdSeen = flagAfter statusSD s.sdSeen (xs.map (·.1.poll.idle)) ∧
      t.rstSeen = flagAfter statusRST s.rstSeen (xs.map (·.1.poll.idle)) ∧
      t.trace = s.trace ++ readByteEvents s.cbEn s.sdSeen s.rstSeen xs ∧
      t.answers = (s.consumed (xs.flatMap fun x => x.1.answers ++ [yes x.2]).length).answers ∧
      t.freeCount = (s.consumed (xs.flatMap fun x => x.1.answers ++ [yes x.2]).length).freeCount ∧
      keepsCfg s t ∧ keepsSearch s t ∧ keepsHostSide s t ∧ t.resBit = s.resBit ∧ t.data = s.data

/-- R116: RDBYTES ends at the first byte that fails, whether its primitive, a status read or its data read is denied or BUSY
never clears, with that cause; `BUF[j]` below the failing index hold the bytes read, `BUF[j]` from it upward are unchanged, and
nothing is asked for after the failing request (a timeout's P_DRST apart): the whole trace. -/
def Obligations.ReadBytesStopsAtFirstFailure : Prop :=
  ∀ (s : State) (len : Byte) (xs : List (Exchange × Byte)) as c es, xs.length < len.toNat →
    s.Answers ((xs.flatMap fun x => x.1.answers ++ [yes x.2]) ++ as) →
    (∀ x ∈ xs, x.1.good s.params.pollMax = true) →
    let sd := flagAfter statusSD s.sdSeen (xs.map (·.1.poll.idle))
    let rst := flagAfter statusRST s.rstSeen (xs.map (·.1.poll.idle))
    let n := (xs.flatMap fun x => x.1.answers ++ [yes x.2]).length + as.length
    ((∃ f : PollFailure, f.good s.params.pollMax = true ∧ as = f.answers ∧ c = f.cause ∧
        es = f.events s.cbEn sd rst .wrb ++ f.recovery s n) ∨
      (∃ (x : Exchange) (z : Byte), x.good s.params.pollMax = true ∧ as = x.answers ++ [⟨false, z⟩] ∧ c = .transport ∧
        es = exchangeEvents s.cbEn sd rst [(.wrb, x)] ++ [.data none])) →
    ∃ t, exec (.rdbytes len) s = .next t ∧ t.resOk = false ∧ t.cause = c.code ∧
      (∀ k (h : k < xs.length), t.bufAt k = xs[k].2) ∧ keepsBufFrom xs.length s t ∧ t.data = s.data ∧
      t.trace = s.trace ++ readByteEvents s.cbEn s.sdSeen s.rstSeen xs ++ es

/-- R122: SELECT answered positively sends CMD_SELECT_ROM, then `BUF[0..7]`: the exact next state. -/
def Obligations.SelectCompletes : Prop :=
  ∀ (s : State) (x : Exchange) (xs : List Exchange), xs.length = 8 →
    s.Answers (x.answers ++ xs.flatMap Exchange.answers) →
    x.good s.params.pollMax = true → (∀ y ∈ xs, y.good s.params.pollMax = true) →
    exec .select s = .next
      { s.consumed (x.answers.length + (xs.flatMap Exchange.answers).length) with
        sdSeen := flagAfter statusSD s.sdSeen (xs.map (·.poll.idle)),
        rstSeen := flagAfter statusRST s.rstSeen (xs.map (·.poll.idle)),
        trace := s.trace ++ exchangeEvents s.cbEn s.sdSeen s.rstSeen
          ((Prim.wwb s.params.cmdSelectRom, x) :: ((List.range 8).map fun k => Prim.wwb (s.bufAt k)).zip xs),
        resOk := true, cause := 0 }

/-- R77: SKIP is WRBYTE of CMD_SKIP_ROM, SELECT is WRBYTE of CMD_SELECT_ROM and then WRBYTES 8, and WRBYTES of at least one
byte is the WRBYTEs of its bytes stopped at the first failure: same trace, same result, same state. -/
def Obligations.SendingCommandsAreByteSequences : Prop :=
  (∀ s, exec .skip s = exec (.wrbyte s.params.cmdSkipRom) s) ∧
  (∀ s, exec .select s = runWhileOk [.wrbyte s.params.cmdSelectRom, .wrbytes 8] s) ∧
  (∀ (s : State) (len : Byte), len ≠ 0 →
    exec (.wrbytes len) s = runWhileOk ((List.range len.toNat).map fun k => .wrbyte (s.bufAt k)) s)

/-! ### RESET -/

/-- R106, R107: RESET with every answer positive: strong pull-up cleared before and restored after where it was set, a poll
before and after the pulse, the presence bit of the last status byte decides between success and NO_PRESENCE; the exact next
state. -/
def Obligations.ResetCompletes : Prop :=
  ∀ (s : State) (x : ResetExchange), s.Answers (x.answers s.spu) → x.good s.params.pollMax = true →
    exec .reset s = .next
      { s.consumed (x.answers s.spu).length with
        sdSeen := statusSD x.pulse.poll.idle, rstSeen := statusRST x.pulse.poll.idle,
        trace := s.trace ++ resetEvents s x,
        resOk := x.pulse.poll.idle.getLsbD 1, cause := if x.pulse.poll.idle.getLsbD 1 then 0 else 6 }

/-- R106, R208 item 1: with strong pull-up set, a RESET that failed otherwise than for want of presence leaves `CFG.SPU = 0`,
unless the clearing write itself was the request that failed, and then it is the only one. -/
def Obligations.FailedResetLeavesPullUpCleared : Prop :=
  ∀ s t, s.spu = true → exec .reset s = .next t → t.resOk = false → t.cause ≠ Cause.noPresence.code →
    t.spu = false ∨ (t.spu = true ∧ newEvents s t = [.prim (.wcfg s.apu false s.od) false])

/-! ### The Search Engine -/

/-- R131: in the terminal state SEARCH fails with NO_MORE_DEVICES and nothing else changes; otherwise, where its reset fails
or finds nobody, SEARCH is RESET with the search state cleared: the same requests, the same cause. -/
def Obligations.SearchStepsOneAndTwo : Prop :=
  (∀ s : State, s.ldf = true → exec .search s = .next { s with resOk := false, cause := 7 }) ∧
  (∀ s u : State, s.ldf = false → exec .reset s = .next u → u.resOk = false →
    exec .search s = .next { u with rom := #v[0, 0, 0, 0, 0, 0, 0, 0], ld := 0, ldf := false })

/-- R133, R134, R135, R136, R137: a SEARCH that passes its 64 triplets. Each requests the direction R133 gives; the candidate
address is what the triplets reported; `LD` is the
largest index at which both branches existed and 0 was taken, 0 if there is none, and `LDF` is set exactly if it is 0; then
the checksum decides: a valid candidate is delivered to `BUF[0..7]`, an invalid one leaves `BUF` unchanged and the search
state as just advanced. -/
def Obligations.SearchCompletes : Prop :=
  ∀ (s : State) (r : ResetExchange) (c : Exchange) (xs : List Exchange) (found : Vector Byte 8),
    s.ldf = false → xs.length = 64 →
    s.Answers (r.answers s.spu ++ c.answers ++ xs.flatMap Exchange.answers) →
    r.good s.params.pollMax = true → c.good s.params.pollMax = true → (∀ x ∈ xs, x.good s.params.pollMax = true) →
    statusPPD r.pulse.poll.idle = true →
    (∀ x ∈ xs, ¬(statusSBR x.poll.idle = true ∧ statusTSB x.poll.idle = true)) →
    (∀ i (h : i < xs.length), romBit found i = statusDIR xs[i].poll.idle) →
    ∃ t, exec .search s = .next t ∧
      (crc8 (found.toList.take 7) = found[7] →
        t.resOk = true ∧ t.cause = 0 ∧ (∀ k (h : k < 8), t.bufAt k = found[k]) ∧ keepsBufFrom 8 s t) ∧
      (crc8 (found.toList.take 7) ≠ found[7] → t.resOk = false ∧ t.cause = 5 ∧ keepsBufFrom 0 s t) ∧
      t.rom = found ∧
      (∀ i (h : i < xs.length), statusSBR xs[i].poll.idle = false → statusTSB xs[i].poll.idle = false →
        statusDIR xs[i].poll.idle = false → i ≤ t.ld.toNat) ∧
      (t.ld = 0 ∨ ∃ h : t.ld.toNat < xs.length, statusSBR xs[t.ld.toNat].poll.idle = false ∧
        statusTSB xs[t.ld.toNat].poll.idle = false ∧ statusDIR xs[t.ld.toNat].poll.idle = false) ∧
      (t.ldf = true ↔ t.ld = 0) ∧
      t.trace = s.trace ++ resetEvents s r ++
        exchangeEvents s.cbEn (statusSD r.pulse.poll.idle) (statusRST r.pulse.poll.idle)
          ((Prim.wwb s.params.cmdSearchRom, c) ::
            ((List.range 64).map fun i =>
              Prim.wt (if i < s.ld.toNat then romBit s.rom i else i == s.ld.toNat)).zip xs) ∧
      keepsCfg s t ∧ keepsHostSide s t ∧ t.resBit = s.resBit ∧ t.data = s.data

/-- R138: every exit of SEARCH. NO_MORE_DEVICES is the exit of step 1 and leaves all as before, with nothing issued. COLLISION is
the exit of step 4c: taken exactly when a triplet reported both bits, and that is the last one (R134). A failing exit leaves
BUF unchanged. NO_PRESENCE and COLLISION clear the search state, and so does a failure before the command byte; a
later TRANSPORT or BUSY_TIMEOUT keeps LD and LDF and has stored the bits the bridge reported so far; CHECKSUM and success have
stored all 64, set LD to last_zero (the largest index at which both branches existed and 0 was taken, 0 if there is none) and
LDF exactly if that is 0, and are told apart by the CRC; success delivers the address to `BUF[0..7]`. -/
def Obligations.SearchExitsLeaveTheStatedState : Prop :=
  ∀ s t, exec .search s = .next t →
    let es := newEvents s t
    let sts := tripletBytes false es
    let cleared := (∀ k (h : k < 8), t.rom[k] = 0) ∧ t.ld = 0 ∧ t.ldf = false
    (t.resOk = true ↔ t.cause = 0) ∧
    (t.resOk = false → keepsBufFrom 0 s t) ∧
    (t.cause = 7 ↔ s.ldf = true) ∧
    (t.cause = 7 → keepsSearch s t ∧ es = []) ∧
    (t.cause = 3 ↔ sts.any tripletCollision = true) ∧
    sts.dropLast.any tripletCollision = false ∧
    ((t.cause = 6 ∨ t.cause = 3) → cleared) ∧
    ((t.cause = 1 ∨ t.cause = 2) → es.any Event.isWriteByte = false → cleared) ∧
    ((t.cause = 1 ∨ t.cause = 2) → es.any Event.isWriteByte = true →
      t.ld = s.ld ∧ t.ldf = false ∧ ∀ j, j < 64 → romBit t.rom j = (sts[j]?.map statusDIR).getD (romBit s.rom j)) ∧
    ((t.cause = 0 ∨ t.cause = 5) →
      sts.length = 64 ∧ (∀ j (h : j < sts.length), romBit t.rom j = statusDIR sts[j]) ∧
      (∀ j (h : j < sts.length), tripletZeroTaken sts[j] = true → j ≤ t.ld.toNat) ∧
      (t.ld = 0 ∨ ∃ h : t.ld.toNat < sts.length, tripletZeroTaken sts[t.ld.toNat] = true) ∧
      (t.ldf = true ↔ t.ld = 0) ∧
      (t.cause = 0 ↔ crc8 (t.rom.toList.take 7) = t.rom[7])) ∧
    (t.cause = 0 → ∀ k (h : k < 8), t.bufAt k = t.rom[k])

/-- R133: whatever the answers, the i-th triplet of a SEARCH requests the recorded bit below LD, 1 at LD and 0 above, and
there are at most 64. -/
def Obligations.SearchRequestsTheLiteralDirections : Prop :=
  ∀ s t, exec .search s = .next t →
    let dirs := (newEvents s t).filterMap Event.tripletDir?
    dirs.length ≤ 64 ∧
      ∀ i (h : i < dirs.length), dirs[i] = if i < s.ld.toNat then romBit s.rom i else i == s.ld.toNat

/-- R140: RSTSRCH zeroes ROM, LD and LDF, succeeds, and changes nothing else. -/
def Obligations.RstsrchClearsTheSearchState : Prop :=
  ∀ s, exec .rstsrch s = .next
    { s with rom := #v[0, 0, 0, 0, 0, 0, 0, 0], ld := 0, ldf := false, resOk := true, cause := 0 }

/-! ### The Checksum Validator and ATTACH -/

/-- R165: ATTACH writes CB_EN, succeeds, and changes nothing else. -/
def Obligations.AttachWritesTheEnable : Prop :=
  ∀ s b, exec (.attach b) s = .next { s with cbEn := b, resOk := true, cause := 0 }

/-- R153: CRC8 puts the CRC of `BUF[0..len-1]` in DATA, succeeds, and changes nothing else. -/
def Obligations.Crc8WritesData : Prop :=
  ∀ (s : State) (len : Byte), exec (.crc8 len) s = .next
    { s with data := crc8 ((List.range len.toNat).map s.bufAt), resOk := true, cause := 0 }

/-- R154: VERIFY succeeds exactly when the CRC of all but the last byte equals the last byte, fails with CHECKSUM otherwise,
and changes nothing else; the word of `VERIFY 0` fails with ILLEGAL_COMMAND and changes nothing else. -/
def Obligations.VerifyComparesTheTrailingByte : Prop :=
  (∀ (s : State) (len : Byte), len ≠ 0 →
    (crc8 ((List.range (len.toNat - 1)).map s.bufAt) = s.bufAt (len.toNat - 1) →
      exec (.verify len) s = .next { s with resOk := true, cause := 0 }) ∧
    (crc8 ((List.range (len.toNat - 1)).map s.bufAt) ≠ s.bufAt (len.toNat - 1) →
      exec (.verify len) s = .next { s with resOk := false, cause := 5 })) ∧
  ∀ (s : State) rest, s.host = .writeReg 0 0x0E00 :: rest →
    step s = .next { s with host := rest, resOk := false, cause := 8 }

/-- R155: appending the CRC makes the sequence verify, and its CRC 0x00. -/
def Obligations.CrcAppendLaw : Prop :=
  ∀ d : List Byte, crcVerify (d ++ [crc8 d]) = true ∧ crc8 (d ++ [crc8 d]) = 0

/-- R156: the CRC is linear over exclusive or. -/
def Obligations.CrcIsLinear : Prop :=
  ∀ a b : List Byte, a.length = b.length → crc8 (List.zipWith (· ^^^ ·) a b) = crc8 a ^^^ crc8 b

/-- R156: the CRC of a sequence with exactly one bit set is never 0x00; two sequences of equal length that differ in exactly
one bit do not both verify. -/
def Obligations.CrcSeesSingleBitErrors : Prop :=
  (∀ (m n k : Nat), k < 8 → crc8 (List.replicate m 0 ++ [bitAt k true] ++ List.replicate n 0) ≠ 0) ∧
  (∀ (a b : List Byte) (v : Byte) k, k < 8 →
    ¬(crcVerify (a ++ [v] ++ b) = true ∧ crcVerify (a ++ [v ^^^ bitAt k true] ++ b) = true))

/-- R151, R157: the table form gives the same function, the eight single-bit entries of the table are R151's (which fixes the
polynomial of R150, since every other entry is a sum of these by linearity), and an all-zero sequence has CRC 0x00. -/
def Obligations.CrcTableForm : Prop :=
  (∀ d : List Byte, crc8 d = d.foldl (fun crc b => crc8 [crc ^^^ b]) 0) ∧
  (crc8 [0x01] = 0x5E ∧ crc8 [0x02] = 0xBC ∧ crc8 [0x04] = 0x61 ∧ crc8 [0x08] = 0xC2 ∧
    crc8 [0x10] = 0x9D ∧ crc8 [0x20] = 0x23 ∧ crc8 [0x40] = 0x46 ∧ crc8 [0x80] = 0x8C) ∧
  (∀ n, crc8 (List.replicate n 0) = 0)

/-! ### Rules about every command's trace -/

/-- R60: the trace of successive commands is concatenated: a command only appends; and it issues neither channel select nor a
pointer set of its own (R80). -/
def Obligations.CommandsOnlyAppendToTheTrace : Prop :=
  ∀ i s t, exec i s = .next t → t.trace = s.trace ++ newEvents s t ∧
    ∀ e ∈ newEvents s t, ∀ p ok, e = .prim p ok → (∀ c, p ≠ .chsl c) ∧ (∀ ptr, p ≠ .srp ptr)

/-- R102, R103, R182: in every command's trace the notifications stand exactly after the successful status reads that show a
rising edge of their condition, SHORT before RESET, and only with a handler attached; and the two edge flags end with the
last read's bits, with or without a handler. -/
def Obligations.NotificationsAreTheRisingEdges : Prop :=
  ∀ i s t, exec i s = .next t →
    let es := newEvents s t
    es = insertNotices s.cbEn s.sdSeen s.rstSeen (es.filter Event.isRequest) ∧
    t.sdSeen = flagAfter statusSD s.sdSeen (es.filterMap Event.statusByte?) ∧
    t.rstSeen = flagAfter statusRST s.rstSeen (es.filterMap Event.statusByte?)

/-- R184: over any sequence of commands with a handler attached throughout, the number of SHORT notifications is the number of
rising edges of SD over the successful status reads, from the flag's value at the start; likewise for RESET. -/
def Obligations.NotificationCountIsEdgeCount : Prop :=
  ∀ (is : List Instr) s t, (∀ i ∈ is, ∀ b, i ≠ .attach b) → s.cbEn = true →
    runAll is s = .next t →
    let sts := (newEvents s t).filterMap Event.statusByte?
    (newEvents s t).count (.notify .short) = risingEdges statusSD s.sdSeen sts ∧
    (newEvents s t).count (.notify .reset) = risingEdges statusRST s.rstSeen sts

/-- R61, R60, R104: every command keeps the ordering discipline: after an accepted 1-Wire primitive or a busy status byte nothing
is issued but status reads until BUSY is clear (a timeout's P_DRST apart), and nothing after a failed request; and a command that
succeeds ends with nothing waiting, so that the next one finds the bridge idle. -/
def Obligations.CommandsWaitForTheBridge : Prop :=
  ∀ i s t, exec i s = .next t →
    disciplined false (newEvents s t) = true ∧ (t.resOk = true → stillWaiting false (newEvents s t) = false)

/-- R106, R83: after every command CFG.SPU is the bit of the last configuration write the bridge accepted in it (unchanged
without one), and every configuration write carries APU and OD unchanged. -/
def Obligations.ShadowFollowsAcceptedConfigurations : Prop :=
  ∀ i s t, exec i s = .next t →
    t.spu = ((((newEvents s t).filterMap Event.acceptedCfg?).getLast?).map (·.2.1)).getD s.spu ∧
    ∀ apu spu od ok, .prim (.wcfg apu spu od) ok ∈ newEvents s t → apu = s.apu ∧ od = s.od

/-- R201: no command issues the 1-Wire reset with strong pull-up on, as far as CFG and the accepted writes tell. -/
def Obligations.PullUpIsOffDuringReset : Prop :=
  ∀ i s t, exec i s = .next t → pullUpOffAtReset s.spu (newEvents s t) = true

/-- R117, R141: a command issues at most the primitives the rules count (RESET 3, or 1 with strong pull-up off; SEARCH 68, or
66; SELECT 9; RDBYTES and WRBYTES len), at most as many polls of POLL_MAX status reads (RESET 2, SEARCH 67), and at most one
P_DRST. -/
def Obligations.CommandsAreBounded : Prop :=
  ∀ i s t, exec i s = .next t →
    let es := newEvents s t
    es.countP (fun e => e.isPrim && !e.isDeviceReset) ≤ primBound s.spu i ∧
    es.countP Event.isStatus ≤ pollBound i * s.params.pollMax ∧
    es.countP Event.isDeviceReset ≤ 1

/-- U4: no command reads the byte that comes with `ok = false`: with those bytes zeroed it does the same. -/
def Obligations.FailedAnswerBytesAreUnread : Prop :=
  ∀ i s t, exec i s = .next t → exec i s.withoutFailedBytes = .next t.withoutFailedBytes

/-- R33, R102, R182: the edge memories and the enable show only in which notifications are emitted, and a notification changes
nothing else: from two states that differ in them alone a command issues the same requests and leaves the same state but for
them and the notifications. -/
def Obligations.NotificationsChangeNothingElse : Prop :=
  ∀ i (s : State) a b c t, exec i s = .next t →
    ∃ u, exec i { s with sdSeen := a, rstSeen := b, cbEn := c } = .next u ∧
      u = { t with sdSeen := u.sdSeen, rstSeen := u.rstSeen, cbEn := u.cbEn, trace := u.trace } ∧
      (newEvents s u).filter Event.isRequest = (newEvents s t).filter Event.isRequest

/-! ### Frames -/

/-- R109, R112, R115, R121, R122: what the sending commands leave unchanged: all but RES.OK, CAUSE, the edge memories and the
downstream port. -/
def Obligations.SendingCommandsFrame : Prop :=
  ∀ i s t, (∃ b v len, i ∈ [Instr.wrbit b, .wrbyte v, .wrbytes len, .skip, .select]) → exec i s = .next t →
    keepsCfg s t ∧ keepsSearch s t ∧ keepsHostSide s t ∧ t.resBit = s.resBit ∧ t.data = s.data ∧ keepsBufFrom 0 s t

/-- R110, R114, R116: the receiving commands. RDBIT writes RES.BIT besides, RDBYTE DATA, RDBYTES `BUF[0..len-1]`, and the
first two only on success. -/
def Obligations.ReceivingCommandsFrame : Prop :=
  ∀ s t,
    (exec .rdbit s = .next t →
      keepsCfg s t ∧ keepsSearch s t ∧ keepsHostSide s t ∧ t.data = s.data ∧ keepsBufFrom 0 s t ∧
      (t.resOk = false → t.resBit = s.resBit)) ∧
    (exec .rdbyte s = .next t →
      keepsCfg s t ∧ keepsSearch s t ∧ keepsHostSide s t ∧ t.resBit = s.resBit ∧ keepsBufFrom 0 s t ∧
      (t.resOk = false → t.data = s.data)) ∧
    (∀ len : Byte, exec (.rdbytes len) s = .next t →
      keepsCfg s t ∧ keepsSearch s t ∧ keepsHostSide s t ∧ t.resBit = s.resBit ∧ t.data = s.data ∧
      keepsBufFrom len.toNat s t)

/-- R107, R130: RESET writes CFG.SPU besides RES.OK, CAUSE, the edge memories and the downstream port; SEARCH also the search
state and `BUF[0..7]`. -/
def Obligations.ResettingCommandsFrame : Prop :=
  ∀ s t,
    (exec .reset s = .next t →
      t.apu = s.apu ∧ t.od = s.od ∧ keepsSearch s t ∧ keepsHostSide s t ∧ t.resBit = s.resBit ∧ t.data = s.data ∧
      keepsBufFrom 0 s t) ∧
    (exec .search s = .next t →
      t.apu = s.apu ∧ t.od = s.od ∧ keepsHostSide s t ∧ t.resBit = s.resBit ∧ t.data = s.data ∧ keepsBufFrom 8 s t)

/-- R31: RES.OK and CAUSE are written at the end of a command and at no other time, together; RES.BIT only by an RDBIT that
succeeds, DATA only by an RDBYTE or a CRC8 that succeeds. -/
def Obligations.ResultRegistersAreWrittenOnlyAsStated : Prop :=
  ∀ s t, step s = .next t →
    ((∀ w rest, s.host ≠ .writeReg 0 w :: rest) →
      t.resOk = s.resOk ∧ t.cause = s.cause ∧ t.resBit = s.resBit ∧ t.data = s.data) ∧
    (∀ w rest, s.host = .writeReg 0 w :: rest →
      (t.resOk = true ↔ t.cause = causeNone) ∧
      (t.resBit = s.resBit ∨ (decode w = .ok .rdbit ∧ t.resOk = true)) ∧
      (t.data = s.data ∨ ((decode w = .ok .rdbyte ∨ ∃ len, decode w = .ok (.crc8 len)) ∧ t.resOk = true)))

/-- R139: no command but SEARCH and RSTSRCH reads or writes the search state: it is kept, and with any other search state the
command does the same. -/
def Obligations.SearchStateIsTheSearchEnginesOwn : Prop :=
  ∀ i s t, i ≠ .search → i ≠ .rstsrch → exec i s = .next t →
    keepsSearch s t ∧
    ∀ rom ld ldf, exec i { s with rom := rom, ld := ld, ldf := ldf } =
      .next { t with rom := rom, ld := ld, ldf := ldf }

/-- R209: RSTSRCH, ATTACH, CRC8, VERIFY, RDBYTES 0, WRBYTES 0 and a SEARCH in the terminal state issue nothing, notify nothing
and leave the edge memories. -/
def Obligations.QuietCommandsTouchNoPort : Prop :=
  ∀ i s t, exec i s = .next t →
    ((∃ b len, i ∈ [Instr.rstsrch, .attach b, .crc8 len, .verify len, .rdbytes 0, .wrbytes 0]) ∨
      (i = .search ∧ s.ldf = true)) →
    keepsPort s t ∧ keepsEdges s t

/-! ### Several blocks -/

/-- R190: when one block of a list steps, it takes its own step and every other block stays as it is. -/
def Obligations.BlocksShareNothing : Prop :=
  ∀ k (blocks : List State), ∃ blocks', stepBlock k blocks = .next blocks' ∧ blocks'.length = blocks.length ∧
    (∀ j, j ≠ k → blocks'[j]? = blocks[j]?) ∧
    (∀ s, blocks[k]? = some s → ∃ t, step s = .next t ∧ blocks'[k]? = some t)

/-! ### Failing polls -/

/-- R100, R101, R104, R113: how WRBIT, RDBIT, WRBYTE, RDBYTE and SKIP fail: a denied primitive or status read ends each with
TRANSPORT, POLL_MAX busy reads with BUSY_TIMEOUT (and the P_DRST of TIMEOUT_DRST), and a denied data read ends RDBYTE with
TRANSPORT; the exact next state of each. -/
def Obligations.FailedRequestEndsTheCommand : Prop :=
  (∀ (s : State) i p b v (f : PollFailure),
    (i, p) ∈ [(Instr.wrbit b, Prim.wsb b), (.rdbit, .wsb true), (.wrbyte v, .wwb v), (.rdbyte, .wrb),
      (.skip, .wwb s.params.cmdSkipRom)] →
    s.Answers f.answers → f.good s.params.pollMax = true →
    exec i s = .next
      { s.consumed (f.answers.length + (f.recovery s f.answers.length).length) with
        sdSeen := flagAfter statusSD s.sdSeen f.busy, rstSeen := flagAfter statusRST s.rstSeen f.busy,
        trace := s.trace ++ f.events s.cbEn s.sdSeen s.rstSeen p ++ f.recovery s f.answers.length,
        resOk := false, cause := f.cause.code }) ∧
  (∀ (s : State) (x : Exchange) z, s.Answers (x.answers ++ [⟨false, z⟩]) → x.good s.params.pollMax = true →
    exec .rdbyte s = .next
      { s.consumed (x.answers.length + 1) with
        sdSeen := statusSD x.poll.idle, rstSeen := statusRST x.poll.idle,
        trace := s.trace ++ exchangeEvents s.cbEn s.sdSeen s.rstSeen [(.wrb, x)] ++ [.data none],
        resOk := false, cause := 1 })

/-! ### The transport level -/

/-- R81, R82, R84, R85: the default rendering of the trace as transport operations. A primitive is one write of the bytes of
R84's table, with its success. `ReadStatus()` and `ReadData()` are a pointer set and a read of one byte; one that failed failed
in either part: the pointer set (no read is then made, log 9), or the read after a pointer set that succeeded. A request is
answered `ok` exactly when all its operations succeed; a notification is no operation. The trace is rendered event by event, and
which part of a failed read failed is free for each. The numbers are the spec's defaults from general knowledge (log 9). -/
def Obligations.RequestsRenderAsTransportOperations : Prop :=
  (∀ a part p ok, eventOps a part (.prim p ok) = [.write a (primBytes p) ok]) ∧
  (primBytes .drst = [0xF0] ∧ (∀ ptr, primBytes (.srp ptr) = [0xE1, ptr]) ∧ primBytes .wrs = [0xB4] ∧
    (∀ b, primBytes (.wsb b) = [0x87, if b then 0x80 else 0]) ∧ (∀ v, primBytes (.wwb v) = [0xA5, v]) ∧
    primBytes .wrb = [0x96] ∧ (∀ d, primBytes (.wt d) = [0x78, if d then 0x80 else 0]) ∧
    (∀ apu spu od, ∃ c : Byte, primBytes (.wcfg apu spu od) = [0xD2, c] ∧
      ∀ j, j < 4 → c.getLsbD j = (if j = 0 then apu else if j = 2 then spu else if j = 3 then od else false) ∧
        c.getLsbD (j + 4) = !c.getLsbD j)) ∧
  (∀ a part v, eventOps a part (.status (some v)) = [.write a [0xE1, 0xF0] true, .read a 1 (some v)] ∧
    eventOps a part (.data (some v)) = [.write a [0xE1, 0xE1] true, .read a 1 (some v)]) ∧
  (∀ a, eventOps a .pointerSet (.status none) = [.write a [0xE1, 0xF0] false] ∧
    eventOps a .pointerSet (.data none) = [.write a [0xE1, 0xE1] false] ∧
    eventOps a .read (.status none) = [.write a [0xE1, 0xF0] true, .read a 1 none] ∧
    eventOps a .read (.data none) = [.write a [0xE1, 0xE1] true, .read a 1 none]) ∧
  (∀ a part k, eventOps a part (.notify k) = []) ∧
  (∀ a part e, e.isRequest = true → (eventOps a part e).all TransportOp.succeeded = e.answeredOk) ∧
  (∀ (s t : State) e parts, t.params = s.params → t.trace = s.trace ++ [e] →
    t.transportTrace parts = s.transportTrace parts ++ eventOps s.params.devAddr (parts s.trace.length) e)
end

