-- ==== Sys2Proof/Laws/State.lean ====
section
/-! SUPPORT. For each named update of the state, what each field is after it. -/

namespace Sys2Proof.Machine

variable (s : State)

/-! `State.emit` -/

@[simp] theorem State.emit_apu (e : Event) : (s.emit e).apu = s.apu := rfl
@[simp] theorem State.emit_spu (e : Event) : (s.emit e).spu = s.spu := rfl
@[simp] theorem State.emit_od (e : Event) : (s.emit e).od = s.od := rfl
@[simp] theorem State.emit_cbEn (e : Event) : (s.emit e).cbEn = s.cbEn := rfl
@[simp] theorem State.emit_sdSeen (e : Event) : (s.emit e).sdSeen = s.sdSeen := rfl
@[simp] theorem State.emit_rstSeen (e : Event) : (s.emit e).rstSeen = s.rstSeen := rfl
@[simp] theorem State.emit_rom (e : Event) : (s.emit e).rom = s.rom := rfl
@[simp] theorem State.emit_ld (e : Event) : (s.emit e).ld = s.ld := rfl
@[simp] theorem State.emit_ldf (e : Event) : (s.emit e).ldf = s.ldf := rfl
@[simp] theorem State.emit_resOk (e : Event) : (s.emit e).resOk = s.resOk := rfl
@[simp] theorem State.emit_resBit (e : Event) : (s.emit e).resBit = s.resBit := rfl
@[simp] theorem State.emit_cause (e : Event) : (s.emit e).cause = s.cause := rfl
@[simp] theorem State.emit_data (e : Event) : (s.emit e).data = s.data := rfl
@[simp] theorem State.emit_buf (e : Event) : (s.emit e).buf = s.buf := rfl
@[simp] theorem State.emit_params (e : Event) : (s.emit e).params = s.params := rfl
@[simp] theorem State.emit_answers (e : Event) : (s.emit e).answers = s.answers := rfl
@[simp] theorem State.emit_freeCount (e : Event) : (s.emit e).freeCount = s.freeCount := rfl
@[simp] theorem State.emit_trace (e : Event) : (s.emit e).trace = s.trace ++ [e] := rfl
@[simp] theorem State.emit_host (e : Event) : (s.emit e).host = s.host := rfl
@[simp] theorem State.emit_hostOut (e : Event) : (s.emit e).hostOut = s.hostOut := rfl

/-! `State.setSpu` -/

@[simp] theorem State.setSpu_apu (b : Bool) : (s.setSpu b).apu = s.apu := rfl
@[simp] theorem State.setSpu_spu (b : Bool) : (s.setSpu b).spu = b := rfl
@[simp] theorem State.setSpu_od (b : Bool) : (s.setSpu b).od = s.od := rfl
@[simp] theorem State.setSpu_cbEn (b : Bool) : (s.setSpu b).cbEn = s.cbEn := rfl
@[simp] theorem State.setSpu_sdSeen (b : Bool) : (s.setSpu b).sdSeen = s.sdSeen := rfl
@[simp] theorem State.setSpu_rstSeen (b : Bool) : (s.setSpu b).rstSeen = s.rstSeen := rfl
@[simp] theorem State.setSpu_rom (b : Bool) : (s.setSpu b).rom = s.rom := rfl
@[simp] theorem State.setSpu_ld (b : Bool) : (s.setSpu b).ld = s.ld := rfl
@[simp] theorem State.setSpu_ldf (b : Bool) : (s.setSpu b).ldf = s.ldf := rfl
@[simp] theorem State.setSpu_resOk (b : Bool) : (s.setSpu b).resOk = s.resOk := rfl
@[simp] theorem State.setSpu_resBit (b : Bool) : (s.setSpu b).resBit = s.resBit := rfl
@[simp] theorem State.setSpu_cause (b : Bool) : (s.setSpu b).cause = s.cause := rfl
@[simp] theorem State.setSpu_data (b : Bool) : (s.setSpu b).data = s.data := rfl
@[simp] theorem State.setSpu_buf (b : Bool) : (s.setSpu b).buf = s.buf := rfl
@[simp] theorem State.setSpu_params (b : Bool) : (s.setSpu b).params = s.params := rfl
@[simp] theorem State.setSpu_answers (b : Bool) : (s.setSpu b).answers = s.answers := rfl
@[simp] theorem State.setSpu_freeCount (b : Bool) : (s.setSpu b).freeCount = s.freeCount := rfl
@[simp] theorem State.setSpu_trace (b : Bool) : (s.setSpu b).trace = s.trace := rfl
@[simp] theorem State.setSpu_host (b : Bool) : (s.setSpu b).host = s.host := rfl
@[simp] theorem State.setSpu_hostOut (b : Bool) : (s.setSpu b).hostOut = s.hostOut := rfl

/-! `State.setCfg` -/

@[simp] theorem State.setCfg_apu (a b c : Bool) : (s.setCfg a b c).apu = a := rfl
@[simp] theorem State.setCfg_spu (a b c : Bool) : (s.setCfg a b c).spu = b := rfl
@[simp] theorem State.setCfg_od (a b c : Bool) : (s.setCfg a b c).od = c := rfl
@[simp] theorem State.setCfg_cbEn (a b c : Bool) : (s.setCfg a b c).cbEn = s.cbEn := rfl
@[simp] theorem State.setCfg_sdSeen (a b c : Bool) : (s.setCfg a b c).sdSeen = s.sdSeen := rfl
@[simp] theorem State.setCfg_rstSeen (a b c : Bool) : (s.setCfg a b c).rstSeen = s.rstSeen := rfl
@[simp] theorem State.setCfg_rom (a b c : Bool) : (s.setCfg a b c).rom = s.rom := rfl
@[simp] theorem State.setCfg_ld (a b c : Bool) : (s.setCfg a b c).ld = s.ld := rfl
@[simp] theorem State.setCfg_ldf (a b c : Bool) : (s.setCfg a b c).ldf = s.ldf := rfl
@[simp] theorem State.setCfg_resOk (a b c : Bool) : (s.setCfg a b c).resOk = s.resOk := rfl
@[simp] theorem State.setCfg_resBit (a b c : Bool) : (s.setCfg a b c).resBit = s.resBit := rfl
@[simp] theorem State.setCfg_cause (a b c : Bool) : (s.setCfg a b c).cause = s.cause := rfl
@[simp] theorem State.setCfg_data (a b c : Bool) : (s.setCfg a b c).data = s.data := rfl
@[simp] theorem State.setCfg_buf (a b c : Bool) : (s.setCfg a b c).buf = s.buf := rfl
@[simp] theorem State.setCfg_params (a b c : Bool) : (s.setCfg a b c).params = s.params := rfl
@[simp] theorem State.setCfg_answers (a b c : Bool) : (s.setCfg a b c).answers = s.answers := rfl
@[simp] theorem State.setCfg_freeCount (a b c : Bool) : (s.setCfg a b c).freeCount = s.freeCount := rfl
@[simp] theorem State.setCfg_trace (a b c : Bool) : (s.setCfg a b c).trace = s.trace := rfl
@[simp] theorem State.setCfg_host (a b c : Bool) : (s.setCfg a b c).host = s.host := rfl
@[simp] theorem State.setCfg_hostOut (a b c : Bool) : (s.setCfg a b c).hostOut = s.hostOut := rfl

/-! `State.setCbEn` -/

@[simp] theorem State.setCbEn_apu (b : Bool) : (s.setCbEn b).apu = s.apu := rfl
@[simp] theorem State.setCbEn_spu (b : Bool) : (s.setCbEn b).spu = s.spu := rfl
@[simp] theorem State.setCbEn_od (b : Bool) : (s.setCbEn b).od = s.od := rfl
@[simp] theorem State.setCbEn_cbEn (b : Bool) : (s.setCbEn b).cbEn = b := rfl
@[simp] theorem State.setCbEn_sdSeen (b : Bool) : (s.setCbEn b).sdSeen = s.sdSeen := rfl
@[simp] theorem State.setCbEn_rstSeen (b : Bool) : (s.setCbEn b).rstSeen = s.rstSeen := rfl
@[simp] theorem State.setCbEn_rom (b : Bool) : (s.setCbEn b).rom = s.rom := rfl
@[simp] theorem State.setCbEn_ld (b : Bool) : (s.setCbEn b).ld = s.ld := rfl
@[simp] theorem State.setCbEn_ldf (b : Bool) : (s.setCbEn b).ldf = s.ldf := rfl
@[simp] theorem State.setCbEn_resOk (b : Bool) : (s.setCbEn b).resOk = s.resOk := rfl
@[simp] theorem State.setCbEn_resBit (b : Bool) : (s.setCbEn b).resBit = s.resBit := rfl
@[simp] theorem State.setCbEn_cause (b : Bool) : (s.setCbEn b).cause = s.cause := rfl
@[simp] theorem State.setCbEn_data (b : Bool) : (s.setCbEn b).data = s.data := rfl
@[simp] theorem State.setCbEn_buf (b : Bool) : (s.setCbEn b).buf = s.buf := rfl
@[simp] theorem State.setCbEn_params (b : Bool) : (s.setCbEn b).params = s.params := rfl
@[simp] theorem State.setCbEn_answers (b : Bool) : (s.setCbEn b).answers = s.answers := rfl
@[simp] theorem State.setCbEn_freeCount (b : Bool) : (s.setCbEn b).freeCount = s.freeCount := rfl
@[simp] theorem State.setCbEn_trace (b : Bool) : (s.setCbEn b).trace = s.trace := rfl
@[simp] theorem State.setCbEn_host (b : Bool) : (s.setCbEn b).host = s.host := rfl
@[simp] theorem State.setCbEn_hostOut (b : Bool) : (s.setCbEn b).hostOut = s.hostOut := rfl

/-! `State.setSdSeen` -/

@[simp] theorem State.setSdSeen_apu (b : Bool) : (s.setSdSeen b).apu = s.apu := rfl
@[simp] theorem State.setSdSeen_spu (b : Bool) : (s.setSdSeen b).spu = s.spu := rfl
@[simp] theorem State.setSdSeen_od (b : Bool) : (s.setSdSeen b).od = s.od := rfl
@[simp] theorem State.setSdSeen_cbEn (b : Bool) : (s.setSdSeen b).cbEn = s.cbEn := rfl
@[simp] theorem State.setSdSeen_sdSeen (b : Bool) : (s.setSdSeen b).sdSeen = b := rfl
@[simp] theorem State.setSdSeen_rstSeen (b : Bool) : (s.setSdSeen b).rstSeen = s.rstSeen := rfl
@[simp] theorem State.setSdSeen_rom (b : Bool) : (s.setSdSeen b).rom = s.rom := rfl
@[simp] theorem State.setSdSeen_ld (b : Bool) : (s.setSdSeen b).ld = s.ld := rfl
@[simp] theorem State.setSdSeen_ldf (b : Bool) : (s.setSdSeen b).ldf = s.ldf := rfl
@[simp] theorem State.setSdSeen_resOk (b : Bool) : (s.setSdSeen b).resOk = s.resOk := rfl
@[simp] theorem State.setSdSeen_resBit (b : Bool) : (s.setSdSeen b).resBit = s.resBit := rfl
@[simp] theorem State.setSdSeen_cause (b : Bool) : (s.setSdSeen b).cause = s.cause := rfl
@[simp] theorem State.setSdSeen_data (b : Bool) : (s.setSdSeen b).data = s.data := rfl
@[simp] theorem State.setSdSeen_buf (b : Bool) : (s.setSdSeen b).buf = s.buf := rfl
@[simp] theorem State.setSdSeen_params (b : Bool) : (s.setSdSeen b).params = s.params := rfl
@[simp] theorem State.setSdSeen_answers (b : Bool) : (s.setSdSeen b).answers = s.answers := rfl
@[simp] theorem State.setSdSeen_freeCount (b : Bool) : (s.setSdSeen b).freeCount = s.freeCount := rfl
@[simp] theorem State.setSdSeen_trace (b : Bool) : (s.setSdSeen b).trace = s.trace := rfl
@[simp] theorem State.setSdSeen_host (b : Bool) : (s.setSdSeen b).host = s.host := rfl
@[simp] theorem State.setSdSeen_hostOut (b : Bool) : (s.setSdSeen b).hostOut = s.hostOut := rfl

/-! `State.setRstSeen` -/

@[simp] theorem State.setRstSeen_apu (b : Bool) : (s.setRstSeen b).apu = s.apu := rfl
@[simp] theorem State.setRstSeen_spu (b : Bool) : (s.setRstSeen b).spu = s.spu := rfl
@[simp] theorem State.setRstSeen_od (b : Bool) : (s.setRstSeen b).od = s.od := rfl
@[simp] theorem State.setRstSeen_cbEn (b : Bool) : (s.setRstSeen b).cbEn = s.cbEn := rfl
@[simp] theorem State.setRstSeen_sdSeen (b : Bool) : (s.setRstSeen b).sdSeen = s.sdSeen := rfl
@[simp] theorem State.setRstSeen_rstSeen (b : Bool) : (s.setRstSeen b).rstSeen = b := rfl
@[simp] theorem State.setRstSeen_rom (b : Bool) : (s.setRstSeen b).rom = s.rom := rfl
@[simp] theorem State.setRstSeen_ld (b : Bool) : (s.setRstSeen b).ld = s.ld := rfl
@[simp] theorem State.setRstSeen_ldf (b : Bool) : (s.setRstSeen b).ldf = s.ldf := rfl
@[simp] theorem State.setRstSeen_resOk (b : Bool) : (s.setRstSeen b).resOk = s.resOk := rfl
@[simp] theorem State.setRstSeen_resBit (b : Bool) : (s.setRstSeen b).resBit = s.resBit := rfl
@[simp] theorem State.setRstSeen_cause (b : Bool) : (s.setRstSeen b).cause = s.cause := rfl
@[simp] theorem State.setRstSeen_data (b : Bool) : (s.setRstSeen b).data = s.data := rfl
@[simp] theorem State.setRstSeen_buf (b : Bool) : (s.setRstSeen b).buf = s.buf := rfl
@[simp] theorem State.setRstSeen_params (b : Bool) : (s.setRstSeen b).params = s.params := rfl
@[simp] theorem State.setRstSeen_answers (b : Bool) : (s.setRstSeen b).answers = s.answers := rfl
@[simp] theorem State.setRstSeen_freeCount (b : Bool) : (s.setRstSeen b).freeCount = s.freeCount := rfl
@[simp] theorem State.setRstSeen_trace (b : Bool) : (s.setRstSeen b).trace = s.trace := rfl
@[simp] theorem State.setRstSeen_host (b : Bool) : (s.setRstSeen b).host = s.host := rfl
@[simp] theorem State.setRstSeen_hostOut (b : Bool) : (s.setRstSeen b).hostOut = s.hostOut := rfl

/-! `State.setRomBit` -/

@[simp] theorem State.setRomBit_apu (i : Nat) (b : Bool) : (s.setRomBit i b).apu = s.apu := rfl
@[simp] theorem State.setRomBit_spu (i : Nat) (b : Bool) : (s.setRomBit i b).spu = s.spu := rfl
@[simp] theorem State.setRomBit_od (i : Nat) (b : Bool) : (s.setRomBit i b).od = s.od := rfl
@[simp] theorem State.setRomBit_cbEn (i : Nat) (b : Bool) : (s.setRomBit i b).cbEn = s.cbEn := rfl
@[simp] theorem State.setRomBit_sdSeen (i : Nat) (b : Bool) : (s.setRomBit i b).sdSeen = s.sdSeen := rfl
@[simp] theorem State.setRomBit_rstSeen (i : Nat) (b : Bool) : (s.setRomBit i b).rstSeen = s.rstSeen := rfl
@[simp] theorem State.setRomBit_rom (i : Nat) (b : Bool) : (s.setRomBit i b).rom = withRomBit s.rom i b := rfl
@[simp] theorem State.setRomBit_ld (i : Nat) (b : Bool) : (s.setRomBit i b).ld = s.ld := rfl
@[simp] theorem State.setRomBit_ldf (i : Nat) (b : Bool) : (s.setRomBit i b).ldf = s.ldf := rfl
@[simp] theorem State.setRomBit_resOk (i : Nat) (b : Bool) : (s.setRomBit i b).resOk = s.resOk := rfl
@[simp] theorem State.setRomBit_resBit (i : Nat) (b : Bool) : (s.setRomBit i b).resBit = s.resBit := rfl
@[simp] theorem State.setRomBit_cause (i : Nat) (b : Bool) : (s.setRomBit i b).cause = s.cause := rfl
@[simp] theorem State.setRomBit_data (i : Nat) (b : Bool) : (s.setRomBit i b).data = s.data := rfl
@[simp] theorem State.setRomBit_buf (i : Nat) (b : Bool) : (s.setRomBit i b).buf = s.buf := rfl
@[simp] theorem State.setRomBit_params (i : Nat) (b : Bool) : (s.setRomBit i b).params = s.params := rfl
@[simp] theorem State.setRomBit_answers (i : Nat) (b : Bool) : (s.setRomBit i b).answers = s.answers := rfl
@[simp] theorem State.setRomBit_freeCount (i : Nat) (b : Bool) : (s.setRomBit i b).freeCount = s.freeCount := rfl
@[simp] theorem State.setRomBit_trace (i : Nat) (b : Bool) : (s.setRomBit i b).trace = s.trace := rfl
@[simp] theorem State.setRomBit_host (i : Nat) (b : Bool) : (s.setRomBit i b).host = s.host := rfl
@[simp] theorem State.setRomBit_hostOut (i : Nat) (b : Bool) : (s.setRomBit i b).hostOut = s.hostOut := rfl

/-! `State.setProgress` -/

@[simp] theorem State.setProgress_apu (l : BitVec 7) (b : Bool) : (s.setProgress l b).apu = s.apu := rfl
@[simp] theorem State.setProgress_spu (l : BitVec 7) (b : Bool) : (s.setProgress l b).spu = s.spu := rfl
@[simp] theorem State.setProgress_od (l : BitVec 7) (b : Bool) : (s.setProgress l b).od = s.od := rfl
@[simp] theorem State.setProgress_cbEn (l : BitVec 7) (b : Bool) : (s.setProgress l b).cbEn = s.cbEn := rfl
@[simp] theorem State.setProgress_sdSeen (l : BitVec 7) (b : Bool) : (s.setProgress l b).sdSeen = s.sdSeen := rfl
@[simp] theorem State.setProgress_rstSeen (l : BitVec 7) (b : Bool) : (s.setProgress l b).rstSeen = s.rstSeen := rfl
@[simp] theorem State.setProgress_rom (l : BitVec 7) (b : Bool) : (s.setProgress l b).rom = s.rom := rfl
@[simp] theorem State.setProgress_ld (l : BitVec 7) (b : Bool) : (s.setProgress l b).ld = l := rfl
@[simp] theorem State.setProgress_ldf (l : BitVec 7) (b : Bool) : (s.setProgress l b).ldf = b := rfl
@[simp] theorem State.setProgress_resOk (l : BitVec 7) (b : Bool) : (s.setProgress l b).resOk = s.resOk := rfl
@[simp] theorem State.setProgress_resBit (l : BitVec 7) (b : Bool) : (s.setProgress l b).resBit = s.resBit := rfl
@[simp] theorem State.setProgress_cause (l : BitVec 7) (b : Bool) : (s.setProgress l b).cause = s.cause := rfl
@[simp] theorem State.setProgress_data (l : BitVec 7) (b : Bool) : (s.setProgress l b).data = s.data := rfl
@[simp] theorem State.setProgress_buf (l : BitVec 7) (b : Bool) : (s.setProgress l b).buf = s.buf := rfl
@[simp] theorem State.setProgress_params (l : BitVec 7) (b : Bool) : (s.setProgress l b).params = s.params := rfl
@[simp] theorem State.setProgress_answers (l : BitVec 7) (b : Bool) : (s.setProgress l b).answers = s.answers := rfl
@[simp] theorem State.setProgress_freeCount (l : BitVec 7) (b : Bool) : (s.setProgress l b).freeCount = s.freeCount := rfl
@[simp] theorem State.setProgress_trace (l : BitVec 7) (b : Bool) : (s.setProgress l b).trace = s.trace := rfl
@[simp] theorem State.setProgress_host (l : BitVec 7) (b : Bool) : (s.setProgress l b).host = s.host := rfl
@[simp] theorem State.setProgress_hostOut (l : BitVec 7) (b : Bool) : (s.setProgress l b).hostOut = s.hostOut := rfl

/-! `State.resetSearch` -/

@[simp] theorem State.resetSearch_apu : (s.resetSearch).apu = s.apu := rfl
@[simp] theorem State.resetSearch_spu : (s.resetSearch).spu = s.spu := rfl
@[simp] theorem State.resetSearch_od : (s.resetSearch).od = s.od := rfl
@[simp] theorem State.resetSearch_cbEn : (s.resetSearch).cbEn = s.cbEn := rfl
@[simp] theorem State.resetSearch_sdSeen : (s.resetSearch).sdSeen = s.sdSeen := rfl
@[simp] theorem State.resetSearch_rstSeen : (s.resetSearch).rstSeen = s.rstSeen := rfl
@[simp] theorem State.resetSearch_rom : (s.resetSearch).rom = Vector.replicate 8 0 := rfl
@[simp] theorem State.resetSearch_ld : (s.resetSearch).ld = 0 := rfl
@[simp] theorem State.resetSearch_ldf : (s.resetSearch).ldf = false := rfl
@[simp] theorem State.resetSearch_resOk : (s.resetSearch).resOk = s.resOk := rfl
@[simp] theorem State.resetSearch_resBit : (s.resetSearch).resBit = s.resBit := rfl
@[simp] theorem State.resetSearch_cause : (s.resetSearch).cause = s.cause := rfl
@[simp] theorem State.resetSearch_data : (s.resetSearch).data = s.data := rfl
@[simp] theorem State.resetSearch_buf : (s.resetSearch).buf = s.buf := rfl
@[simp] theorem State.resetSearch_params : (s.resetSearch).params = s.params := rfl
@[simp] theorem State.resetSearch_answers : (s.resetSearch).answers = s.answers := rfl
@[simp] theorem State.resetSearch_freeCount : (s.resetSearch).freeCount = s.freeCount := rfl
@[simp] theorem State.resetSearch_trace : (s.resetSearch).trace = s.trace := rfl
@[simp] theorem State.resetSearch_host : (s.resetSearch).host = s.host := rfl
@[simp] theorem State.resetSearch_hostOut : (s.resetSearch).hostOut = s.hostOut := rfl

/-! `State.setResult` -/

@[simp] theorem State.setResult_apu (b : Bool) (c : BitVec 4) : (s.setResult b c).apu = s.apu := rfl
@[simp] theorem State.setResult_spu (b : Bool) (c : BitVec 4) : (s.setResult b c).spu = s.spu := rfl
@[simp] theorem State.setResult_od (b : Bool) (c : BitVec 4) : (s.setResult b c).od = s.od := rfl
@[simp] theorem State.setResult_cbEn (b : Bool) (c : BitVec 4) : (s.setResult b c).cbEn = s.cbEn := rfl
@[simp] theorem State.setResult_sdSeen (b : Bool) (c : BitVec 4) : (s.setResult b c).sdSeen = s.sdSeen := rfl
@[simp] theorem State.setResult_rstSeen (b : Bool) (c : BitVec 4) : (s.setResult b c).rstSeen = s.rstSeen := rfl
@[simp] theorem State.setResult_rom (b : Bool) (c : BitVec 4) : (s.setResult b c).rom = s.rom := rfl
@[simp] theorem State.setResult_ld (b : Bool) (c : BitVec 4) : (s.setResult b c).ld = s.ld := rfl
@[simp] theorem State.setResult_ldf (b : Bool) (c : BitVec 4) : (s.setResult b c).ldf = s.ldf := rfl
@[simp] theorem State.setResult_resOk (b : Bool) (c : BitVec 4) : (s.setResult b c).resOk = b := rfl
@[simp] theorem State.setResult_resBit (b : Bool) (c : BitVec 4) : (s.setResult b c).resBit = s.resBit := rfl
@[simp] theorem State.setResult_cause (b : Bool) (c : BitVec 4) : (s.setResult b c).cause = c := rfl
@[simp] theorem State.setResult_data (b : Bool) (c : BitVec 4) : (s.setResult b c).data = s.data := rfl
@[simp] theorem State.setResult_buf (b : Bool) (c : BitVec 4) : (s.setResult b c).buf = s.buf := rfl
@[simp] theorem State.setResult_params (b : Bool) (c : BitVec 4) : (s.setResult b c).params = s.params := rfl
@[simp] theorem State.setResult_answers (b : Bool) (c : BitVec 4) : (s.setResult b c).answers = s.answers := rfl
@[simp] theorem State.setResult_freeCount (b : Bool) (c : BitVec 4) : (s.setResult b c).freeCount = s.freeCount := rfl
@[simp] theorem State.setResult_trace (b : Bool) (c : BitVec 4) : (s.setResult b c).trace = s.trace := rfl
@[simp] theorem State.setResult_host (b : Bool) (c : BitVec 4) : (s.setResult b c).host = s.host := rfl
@[simp] theorem State.setResult_hostOut (b : Bool) (c : BitVec 4) : (s.setResult b c).hostOut = s.hostOut := rfl

/-! `State.setResBit` -/

@[simp] theorem State.setResBit_apu (b : Bool) : (s.setResBit b).apu = s.apu := rfl
@[simp] theorem State.setResBit_spu (b : Bool) : (s.setResBit b).spu = s.spu := rfl
@[simp] theorem State.setResBit_od (b : Bool) : (s.setResBit b).od = s.od := rfl
@[simp] theorem State.setResBit_cbEn (b : Bool) : (s.setResBit b).cbEn = s.cbEn := rfl
@[simp] theorem State.setResBit_sdSeen (b : Bool) : (s.setResBit b).sdSeen = s.sdSeen := rfl
@[simp] theorem State.setResBit_rstSeen (b : Bool) : (s.setResBit b).rstSeen = s.rstSeen := rfl
@[simp] theorem State.setResBit_rom (b : Bool) : (s.setResBit b).rom = s.rom := rfl
@[simp] theorem State.setResBit_ld (b : Bool) : (s.setResBit b).ld = s.ld := rfl
@[simp] theorem State.setResBit_ldf (b : Bool) : (s.setResBit b).ldf = s.ldf := rfl
@[simp] theorem State.setResBit_resOk (b : Bool) : (s.setResBit b).resOk = s.resOk := rfl
@[simp] theorem State.setResBit_resBit (b : Bool) : (s.setResBit b).resBit = b := rfl
@[simp] theorem State.setResBit_cause (b : Bool) : (s.setResBit b).cause = s.cause := rfl
@[simp] theorem State.setResBit_data (b : Bool) : (s.setResBit b).data = s.data := rfl
@[simp] theorem State.setResBit_buf (b : Bool) : (s.setResBit b).buf = s.buf := rfl
@[simp] theorem State.setResBit_params (b : Bool) : (s.setResBit b).params = s.params := rfl
@[simp] theorem State.setResBit_answers (b : Bool) : (s.setResBit b).answers = s.answers := rfl
@[simp] theorem State.setResBit_freeCount (b : Bool) : (s.setResBit b).freeCount = s.freeCount := rfl
@[simp] theorem State.setResBit_trace (b : Bool) : (s.setResBit b).trace = s.trace := rfl
@[simp] theorem State.setResBit_host (b : Bool) : (s.setResBit b).host = s.host := rfl
@[simp] theorem State.setResBit_hostOut (b : Bool) : (s.setResBit b).hostOut = s.hostOut := rfl

/-! `State.setData` -/

@[simp] theorem State.setData_apu (v : Byte) : (s.setData v).apu = s.apu := rfl
@[simp] theorem State.setData_spu (v : Byte) : (s.setData v).spu = s.spu := rfl
@[simp] theorem State.setData_od (v : Byte) : (s.setData v).od = s.od := rfl
@[simp] theorem State.setData_cbEn (v : Byte) : (s.setData v).cbEn = s.cbEn := rfl
@[simp] theorem State.setData_sdSeen (v : Byte) : (s.setData v).sdSeen = s.sdSeen := rfl
@[simp] theorem State.setData_rstSeen (v : Byte) : (s.setData v).rstSeen = s.rstSeen := rfl
@[simp] theorem State.setData_rom (v : Byte) : (s.setData v).rom = s.rom := rfl
@[simp] theorem State.setData_ld (v : Byte) : (s.setData v).ld = s.ld := rfl
@[simp] theorem State.setData_ldf (v : Byte) : (s.setData v).ldf = s.ldf := rfl
@[simp] theorem State.setData_resOk (v : Byte) : (s.setData v).resOk = s.resOk := rfl
@[simp] theorem State.setData_resBit (v : Byte) : (s.setData v).resBit = s.resBit := rfl
@[simp] theorem State.setData_cause (v : Byte) : (s.setData v).cause = s.cause := rfl
@[simp] theorem State.setData_data (v : Byte) : (s.setData v).data = v := rfl
@[simp] theorem State.setData_buf (v : Byte) : (s.setData v).buf = s.buf := rfl
@[simp] theorem State.setData_params (v : Byte) : (s.setData v).params = s.params := rfl
@[simp] theorem State.setData_answers (v : Byte) : (s.setData v).answers = s.answers := rfl
@[simp] theorem State.setData_freeCount (v : Byte) : (s.setData v).freeCount = s.freeCount := rfl
@[simp] theorem State.setData_trace (v : Byte) : (s.setData v).trace = s.trace := rfl
@[simp] theorem State.setData_host (v : Byte) : (s.setData v).host = s.host := rfl
@[simp] theorem State.setData_hostOut (v : Byte) : (s.setData v).hostOut = s.hostOut := rfl

/-! `State.writeBuf` -/

@[simp] theorem State.writeBuf_apu (k : Nat) (v : Byte) : (s.writeBuf k v).apu = s.apu := rfl
@[simp] theorem State.writeBuf_spu (k : Nat) (v : Byte) : (s.writeBuf k v).spu = s.spu := rfl
@[simp] theorem State.writeBuf_od (k : Nat) (v : Byte) : (s.writeBuf k v).od = s.od := rfl
@[simp] theorem State.writeBuf_cbEn (k : Nat) (v : Byte) : (s.writeBuf k v).cbEn = s.cbEn := rfl
@[simp] theorem State.writeBuf_sdSeen (k : Nat) (v : Byte) : (s.writeBuf k v).sdSeen = s.sdSeen := rfl
@[simp] theorem State.writeBuf_rstSeen (k : Nat) (v : Byte) : (s.writeBuf k v).rstSeen = s.rstSeen := rfl
@[simp] theorem State.writeBuf_rom (k : Nat) (v : Byte) : (s.writeBuf k v).rom = s.rom := rfl
@[simp] theorem State.writeBuf_ld (k : Nat) (v : Byte) : (s.writeBuf k v).ld = s.ld := rfl
@[simp] theorem State.writeBuf_ldf (k : Nat) (v : Byte) : (s.writeBuf k v).ldf = s.ldf := rfl
@[simp] theorem State.writeBuf_resOk (k : Nat) (v : Byte) : (s.writeBuf k v).resOk = s.resOk := rfl
@[simp] theorem State.writeBuf_resBit (k : Nat) (v : Byte) : (s.writeBuf k v).resBit = s.resBit := rfl
@[simp] theorem State.writeBuf_cause (k : Nat) (v : Byte) : (s.writeBuf k v).cause = s.cause := rfl
@[simp] theorem State.writeBuf_data (k : Nat) (v : Byte) : (s.writeBuf k v).data = s.data := rfl
@[simp] theorem State.writeBuf_buf (k : Nat) (v : Byte) : (s.writeBuf k v).buf = Memory.write s.buf k v := rfl
@[simp] theorem State.writeBuf_params (k : Nat) (v : Byte) : (s.writeBuf k v).params = s.params := rfl
@[simp] theorem State.writeBuf_answers (k : Nat) (v : Byte) : (s.writeBuf k v).answers = s.answers := rfl
@[simp] theorem State.writeBuf_freeCount (k : Nat) (v : Byte) : (s.writeBuf k v).freeCount = s.freeCount := rfl
@[simp] theorem State.writeBuf_trace (k : Nat) (v : Byte) : (s.writeBuf k v).trace = s.trace := rfl
@[simp] theorem State.writeBuf_host (k : Nat) (v : Byte) : (s.writeBuf k v).host = s.host := rfl
@[simp] theorem State.writeBuf_hostOut (k : Nat) (v : Byte) : (s.writeBuf k v).hostOut = s.hostOut := rfl

/-! `State.setHost` -/

@[simp] theorem State.setHost_apu (h : List HostMove) : (s.setHost h).apu = s.apu := rfl
@[simp] theorem State.setHost_spu (h : List HostMove) : (s.setHost h).spu = s.spu := rfl
@[simp] theorem State.setHost_od (h : List HostMove) : (s.setHost h).od = s.od := rfl
@[simp] theorem State.setHost_cbEn (h : List HostMove) : (s.setHost h).cbEn = s.cbEn := rfl
@[simp] theorem State.setHost_sdSeen (h : List HostMove) : (s.setHost h).sdSeen = s.sdSeen := rfl
@[simp] theorem State.setHost_rstSeen (h : List HostMove) : (s.setHost h).rstSeen = s.rstSeen := rfl
@[simp] theorem State.setHost_rom (h : List HostMove) : (s.setHost h).rom = s.rom := rfl
@[simp] theorem State.setHost_ld (h : List HostMove) : (s.setHost h).ld = s.ld := rfl
@[simp] theorem State.setHost_ldf (h : List HostMove) : (s.setHost h).ldf = s.ldf := rfl
@[simp] theorem State.setHost_resOk (h : List HostMove) : (s.setHost h).resOk = s.resOk := rfl
@[simp] theorem State.setHost_resBit (h : List HostMove) : (s.setHost h).resBit = s.resBit := rfl
@[simp] theorem State.setHost_cause (h : List HostMove) : (s.setHost h).cause = s.cause := rfl
@[simp] theorem State.setHost_data (h : List HostMove) : (s.setHost h).data = s.data := rfl
@[simp] theorem State.setHost_buf (h : List HostMove) : (s.setHost h).buf = s.buf := rfl
@[simp] theorem State.setHost_params (h : List HostMove) : (s.setHost h).params = s.params := rfl
@[simp] theorem State.setHost_answers (h : List HostMove) : (s.setHost h).answers = s.answers := rfl
@[simp] theorem State.setHost_freeCount (h : List HostMove) : (s.setHost h).freeCount = s.freeCount := rfl
@[simp] theorem State.setHost_trace (h : List HostMove) : (s.setHost h).trace = s.trace := rfl
@[simp] theorem State.setHost_host (h : List HostMove) : (s.setHost h).host = h := rfl
@[simp] theorem State.setHost_hostOut (h : List HostMove) : (s.setHost h).hostOut = s.hostOut := rfl

/-! `State.give` -/

@[simp] theorem State.give_apu (v : Byte) : (s.give v).apu = s.apu := rfl
@[simp] theorem State.give_spu (v : Byte) : (s.give v).spu = s.spu := rfl
@[simp] theorem State.give_od (v : Byte) : (s.give v).od = s.od := rfl
@[simp] theorem State.give_cbEn (v : Byte) : (s.give v).cbEn = s.cbEn := rfl
@[simp] theorem State.give_sdSeen (v : Byte) : (s.give v).sdSeen = s.sdSeen := rfl
@[simp] theorem State.give_rstSeen (v : Byte) : (s.give v).rstSeen = s.rstSeen := rfl
@[simp] theorem State.give_rom (v : Byte) : (s.give v).rom = s.rom := rfl
@[simp] theorem State.give_ld (v : Byte) : (s.give v).ld = s.ld := rfl
@[simp] theorem State.give_ldf (v : Byte) : (s.give v).ldf = s.ldf := rfl
@[simp] theorem State.give_resOk (v : Byte) : (s.give v).resOk = s.resOk := rfl
@[simp] theorem State.give_resBit (v : Byte) : (s.give v).resBit = s.resBit := rfl
@[simp] theorem State.give_cause (v : Byte) : (s.give v).cause = s.cause := rfl
@[simp] theorem State.give_data (v : Byte) : (s.give v).data = s.data := rfl
@[simp] theorem State.give_buf (v : Byte) : (s.give v).buf = s.buf := rfl
@[simp] theorem State.give_params (v : Byte) : (s.give v).params = s.params := rfl
@[simp] theorem State.give_answers (v : Byte) : (s.give v).answers = s.answers := rfl
@[simp] theorem State.give_freeCount (v : Byte) : (s.give v).freeCount = s.freeCount := rfl
@[simp] theorem State.give_trace (v : Byte) : (s.give v).trace = s.trace := rfl
@[simp] theorem State.give_host (v : Byte) : (s.give v).host = s.host := rfl
@[simp] theorem State.give_hostOut (v : Byte) : (s.give v).hostOut = s.hostOut ++ [v] := rfl

/-! `State.drawFree` -/

@[simp] theorem State.drawFree_apu : (s.drawFree).apu = s.apu := rfl
@[simp] theorem State.drawFree_spu : (s.drawFree).spu = s.spu := rfl
@[simp] theorem State.drawFree_od : (s.drawFree).od = s.od := rfl
@[simp] theorem State.drawFree_cbEn : (s.drawFree).cbEn = s.cbEn := rfl
@[simp] theorem State.drawFree_sdSeen : (s.drawFree).sdSeen = s.sdSeen := rfl
@[simp] theorem State.drawFree_rstSeen : (s.drawFree).rstSeen = s.rstSeen := rfl
@[simp] theorem State.drawFree_rom : (s.drawFree).rom = s.rom := rfl
@[simp] theorem State.drawFree_ld : (s.drawFree).ld = s.ld := rfl
@[simp] theorem State.drawFree_ldf : (s.drawFree).ldf = s.ldf := rfl
@[simp] theorem State.drawFree_resOk : (s.drawFree).resOk = s.resOk := rfl
@[simp] theorem State.drawFree_resBit : (s.drawFree).resBit = s.resBit := rfl
@[simp] theorem State.drawFree_cause : (s.drawFree).cause = s.cause := rfl
@[simp] theorem State.drawFree_data : (s.drawFree).data = s.data := rfl
@[simp] theorem State.drawFree_buf : (s.drawFree).buf = s.buf := rfl
@[simp] theorem State.drawFree_params : (s.drawFree).params = s.params := rfl
@[simp] theorem State.drawFree_answers : (s.drawFree).answers = s.answers := rfl
@[simp] theorem State.drawFree_freeCount : (s.drawFree).freeCount = s.freeCount + 1 := rfl
@[simp] theorem State.drawFree_trace : (s.drawFree).trace = s.trace := rfl
@[simp] theorem State.drawFree_host : (s.drawFree).host = s.host := rfl
@[simp] theorem State.drawFree_hostOut : (s.drawFree).hostOut = s.hostOut := rfl

/-! `State.dropAnswer` -/

@[simp] theorem State.dropAnswer_apu : (s.dropAnswer).apu = s.apu := rfl
@[simp] theorem State.dropAnswer_spu : (s.dropAnswer).spu = s.spu := rfl
@[simp] theorem State.dropAnswer_od : (s.dropAnswer).od = s.od := rfl
@[simp] theorem State.dropAnswer_cbEn : (s.dropAnswer).cbEn = s.cbEn := rfl
@[simp] theorem State.dropAnswer_sdSeen : (s.dropAnswer).sdSeen = s.sdSeen := rfl
@[simp] theorem State.dropAnswer_rstSeen : (s.dropAnswer).rstSeen = s.rstSeen := rfl
@[simp] theorem State.dropAnswer_rom : (s.dropAnswer).rom = s.rom := rfl
@[simp] theorem State.dropAnswer_ld : (s.dropAnswer).ld = s.ld := rfl
@[simp] theorem State.dropAnswer_ldf : (s.dropAnswer).ldf = s.ldf := rfl
@[simp] theorem State.dropAnswer_resOk : (s.dropAnswer).resOk = s.resOk := rfl
@[simp] theorem State.dropAnswer_resBit : (s.dropAnswer).resBit = s.resBit := rfl
@[simp] theorem State.dropAnswer_cause : (s.dropAnswer).cause = s.cause := rfl
@[simp] theorem State.dropAnswer_data : (s.dropAnswer).data = s.data := rfl
@[simp] theorem State.dropAnswer_buf : (s.dropAnswer).buf = s.buf := rfl
@[simp] theorem State.dropAnswer_params : (s.dropAnswer).params = s.params := rfl
@[simp] theorem State.dropAnswer_answers : (s.dropAnswer).answers = s.answers.tail := rfl
@[simp] theorem State.dropAnswer_freeCount : (s.dropAnswer).freeCount = if s.answers.isEmpty then s.freeCount + 1 else s.freeCount := rfl
@[simp] theorem State.dropAnswer_trace : (s.dropAnswer).trace = s.trace := rfl
@[simp] theorem State.dropAnswer_host : (s.dropAnswer).host = s.host := rfl
@[simp] theorem State.dropAnswer_hostOut : (s.dropAnswer).hostOut = s.hostOut := rfl

end Sys2Proof.Machine
end

