-- ==== Sys2Proof/Laws/Answers.lean ====
section
/-! SUPPORT. The environment's answers: what the next one is, and what using one leaves. -/

namespace Sys2Proof.Machine

@[simp] theorem Result.ok_bind {α β : Type} (a : α) (s : State) (f : α → State → Result β) :
    (Result.ok a s).bind f = f a s := rfl

@[simp] theorem Result.fail_bind {α β : Type} (c : Cause) (s : State) (f : α → State → Result β) :
    (Result.fail c s : Result α).bind f = .fail c s := rfl

theorem Result.bind_assoc {α β γ : Type} (r : Result α) (f : α → State → Result β) (g : β → State → Result γ) :
    (r.bind f).bind g = r.bind fun a s => (f a s).bind g := by
  cases r <;> rfl

theorem State.nextAnswer_eq (s : State) : s.nextAnswer = s.answerAt 0 := by
  unfold State.nextAnswer State.answerAt
  cases s.answers <;> simp

theorem State.answerAt_congr {s t : State} (h1 : t.answers = s.answers) (h2 : t.freeCount = s.freeCount) (n : Nat) :
    t.answerAt n = s.answerAt n := by
  unfold State.answerAt; rw [h1, h2]

theorem State.answerAt_dropAnswer (s : State) (n : Nat) : s.dropAnswer.answerAt n = s.answerAt (n + 1) := by
  unfold State.answerAt
  cases h : s.answers with
  | nil => simp [h]; congr 1; omega
  | cons a as => simp [h]

@[simp] theorem State.consumed_zero (s : State) : s.consumed 0 = s := by
  cases s; simp [State.consumed]

theorem State.dropAnswer_eq (s : State) : s.dropAnswer = s.consumed 1 := by
  unfold State.dropAnswer State.consumed
  cases h : s.answers <;> simp

theorem State.consumed_consumed (s : State) (m n : Nat) : (s.consumed m).consumed n = s.consumed (m + n) := by
  unfold State.consumed
  simp only [List.drop_drop, List.length_drop]
  congr 1
  omega

theorem State.answerAt_consumed (s : State) (m n : Nat) : (s.consumed m).answerAt n = s.answerAt (m + n) := by
  unfold State.answerAt State.consumed
  simp only [List.getElem?_drop, List.length_drop]
  by_cases h : m + n < s.answers.length
  · simp [List.getElem?_eq_getElem h]
  · rw [List.getElem?_eq_none (by omega)]
    simp only [Option.getD_none]
    congr 1
    omega

theorem State.Answers.head {s : State} {a : Answer} {as : List Answer} (h : s.Answers (a :: as)) :
    s.nextAnswer = a := by
  rw [State.nextAnswer_eq]; exact h 0 (by simp)

theorem State.Answers.append {s : State} {as bs : List Answer} :
    s.Answers (as ++ bs) ↔ s.Answers as ∧ (s.consumed as.length).Answers bs := by
  constructor
  · intro h
    refine ⟨fun n hn => ?_, fun n hn => ?_⟩
    · rw [h n (by simp; omega), List.getElem_append_left]
    · rw [State.answerAt_consumed, h (as.length + n) (by simp; omega)]
      simp
  · rintro ⟨h1, h2⟩ n hn
    by_cases c : n < as.length
    · rw [List.getElem_append_left c]; exact h1 n c
    · rw [List.getElem_append_right (by omega), ← h2 (n - as.length) (by simp at hn; omega), State.answerAt_consumed]
      congr 1; omega

theorem State.Answers.congr {s t : State} {as : List Answer} (h1 : t.answers = s.answers)
    (h2 : t.freeCount = s.freeCount) : t.Answers as ↔ s.Answers as := by
  unfold State.Answers
  simp only [State.answerAt_congr h1 h2]

theorem State.Answers.cons {s : State} {a : Answer} {as : List Answer} :
    s.Answers (a :: as) ↔ s.nextAnswer = a ∧ s.dropAnswer.Answers as := by
  have := State.Answers.append (s := s) (as := [a]) (bs := as)
  rw [List.singleton_append] at this
  rw [this, State.dropAnswer_eq]
  refine and_congr_left fun _ => ⟨fun h => h.head, fun h n hn => ?_⟩
  have : n = 0 := by simp at hn; exact hn
  subst this
  rw [← State.nextAnswer_eq, h]; rfl

end Sys2Proof.Machine
end

