-- ==== Sys2Proof/Laws/Checksum.lean ====
section
/-! SUPPORT. The CRC: over a concatenation, one byte at a time, and one inner step as a linear map (spec/42_crc.md R150). -/

namespace Sys2Proof.Machine

theorem crcFrom_append (c : Byte) (a b : List Byte) : crcFrom c (a ++ b) = crcFrom (crcFrom c a) b := by
  induction a generalizing c with
  | nil => rfl
  | cons x a ih => exact ih _

theorem crc8_concat (d : List Byte) (v : Byte) : crc8 (d ++ [v]) = crcBits 8 (crc8 d) v := crcFrom_append 0 d [v]

/-- The feedback test of one inner step is bit 0 of the sum. -/
theorem crcBit_eq (crc b : Byte) : crcBit crc b = (crc >>> 1) ^^^ (if crc.getLsbD 0 ^^ b.getLsbD 0 then crcPoly else 0) := by
  have h : ((crc ^^^ b) &&& 1 = 1) ↔ (crc.getLsbD 0 ^^ b.getLsbD 0) = true := by
    rw [← BitVec.getLsbD_xor]
    generalize crc ^^^ b = x
    revert x; decide
  unfold crcBit
  by_cases c : (crc.getLsbD 0 ^^ b.getLsbD 0) = true
  · rw [if_pos (h.2 c), if_pos c]
  · rw [if_neg (mt h.1 c), if_neg c]; simp

theorem crcBit_xor (a b c d : Byte) : crcBit (a ^^^ c) (b ^^^ d) = crcBit a b ^^^ crcBit c d := by
  have split : ∀ p q : Bool, (if p ^^ q then crcPoly else 0) = (if p then crcPoly else 0) ^^^ (if q then crcPoly else 0) := by
    decide
  have swap : ∀ p q r t : Bool, ((p ^^ r) ^^ (q ^^ t)) = ((p ^^ q) ^^ (r ^^ t)) := by decide
  simp only [crcBit_eq, BitVec.getLsbD_xor, BitVec.ushiftRight_xor_distrib]
  rw [swap, split]
  ac_rfl

theorem crcBits_xor (n : Nat) (a b c d : Byte) : crcBits n (a ^^^ c) (b ^^^ d) = crcBits n a b ^^^ crcBits n c d := by
  induction n generalizing a b c d with
  | zero => rfl
  | succ n ih => rw [crcBits, crcBit_xor, BitVec.ushiftRight_xor_distrib, ih]; rfl

/-- The address of SEARCH verifies when the CRC of its first seven bytes is the eighth (R136, R152). -/
theorem crcVerify_rom (rom : Vector Byte 8) : crcVerify rom.toList = true ↔ crc8 (rom.toList.take 7) = rom[7] := by
  have hl : rom.toList.getLast? = some rom[7] := by rw [List.getLast?_eq_getElem?]; simp
  have hd : rom.toList.dropLast = rom.toList.take 7 := by rw [List.dropLast_eq_take]; simp
  rw [crcVerify, hl, hd]; simp

end Sys2Proof.Machine
end

