-- ==== Sys2Proof/Laws/Polling.lean ====
section
/-! SUPPORT. `WaitBusy`: the state after successful status reads, everything a poll can end in (one inversion lemma), and
what it ends in for given answers of the environment. -/

namespace Sys2Proof.Machine

@[simp] theorem flagAfter_nil (bit : Byte → Bool) (seen : Bool) : flagAfter bit seen [] = seen := rfl

@[simp] theorem flagAfter_cons (bit : Byte → Bool) (seen : Bool) (st : Byte) (sts : List Byte) :
    flagAfter bit seen (st :: sts) = flagAfter bit (bit st) sts := by
  cases sts <;> simp [flagAfter, List.getLast?_cons]

theorem flagAfter_append (bit : Byte → Bool) (seen : Bool) (as bs : List Byte) :
    flagAfter bit seen (as ++ bs) = flagAfter bit (flagAfter bit seen as) bs := by
  induction as generalizing seen with
  | nil => rfl
  | cons a as ih => simp [ih]

theorem readEvents_append (cb sd rst : Bool) (as bs : List Byte) :
    readEvents cb sd rst (as ++ bs) =
      readEvents cb sd rst as ++ readEvents cb (flagAfter statusSD sd as) (flagAfter statusRST rst as) bs := by
  induction as generalizing sd rst with
  | nil => rfl
  | cons a as ih => simp [readEvents, ih]

/-- The state after the status reads `sts`, all successful, inside `WaitBusy`. -/
def State.afterReads (s : State) (sts : List Byte) : State :=
  { s.consumed sts.length with
    sdSeen := flagAfter statusSD s.sdSeen sts, rstSeen := flagAfter statusRST s.rstSeen sts,
    trace := s.trace ++ readEvents s.cbEn s.sdSeen s.rstSeen sts }

@[simp] theorem State.afterReads_nil (s : State) : s.afterReads [] = s := by
  simp [State.afterReads, readEvents]

theorem State.afterReads_append (s : State) (as bs : List Byte) :
    (s.afterReads as).afterReads bs = s.afterReads (as ++ bs) := by
  simp only [State.afterReads, flagAfter_append, readEvents_append, ← List.append_assoc, List.length_append,
    ← State.consumed_consumed]
  rfl

theorem State.answerAt_afterReads (s : State) (sts : List Byte) (n : Nat) :
    (s.afterReads sts).answerAt n = s.answerAt (sts.length + n) := by
  rw [← State.answerAt_consumed]; exact State.answerAt_congr rfl rfl n

@[simp] theorem State.afterReads_params (s : State) (sts : List Byte) : (s.afterReads sts).params = s.params := rfl

theorem notifyEdge_eq (k : FaultKind) (now seen : Bool) (s : State) :
    notifyEdge k now seen s = { s with trace := s.trace ++ edgeEvents k s.cbEn now seen } := by
  unfold notifyEdge edgeEvents
  split_ifs <;> simp [State.emit]

theorem noteFaults_eq (st : Byte) (s : State) :
    noteFaults st s =
      { s with sdSeen := statusSD st, rstSeen := statusRST st,
               trace := s.trace ++ (edgeEvents .short s.cbEn (statusSD st) s.sdSeen ++
                 edgeEvents .reset s.cbEn (statusRST st) s.rstSeen) } := by
  simp [noteFaults, notifyEdge_eq, State.setSdSeen, State.setRstSeen]

theorem pollOnce_eq (s : State) :
    pollOnce s =
      if s.nextAnswer.ok then .ok s.nextAnswer.byte (s.afterReads [s.nextAnswer.byte])
      else .fail .transport (s.dropAnswer.emit (.status none)) := by
  unfold pollOnce readStatus
  split_ifs
  · simp [Result.bind, noteFaults_eq, State.afterReads, State.emit, readEvents, State.dropAnswer_eq, State.consumed]
  · rfl

/-- Everything a poll of at most `budget` reads can end in (R100, R101, R104). -/
inductive PollOutcome (s : State) (budget : Nat) : Result Byte → Prop where
  | idle (p : Poll) (good : p.good budget = true) (ans : s.Answers p.answers) :
      PollOutcome s budget (.ok p.idle (s.afterReads p.bytes))
  | timeout (busy : List Byte) (len : busy.length = budget) (all : ∀ b ∈ busy, statusBusy b = true)
      (ans : s.Answers (busy.map yes)) : PollOutcome s budget (pollTimeout (s.afterReads busy))
  | denied (busy : List Byte) (len : busy.length < budget) (all : ∀ b ∈ busy, statusBusy b = true)
      (ans : s.Answers (busy.map yes)) (no : (s.answerAt busy.length).ok = false) :
      PollOutcome s budget (.fail .transport ((s.afterReads busy).dropAnswer.emit (.status none)))

theorem Answers_cons_read {s : State} {st : Byte} {as : List Answer} (h0 : s.nextAnswer = yes st)
    (h : (s.afterReads [st]).Answers as) : s.Answers (yes st :: as) := by
  refine State.Answers.cons.2 ⟨h0, ?_⟩
  rw [State.dropAnswer_eq]
  exact (State.Answers.congr (s := s.consumed 1) rfl rfl).1 h

theorem PollOutcome.afterBusy {s : State} {n : Nat} {r : Result Byte} {st : Byte} (h0 : s.nextAnswer = yes st)
    (hb : statusBusy st = true) (h : PollOutcome (s.afterReads [st]) n r) : PollOutcome s (n + 1) r := by
  cases h with
  | idle p good ans =>
    rw [State.afterReads_append]
    have : PollOutcome s (n + 1) (.ok p.idle (s.afterReads (Poll.bytes ⟨st :: p.busy, p.idle⟩))) :=
      .idle ⟨st :: p.busy, p.idle⟩ (by simp_all [Poll.good]) (Answers_cons_read h0 ans)
    exact this
  | timeout busy len all ans =>
    rw [State.afterReads_append]
    exact .timeout (st :: busy) (by simp [len]) (by simp_all) (Answers_cons_read h0 ans)
  | denied busy len all ans no =>
    rw [State.afterReads_append]
    refine .denied (st :: busy) (by simpa using len) (by simp_all) (Answers_cons_read h0 ans) ?_
    rw [State.answerAt_afterReads] at no
    simpa [Nat.add_comm] using no

theorem pollLoop_outcome (n : Nat) (s : State) : PollOutcome s (n + 1) (pollLoop n s) := by
  induction n generalizing s with
  | zero =>
    rw [pollLoop, pollOnce_eq]
    by_cases hok : s.nextAnswer.ok = true
    · have h0 : s.nextAnswer = yes s.nextAnswer.byte := by
        cases h : s.nextAnswer; rw [h] at hok; simp_all [yes]
      by_cases hb : statusBusy s.nextAnswer.byte = true
      · simp only [hok, if_true, Result.bind, hb]
        exact .timeout [s.nextAnswer.byte] rfl (by simpa using hb)
          (Answers_cons_read h0 (fun _ h => absurd h (by simp)))
      · simp only [hok, if_true, Result.bind, hb]
        exact .idle ⟨[], s.nextAnswer.byte⟩ (by simp [Poll.good, hb])
          (Answers_cons_read h0 (fun _ h => absurd h (by simp)))
    · simp only [hok, Result.bind]
      have := PollOutcome.denied (s := s) (budget := 1) [] (by simp) (by simp) (fun _ h => absurd h (by simp))
        (by simpa [← State.nextAnswer_eq] using hok)
      simpa using this
  | succ n ih =>
    rw [pollLoop, pollOnce_eq]
    by_cases hok : s.nextAnswer.ok = true
    · have h0 : s.nextAnswer = yes s.nextAnswer.byte := by
        cases h : s.nextAnswer; rw [h] at hok; simp_all [yes]
      by_cases hb : statusBusy s.nextAnswer.byte = true
      · simp only [hok, if_true, Result.bind, hb]
        exact .afterBusy h0 hb (ih _)
      · simp only [hok, if_true, Result.bind, hb]
        exact .idle ⟨[], s.nextAnswer.byte⟩ (by simp [Poll.good, hb])
          (Answers_cons_read h0 (fun _ h => absurd h (by simp)))
    · simp only [hok, Result.bind]
      have := PollOutcome.denied (s := s) (budget := n + 1 + 1) [] (by simp) (by simp)
        (fun _ h => absurd h (by simp)) (by simpa [← State.nextAnswer_eq] using hok)
      simpa using this

/-- Everything `WaitBusy` can end in. -/
theorem waitBusy_outcome (s : State) : PollOutcome s s.params.pollMax (waitBusy s) := pollLoop_outcome _ s

theorem pollOnce_yes {s : State} {st : Byte} (h : s.nextAnswer = yes st) : pollOnce s = .ok st (s.afterReads [st]) := by
  rw [pollOnce_eq, h]; rfl

/-- Busy reads within the budget only move the poll on. -/
theorem pollLoop_busy (busy : List Byte) (n : Nat) (s : State) (hb : ∀ b ∈ busy, statusBusy b = true)
    (h : s.Answers (busy.map yes)) : pollLoop (busy.length + n) s = pollLoop n (s.afterReads busy) := by
  induction busy generalizing s with
  | nil => simp
  | cons b bs ih =>
    rw [List.map_cons, State.Answers.cons] at h
    have hlen : (b :: bs).length + n = (bs.length + n) + 1 := by simp; omega
    rw [hlen, pollLoop, pollOnce_yes h.1]
    simp only [Result.bind, hb b (by simp), if_true]
    rw [ih _ (fun x hx => hb x (by simp [hx])), State.afterReads_append]
    · rfl
    · rw [State.dropAnswer_eq] at h
      exact (State.Answers.congr (s := s.consumed 1) rfl rfl).2 h.2

/-- A good poll succeeds with its idle byte (R101). -/
theorem waitBusy_idle {s : State} {p : Poll} (h : s.Answers p.answers) (hp : p.good s.params.pollMax = true) :
    waitBusy s = .ok p.idle (s.afterReads p.bytes) := by
  obtain ⟨busy, idle⟩ := p
  simp only [Poll.good, Bool.and_eq_true, List.all_eq_true, Bool.not_eq_true', Params.pollMax] at hp
  obtain ⟨⟨hb, hi⟩, hl⟩ := hp
  replace hl := of_decide_eq_true hl
  simp only [Poll.answers, Poll.bytes, List.map_append, List.map_cons, List.map_nil] at h
  rw [State.Answers.append] at h
  obtain ⟨k, hk⟩ : ∃ k, s.params.pollMaxPred = busy.length + k := ⟨_, (Nat.add_sub_of_le (by omega)).symm⟩
  have hlast : (s.afterReads busy).nextAnswer = yes idle := by
    rw [State.nextAnswer_eq, State.answerAt_afterReads]
    have := h.2 0 (by simp)
    rw [State.answerAt_consumed] at this
    simpa using this
  rw [waitBusy, hk, pollLoop_busy busy k s hb h.1]
  cases k <;> rw [pollLoop, pollOnce_yes hlast] <;>
    simp [Result.bind, hi, State.afterReads_append, Poll.bytes]

/-- A status read denied after busy ones within the budget ends the poll (R100). -/
theorem waitBusy_denied {s : State} {busy : List Byte} {z : Byte} (h : s.Answers (busy.map yes ++ [⟨false, z⟩]))
    (hb : ∀ b ∈ busy, statusBusy b = true) (hl : busy.length < s.params.pollMax) :
    waitBusy s = .fail .transport ((s.afterReads busy).dropAnswer.emit (.status none)) := by
  rw [State.Answers.append] at h
  obtain ⟨k, hk⟩ : ∃ k, s.params.pollMaxPred = busy.length + k :=
    ⟨_, (Nat.add_sub_of_le (by simp only [Params.pollMax] at hl; omega)).symm⟩
  have hlast : (s.afterReads busy).nextAnswer = ⟨false, z⟩ := by
    rw [State.nextAnswer_eq, State.answerAt_afterReads]
    have := h.2 0 (by simp)
    rw [State.answerAt_consumed] at this
    simpa using this
  rw [waitBusy, hk, pollLoop_busy busy k s hb h.1]
  cases k <;> rw [pollLoop, pollOnce_eq, hlast] <;> rfl

/-- As many busy reads as the budget end the poll with BUSY_TIMEOUT (R101, R104). -/
theorem waitBusy_timeout {s : State} {busy : List Byte} (h : s.Answers (busy.map yes))
    (hb : ∀ b ∈ busy, statusBusy b = true) (hl : busy.length = s.params.pollMax) :
    waitBusy s = pollTimeout (s.afterReads busy) := by
  obtain ⟨init, last, rfl⟩ : ∃ init last, busy = init ++ [last] :=
    ⟨_, _, (List.dropLast_append_getLast (by rintro rfl; simp [Params.pollMax] at hl)).symm⟩
  rw [List.map_append, State.Answers.append] at h
  have hlast : (s.afterReads init).nextAnswer = yes last := by
    rw [State.nextAnswer_eq, State.answerAt_afterReads]
    have := h.2 0 (by simp)
    rw [State.answerAt_consumed] at this
    simpa using this
  rw [waitBusy, show s.params.pollMaxPred = init.length + 0 by simpa [Params.pollMax] using hl.symm,
    pollLoop_busy init 0 s (fun b hm => hb b (by simp [hm])) h.1, pollLoop, pollOnce_yes hlast]
  simp [hb last (by simp), State.afterReads_append]

end Sys2Proof.Machine
end

