-- ==== Sys2Proof/Laws/Exchanges.lean ====
section
/-! SUPPORT. The procedures under given answers of the environment: a primitive answered `ok` and followed by a good poll
(an exchange), one after another, and the first one that fails. -/

namespace Sys2Proof.Machine

/-- The answers of a sequence of exchanges. -/
def exchangeAnswers (xs : List (Prim × Exchange)) : List Answer := xs.flatMap (·.2.answers)

/-- The state after a sequence of exchanges. -/
def State.afterExchanges (s : State) (xs : List (Prim × Exchange)) : State :=
  { s.consumed (exchangeAnswers xs).length with
    sdSeen := flagAfter statusSD s.sdSeen (xs.map (·.2.poll.idle)),
    rstSeen := flagAfter statusRST s.rstSeen (xs.map (·.2.poll.idle)),
    trace := s.trace ++ exchangeEvents s.cbEn s.sdSeen s.rstSeen xs }

@[simp] theorem State.afterExchanges_nil (s : State) : s.afterExchanges [] = s := by
  simp [State.afterExchanges, exchangeAnswers, exchangeEvents]

theorem exchangeEvents_append (cb sd rst : Bool) (xs ys : List (Prim × Exchange)) :
    exchangeEvents cb sd rst (xs ++ ys) =
      exchangeEvents cb sd rst xs ++
        exchangeEvents cb (flagAfter statusSD sd (xs.map (·.2.poll.idle)))
          (flagAfter statusRST rst (xs.map (·.2.poll.idle))) ys := by
  induction xs generalizing sd rst with
  | nil => rfl
  | cons x xs ih => obtain ⟨p, x⟩ := x; simp [exchangeEvents, ih]

theorem State.afterExchanges_append (s : State) (xs ys : List (Prim × Exchange)) :
    (s.afterExchanges xs).afterExchanges ys = s.afterExchanges (xs ++ ys) := by
  simp only [State.afterExchanges, exchangeAnswers, List.flatMap_append, List.map_append, List.length_append,
    flagAfter_append, exchangeEvents_append, ← State.consumed_consumed, ← List.append_assoc]
  rfl

theorem flagAfter_pollBytes (bit : Byte → Bool) (seen : Bool) (p : Poll) : flagAfter bit seen p.bytes = bit p.idle := by
  simp [Poll.bytes, flagAfter_append]

theorem State.afterExchange_eq (s : State) (p : Prim) (x : Exchange) :
    (s.dropAnswer.emit (.prim p true)).afterReads x.poll.bytes = s.afterExchanges [(p, x)] := by
  have h : (exchangeAnswers [(p, x)]).length = 1 + x.poll.bytes.length := by
    simp [exchangeAnswers, Exchange.answers, Poll.answers, Nat.add_comm]
  simp only [State.afterExchanges, h, ← State.consumed_consumed, State.dropAnswer_eq, State.afterReads, State.emit,
    flagAfter_pollBytes, List.map_cons, List.map_nil, flagAfter_cons, flagAfter_nil, exchangeEvents, List.append_nil]
  simp [State.consumed]

theorem prim_yes {s : State} {v : Byte} (p : Prim) (h : s.nextAnswer = yes v) :
    prim p s = .ok () (s.dropAnswer.emit (.prim p true)) := by
  simp [prim, h, yes]

theorem prim_no {s : State} (p : Prim) (h : s.nextAnswer.ok = false) :
    prim p s = .fail .transport (s.dropAnswer.emit (.prim p false)) := by
  simp [prim, h]

/-- One exchange. -/
theorem primPoll_exchange {s : State} {x : Exchange} (p : Prim) (h : s.Answers x.answers)
    (hx : x.good s.params.pollMax = true) :
    ((prim p s).bind fun _ s1 => waitBusy s1) = .ok x.poll.idle (s.afterExchanges [(p, x)]) := by
  rw [Exchange.answers, State.Answers.cons] at h
  rw [prim_yes p h.1, Result.bind, ← State.afterExchange_eq]
  exact waitBusy_idle (s := s.dropAnswer.emit (.prim p true)) ((State.Answers.congr rfl rfl).2 h.2) hx

/-- The state after a primitive and poll that failed, the recovery reset of a timeout included. -/
def State.afterFailure (s : State) (p : Prim) (f : PollFailure) : State :=
  { s.consumed (f.answers.length + (f.recovery s f.answers.length).length) with
    sdSeen := flagAfter statusSD s.sdSeen f.busy, rstSeen := flagAfter statusRST s.rstSeen f.busy,
    trace := s.trace ++ f.events s.cbEn s.sdSeen s.rstSeen p ++ f.recovery s f.answers.length }

/-- A primitive and poll that fail, in each of the three ways (R12, R100, R101, R104). -/
theorem primPoll_failure {s : State} {f : PollFailure} (p : Prim) (h : s.Answers f.answers)
    (hf : f.good s.params.pollMax = true) :
    ((prim p s).bind fun _ s1 => waitBusy s1) = .fail f.cause (s.afterFailure p f) := by
  cases f with
  | primitive z =>
    rw [prim_no p (by rw [h.head]), Result.fail_bind]
    simp [State.afterFailure, PollFailure.cause, PollFailure.answers, PollFailure.recovery, PollFailure.events,
      PollFailure.busy, State.dropAnswer_eq, State.emit, State.consumed]
  | statusRead note busy z =>
    simp only [PollFailure.good, Bool.and_eq_true, List.all_eq_true, decide_eq_true_eq] at hf
    rw [PollFailure.answers, List.cons_append, State.Answers.cons] at h
    rw [prim_yes p h.1, Result.ok_bind,
      waitBusy_denied (s := s.dropAnswer.emit (.prim p true)) ((State.Answers.congr rfl rfl).2 h.2) hf.1 hf.2]
    have hn : (PollFailure.statusRead note busy z).answers.length = 1 + busy.length + 1 := by
      simp [PollFailure.answers]; omega
    simp only [State.afterFailure, hn, PollFailure.recovery, List.length_nil, Nat.add_zero,
      ← State.consumed_consumed]
    simp [State.dropAnswer_eq, State.afterReads, State.emit, State.consumed, PollFailure.events, PollFailure.busy,
      PollFailure.cause]
  | timeout note busy =>
    simp only [PollFailure.good, Bool.and_eq_true, List.all_eq_true, decide_eq_true_eq] at hf
    rw [PollFailure.answers, State.Answers.cons] at h
    rw [prim_yes p h.1, Result.ok_bind,
      waitBusy_timeout (s := s.dropAnswer.emit (.prim p true)) ((State.Answers.congr rfl rfl).2 h.2) hf.1 hf.2,
      pollTimeout]
    have hn : (PollFailure.timeout note busy).answers.length = 1 + busy.length := by
      simp [PollFailure.answers, Nat.add_comm]
    have ha : ((s.dropAnswer.emit (.prim p true)).afterReads busy).nextAnswer = s.answerAt (1 + busy.length) := by
      rw [State.nextAnswer_eq, State.answerAt_afterReads, 
        State.answerAt_congr (s := s.dropAnswer) (t := s.dropAnswer.emit _) rfl rfl, State.answerAt_dropAnswer, Nat.add_zero, Nat.add_comm]
    by_cases ht : s.params.timeoutDrst = true
    · rw [if_pos (show ((s.dropAnswer.emit (.prim p true)).afterReads busy).params.timeoutDrst = true from ht),
        primIgnored, ha]
      simp only [State.afterFailure, hn, PollFailure.recovery, ht, if_true, List.length_singleton,
        ← State.consumed_consumed]
      simp [State.dropAnswer_eq, State.afterReads, State.emit, State.consumed, PollFailure.events, PollFailure.busy,
        PollFailure.cause]
    · rw [if_neg (show ¬((s.dropAnswer.emit (.prim p true)).afterReads busy).params.timeoutDrst = true from ht)]
      simp only [State.afterFailure, hn, PollFailure.recovery, ht,
        ← State.consumed_consumed]
      simp [State.dropAnswer_eq, State.afterReads, State.emit, State.consumed, PollFailure.events, PollFailure.busy,
        PollFailure.cause]

theorem doWriteByte_failure {s : State} {f : PollFailure} (v : Byte) (h : s.Answers f.answers)
    (hf : f.good s.params.pollMax = true) : doWriteByte v s = .fail f.cause (s.afterFailure (.wwb v) f) := by
  rw [doWriteByte, ← Result.bind_assoc (prim (.wwb v) s) (fun _ s1 => waitBusy s1), primPoll_failure _ h hf,
    Result.fail_bind]

theorem doBit_failure {s : State} {f : PollFailure} (b : Bool) (h : s.Answers f.answers)
    (hf : f.good s.params.pollMax = true) : doBit b s = .fail f.cause (s.afterFailure (.wsb b) f) := by
  rw [doBit, ← Result.bind_assoc (prim (.wsb b) s) (fun _ s1 => waitBusy s1), primPoll_failure _ h hf, Result.fail_bind]

theorem doReadByte_failure {s : State} {f : PollFailure} (h : s.Answers f.answers)
    (hf : f.good s.params.pollMax = true) : doReadByte s = .fail f.cause (s.afterFailure .wrb f) := by
  rw [doReadByte, ← Result.bind_assoc (prim .wrb s) (fun _ s1 => waitBusy s1), primPoll_failure _ h hf, Result.fail_bind]

theorem State.Answers.afterExchanges {s : State} {as : List Answer} (xs : List (Prim × Exchange)) :
    (s.afterExchanges xs).Answers as ↔ (s.consumed (exchangeAnswers xs).length).Answers as :=
  State.Answers.congr rfl rfl

theorem doWriteByte_exchange {s : State} {x : Exchange} (v : Byte) (h : s.Answers x.answers)
    (hx : x.good s.params.pollMax = true) : doWriteByte v s = .ok () (s.afterExchanges [(.wwb v, x)]) := by
  rw [doWriteByte, ← Result.bind_assoc (prim (.wwb v) s) (fun _ s1 => waitBusy s1), primPoll_exchange _ h hx,
    Result.ok_bind]

theorem doBit_exchange {s : State} {x : Exchange} (b : Bool) (h : s.Answers x.answers)
    (hx : x.good s.params.pollMax = true) :
    doBit b s = .ok (statusSBR x.poll.idle) (s.afterExchanges [(.wsb b, x)]) := by
  rw [doBit, ← Result.bind_assoc (prim (.wsb b) s) (fun _ s1 => waitBusy s1), primPoll_exchange _ h hx, Result.ok_bind]

theorem doReadByte_exchange {s : State} {x : Exchange} {v : Byte} (h : s.Answers (x.answers ++ [yes v]))
    (hx : x.good s.params.pollMax = true) :
    doReadByte s = .ok v ((s.afterExchanges [(.wrb, x)]).dropAnswer.emit (.data (some v))) := by
  rw [State.Answers.append] at h
  have hv : (s.afterExchanges [(.wrb, x)]).nextAnswer = yes v := by
    refine ((State.Answers.afterExchanges (as := [yes v]) [(.wrb, x)]).2 ?_).head
    simpa [exchangeAnswers] using h.2
  rw [doReadByte, ← Result.bind_assoc (prim .wrb s) (fun _ s1 => waitBusy s1), primPoll_exchange .wrb h.1 hx,
    Result.ok_bind, readData, hv]
  rfl

/-- A read-byte exchange whose data read is denied (R113). -/
theorem doReadByte_dataDenied {s : State} {x : Exchange} {z : Byte} (h : s.Answers (x.answers ++ [⟨false, z⟩]))
    (hx : x.good s.params.pollMax = true) :
    doReadByte s = .fail .transport ((s.afterExchanges [(.wrb, x)]).dropAnswer.emit (.data none)) := by
  rw [State.Answers.append] at h
  have hv : (s.afterExchanges [(.wrb, x)]).nextAnswer = ⟨false, z⟩ := by
    refine ((State.Answers.afterExchanges (as := [⟨false, z⟩]) [(.wrb, x)]).2 ?_).head
    simpa [exchangeAnswers] using h.2
  rw [doReadByte, ← Result.bind_assoc (prim .wrb s) (fun _ s1 => waitBusy s1), primPoll_exchange .wrb h.1 hx,
    Result.ok_bind, readData, hv]
  rfl

/-- `n` write-byte exchanges from `BUF[k]` upward. -/
theorem writeBytesFrom_exchanges (xs : List Exchange) (n k : Nat) (s : State)
    (h : s.Answers (xs.flatMap Exchange.answers)) (hx : ∀ x ∈ xs, x.good s.params.pollMax = true) :
    writeBytesFrom (xs.length + n) k s =
      writeBytesFrom n (k + xs.length)
        (s.afterExchanges (((List.range' k xs.length).map fun j => Prim.wwb (s.bufAt j)).zip xs)) := by
  induction xs generalizing k s with
  | nil => simp
  | cons x xs ih =>
    rw [List.flatMap_cons, State.Answers.append] at h
    have hl : (x :: xs).length + n = (xs.length + n) + 1 := by simp; omega
    rw [hl, writeBytesFrom, doWriteByte_exchange _ h.1 (hx x (by simp)), Result.bind,
      ih (k + 1) _ ((State.Answers.afterExchanges _).2 (by simpa [exchangeAnswers] using h.2))
        (fun y hy => hx y (by simp [hy]))]
    have he : k + 1 + xs.length = k + (x :: xs).length := by simp; omega
    rw [he, State.afterExchanges_append]
    simp only [List.length_cons, List.range'_succ, List.map_cons, List.zip_cons_cons, List.singleton_append]
    rfl

/-- The state after a `DoReset` all of whose answers are positive. -/
def State.afterReset (s : State) (x : ResetExchange) : State :=
  { s.consumed (x.answers s.spu).length with
    sdSeen := statusSD x.pulse.poll.idle, rstSeen := statusRST x.pulse.poll.idle,
    trace := s.trace ++ resetEvents s x }

/-- `DoReset` from the state in which strong pull-up is already clear up to its last step. -/
theorem resetMiddle {s : State} {b : Poll} {x : Exchange} (h : s.Answers (b.answers ++ x.answers))
    (hb : b.good s.params.pollMax = true) (hx : x.good s.params.pollMax = true) :
    ((waitBusy s).bind fun _ s2 => (prim .wrs s2).bind fun _ s3 => waitBusy s3) =
      .ok x.poll.idle ((s.afterReads b.bytes).afterExchanges [(.wrs, x)]) := by
  rw [State.Answers.append] at h
  rw [waitBusy_idle h.1 hb, Result.bind]
  refine primPoll_exchange (s := s.afterReads b.bytes) .wrs ?_ hx
  refine (State.Answers.congr ?_ ?_).2 h.2 <;> simp [State.afterReads, State.consumed, Poll.answers]

theorem doReset_exchange {s : State} {x : ResetExchange} (h : s.Answers (x.answers s.spu))
    (hx : x.good s.params.pollMax = true) : doReset s = .ok (statusPPD x.pulse.poll.idle) (s.afterReset x) := by
  simp only [ResetExchange.good, Bool.and_eq_true] at hx
  have shape : doReset s = (clearSpu s).bind fun _ s1 =>
      (((waitBusy s1).bind fun _ s2 => (prim .wrs s2).bind fun _ s3 => waitBusy s3)).bind fun st s4 =>
        (restoreSpu s.spu s4).bind fun _ s5 => .ok (statusPPD st) s5 := by
    unfold doReset
    congr 1; funext _ s1
    cases waitBusy s1 with
    | fail c t => rfl
    | ok _ t => simp only [Result.bind]; cases prim .wrs t <;> rfl
  rw [shape]
  by_cases hs : s.spu = true
  · simp only [ResetExchange.answers, hs, if_true] at h
    rw [List.append_assoc, List.append_assoc, List.singleton_append, State.Answers.cons, ← List.append_assoc,
      State.Answers.append] at h
    obtain ⟨h0, h1, h2⟩ := h
    obtain ⟨s1, hs1⟩ : ∃ s1, s1 = (s.dropAnswer.emit (.prim (.wcfg s.apu false s.od) true)).setSpu false := ⟨_, rfl⟩
    have hc : clearSpu s = .ok () s1 := by rw [clearSpu, if_pos hs, prim_yes _ h0, Result.ok_bind, hs1]
    have hm := resetMiddle (s := s1) ((State.Answers.congr (by rw [hs1]; rfl) (by rw [hs1]; rfl)).2 h1)
      (by rw [hs1]; exact hx.1) (by rw [hs1]; exact hx.2)
    obtain ⟨s2, hs2⟩ : ∃ s2, s2 = (s1.afterReads x.before.bytes).afterExchanges [(.wrs, x.pulse)] := ⟨_, rfl⟩
    rw [← hs2] at hm
    have hn : s2.nextAnswer = yes x.restoreNote := by
      refine State.Answers.head (as := []) ((State.Answers.congr ?_ ?_).2 h2) <;>
        simp [hs2, hs1, State.afterExchanges, State.afterReads, State.consumed, State.setSpu, State.emit,
          exchangeAnswers, Poll.answers] <;> omega
    rw [hc, Result.ok_bind, hm, Result.ok_bind, restoreSpu, if_pos hs, prim_yes _ hn, Result.ok_bind, Result.ok_bind]
    congr 1
    have hrd : s.od = s2.od ∧ s.apu = s2.apu := by rw [hs2, hs1]; exact ⟨rfl, rfl⟩
    rw [← hrd.1, ← hrd.2, hs2, hs1]
    simp only [State.afterReset, resetEvents, ResetExchange.answers, hs, if_true, State.afterExchanges, State.afterReads,
      State.consumed, State.setSpu, State.emit, State.dropAnswer_eq, exchangeAnswers, Exchange.answers, Poll.answers,
      flagAfter_pollBytes]
    simp [exchangeEvents, List.drop_drop]
    refine ⟨?_, ?_⟩ <;> omega
  · have hf : s.spu = false := by simpa using hs
    have hc : clearSpu s = .ok () s := by rw [clearSpu, if_neg hs]
    simp only [ResetExchange.answers, hf, Bool.false_eq_true, if_false, List.nil_append, List.append_nil] at h
    rw [hc, Result.ok_bind, resetMiddle h hx.1 hx.2, Result.ok_bind, restoreSpu, if_neg hs, Result.ok_bind]
    congr 1
    simp only [State.afterReset, resetEvents, ResetExchange.answers, hf, State.afterExchanges, State.afterReads,
      State.consumed, exchangeAnswers, Exchange.answers, Poll.answers, flagAfter_pollBytes]
    simp [exchangeEvents, List.drop_drop]
    omega

end Sys2Proof.Machine
end

