-- ==== Sys2Proof/Laws/Memory.lean ====
section
/-! SUPPORT. The laws of `BUF`'s store: read after write, and every write keeps the canonical form. -/

namespace Sys2Proof.Machine

theorem Memory.get?_write (m : Memory) (a b : Nat) (v : Byte) :
    Memory.get? (Memory.write m a v) b = if b = a then some v else Memory.get? m b := by
  induction m with
  | nil => simp [Memory.write, Memory.get?, eq_comm]
  | cons c m ih =>
    obtain ⟨k, w⟩ := c
    rcases eq_or_ne b a with rfl | hb
    · rcases lt_trichotomy b k with h | h | h
      · simp [Memory.write, h, Memory.get?]
      · subst h; simp [Memory.write, Memory.get?]
      · have h1 : ¬b < k := by omega
        have h2 : b ≠ k := by omega
        simp [Memory.write, h1, h2, Memory.get?, h2.symm, ih]
    · rcases lt_trichotomy a k with h | h | h
      · simp [Memory.write, h, Memory.get?, hb, hb.symm]
      · subst h; simp [Memory.write, Memory.get?, hb, hb.symm]
      · have h1 : ¬a < k := by omega
        have h2 : a ≠ k := by omega
        simp [Memory.write, h1, h2, Memory.get?, ih, hb]

theorem Memory.read_write_law (m : Memory) (a b : Nat) (v : Byte) :
    Memory.read (Memory.write m a v) b = if b = a then v else Memory.read m b := by
  unfold Memory.read
  rw [Memory.get?_write]
  split_ifs <;> rfl

theorem Memory.wfFrom_mono {lo lo' : Nat} (m : Memory) (h : lo' ≤ lo) (hw : Memory.wfFrom lo m = true) :
    Memory.wfFrom lo' m = true := by
  cases m with
  | nil => rfl
  | cons c m =>
    simp only [Memory.wfFrom, Bool.and_eq_true, decide_eq_true_eq] at hw ⊢
    exact ⟨⟨h.trans hw.1.1, hw.1.2⟩, hw.2⟩

theorem Memory.wfFrom_write {lo : Nat} (m : Memory) (a : Nat) (v : Byte) (hw : Memory.wfFrom lo m = true)
    (hlo : lo ≤ a) (ha : a < bufSize) : Memory.wfFrom lo (Memory.write m a v) = true := by
  induction m generalizing lo with
  | nil => simp [Memory.write, Memory.wfFrom, hlo, ha]
  | cons c m ih =>
    obtain ⟨k, w⟩ := c
    simp only [Memory.wfFrom, Bool.and_eq_true, decide_eq_true_eq] at hw
    obtain ⟨⟨h1, h2⟩, h3⟩ := hw
    simp only [Memory.write]
    split_ifs with c1 c2
    · simp [Memory.wfFrom, hlo, ha, h2, h3]; omega
    · subst c2; simp [Memory.wfFrom, hlo, ha, h3]
    · simp [Memory.wfFrom, h1, h2, ih h3 (by omega)]

theorem Memory.wf_write_law (m : Memory) (a : Nat) (v : Byte) (hw : Memory.wf m = true) (ha : a < bufSize) :
    Memory.wf (Memory.write m a v) = true := Memory.wfFrom_write m a v hw (Nat.zero_le a) ha

theorem Memory.get?_below {lo : Nat} (m : Memory) (hw : Memory.wfFrom lo m = true) {a : Nat} (h : a < lo) :
    Memory.get? m a = none := by
  induction m generalizing lo with
  | nil => rfl
  | cons c m ih =>
    simp only [Memory.wfFrom, Bool.and_eq_true, decide_eq_true_eq] at hw
    have : c.1 ≠ a := by omega
    simp only [Memory.get?, this, if_false]
    exact ih hw.2 (by omega)

end Sys2Proof.Machine
end

