-- ==== Sys2Proof/Laws/Frames.lean ====
section
/-! SUPPORT. What the procedures leave unchanged, said once per procedure: a procedure of the downstream port touches the
edge memories, the answers and the trace, and nothing else (but for what its own lemma names). -/

namespace Sys2Proof.Machine

/-- The state a procedure ends in, in success or in failure. -/
def Result.state {α : Type} : Result α → State
  | .ok _ s => s
  | .fail _ s => s

/-- The two states agree on all but the edge memories, the environment's answers and the trace. -/
structure SameButPort (s t : State) : Prop where
  apu     : t.apu = s.apu
  spu     : t.spu = s.spu
  od      : t.od = s.od
  cbEn    : t.cbEn = s.cbEn
  rom     : t.rom = s.rom
  ld      : t.ld = s.ld
  ldf     : t.ldf = s.ldf
  resOk   : t.resOk = s.resOk
  resBit  : t.resBit = s.resBit
  cause   : t.cause = s.cause
  data    : t.data = s.data
  buf     : t.buf = s.buf
  params  : t.params = s.params
  host    : t.host = s.host
  hostOut : t.hostOut = s.hostOut

theorem SameButPort.refl (s : State) : SameButPort s s :=
  ⟨rfl, rfl, rfl, rfl, rfl, rfl, rfl, rfl, rfl, rfl, rfl, rfl, rfl, rfl, rfl⟩

theorem SameButPort.trans {s t u : State} (h : SameButPort s t) (g : SameButPort t u) : SameButPort s u :=
  ⟨g.apu.trans h.apu, g.spu.trans h.spu, g.od.trans h.od, g.cbEn.trans h.cbEn, g.rom.trans h.rom, g.ld.trans h.ld,
    g.ldf.trans h.ldf, g.resOk.trans h.resOk, g.resBit.trans h.resBit, g.cause.trans h.cause, g.data.trans h.data,
    g.buf.trans h.buf, g.params.trans h.params, g.host.trans h.host, g.hostOut.trans h.hostOut⟩

theorem SameButPort.emitAnswer (s : State) (e : Event) : SameButPort s (s.dropAnswer.emit e) :=
  ⟨rfl, rfl, rfl, rfl, rfl, rfl, rfl, rfl, rfl, rfl, rfl, rfl, rfl, rfl, rfl⟩

theorem SameButPort.afterReads (s : State) (sts : List Byte) : SameButPort s (s.afterReads sts) :=
  ⟨rfl, rfl, rfl, rfl, rfl, rfl, rfl, rfl, rfl, rfl, rfl, rfl, rfl, rfl, rfl⟩

theorem Result.bind_state {α β : Type} {s : State} {r : Result α} {f : α → State → Result β}
    (h : SameButPort s r.state) (hf : ∀ x t, SameButPort t (f x t).state) : SameButPort s (r.bind f).state := by
  cases r with
  | ok x t => exact h.trans (hf x t)
  | fail c t => exact h

theorem prim_frame (p : Prim) (s : State) : SameButPort s (prim p s).state := by
  unfold prim; split_ifs <;> exact .emitAnswer s _

theorem readData_frame (s : State) : SameButPort s (readData s).state := by
  unfold readData; split_ifs <;> exact .emitAnswer s _

theorem waitBusy_frame (s : State) : SameButPort s (waitBusy s).state := by
  have h := waitBusy_outcome s
  generalize waitBusy s = r at h ⊢
  cases h with
  | idle p good ans => exact .afterReads s _
  | timeout busy len all ans =>
    unfold pollTimeout
    refine (SameButPort.afterReads s busy).trans ?_
    simp only [Result.state]
    split_ifs
    · exact .emitAnswer _ _
    · exact .refl _
  | denied busy len all ans no => exact (SameButPort.afterReads s busy).trans (.emitAnswer _ _)

theorem doBit_frame (b : Bool) (s : State) : SameButPort s (doBit b s).state :=
  Result.bind_state (prim_frame _ s) fun _ t => Result.bind_state (waitBusy_frame t) fun _ u => .refl u

theorem doWriteByte_frame (v : Byte) (s : State) : SameButPort s (doWriteByte v s).state :=
  Result.bind_state (prim_frame _ s) fun _ t => Result.bind_state (waitBusy_frame t) fun _ u => .refl u

theorem doReadByte_frame (s : State) : SameButPort s (doReadByte s).state :=
  Result.bind_state (prim_frame _ s) fun _ t => Result.bind_state (waitBusy_frame t) fun _ u => readData_frame u

theorem writeBytesFrom_frame (n k : Nat) (s : State) : SameButPort s (writeBytesFrom n k s).state := by
  induction n generalizing k s with
  | zero => exact .refl s
  | succ n ih => exact Result.bind_state (doWriteByte_frame _ s) fun _ t => ih (k + 1) t

/-- `RDBYTES`' loop writes only `BUF[k .. k+n-1]` besides the port. -/
theorem readBytesInto_frame (n k : Nat) (s : State) :
    SameButPort s { (readBytesInto n k s).state with buf := s.buf } ∧
      ∀ j, j < k ∨ k + n ≤ j → (readBytesInto n k s).state.bufAt j = s.bufAt j := by
  induction n generalizing k s with
  | zero => exact ⟨.refl s, fun _ _ => rfl⟩
  | succ n ih =>
    rw [readBytesInto]
    have h := doReadByte_frame s
    cases hr : doReadByte s with
    | fail c t =>
      rw [hr] at h
      exact ⟨{ h with buf := rfl }, fun j _ => by
        change Memory.read t.buf j = _
        rw [show t.buf = s.buf from h.buf]; rfl⟩
    | ok v t =>
      rw [hr] at h
      obtain ⟨f, g⟩ := ih (k + 1) (t.writeBuf k v)
      refine ⟨⟨f.apu.trans h.apu, f.spu.trans h.spu, f.od.trans h.od, f.cbEn.trans h.cbEn, f.rom.trans h.rom,
        f.ld.trans h.ld, f.ldf.trans h.ldf, f.resOk.trans h.resOk, f.resBit.trans h.resBit, f.cause.trans h.cause,
        f.data.trans h.data, rfl, f.params.trans h.params, f.host.trans h.host, f.hostOut.trans h.hostOut⟩,
        fun j hj => ?_⟩
      simp only [Result.bind]
      rw [g j (by omega)]
      unfold State.bufAt
      simp only [State.writeBuf, Memory.read]
      rw [show t.buf = s.buf from h.buf, Memory.get?_write, if_neg (by omega)]

theorem clearSpu_frame (s : State) : SameButPort s ((clearSpu s).state.setSpu s.spu) := by
  unfold clearSpu
  split_ifs
  · have h := prim_frame (.wcfg s.apu false s.od) s
    cases hr : prim (.wcfg s.apu false s.od) s <;> rw [hr] at h <;> exact { h with spu := rfl }
  · exact .refl s

theorem restoreSpu_frame (b : Bool) (s : State) : SameButPort s ((restoreSpu b s).state.setSpu s.spu) := by
  unfold restoreSpu
  split_ifs
  · have h := prim_frame (.wcfg s.apu true s.od) s
    cases hr : prim (.wcfg s.apu true s.od) s <;> rw [hr] at h <;> exact { h with spu := rfl }
  · exact .refl s

/-- Sequencing where `CFG.SPU` may be written. -/
theorem Result.bind_state_spu {α β : Type} {s : State} {r : Result α} {f : α → State → Result β}
    (h : SameButPort s (r.state.setSpu s.spu)) (hf : ∀ x t, SameButPort t ((f x t).state.setSpu t.spu)) :
    SameButPort s ((r.bind f).state.setSpu s.spu) := by
  cases r with
  | fail c t => exact h
  | ok x t =>
    have g := hf x t
    exact ⟨g.apu.trans h.apu, rfl, g.od.trans h.od, g.cbEn.trans h.cbEn, g.rom.trans h.rom, g.ld.trans h.ld,
      g.ldf.trans h.ldf, g.resOk.trans h.resOk, g.resBit.trans h.resBit, g.cause.trans h.cause, g.data.trans h.data,
      g.buf.trans h.buf, g.params.trans h.params, g.host.trans h.host, g.hostOut.trans h.hostOut⟩

theorem SameButPort.anySpu {s t : State} (h : SameButPort s t) : SameButPort s (t.setSpu s.spu) := { h with spu := rfl }

/-- `DoReset` writes `CFG.SPU` besides the port, and nothing else. -/
theorem doReset_frame (s : State) : SameButPort s ((doReset s).state.setSpu s.spu) :=
  Result.bind_state_spu (clearSpu_frame s) fun _ s1 =>
  Result.bind_state_spu (waitBusy_frame s1).anySpu fun _ s2 =>
  Result.bind_state_spu (prim_frame _ s2).anySpu fun _ s3 =>
  Result.bind_state_spu (waitBusy_frame s3).anySpu fun _ s4 =>
  Result.bind_state_spu (restoreSpu_frame _ s4) fun _ s5 => (SameButPort.refl s5).anySpu

/-- Agreement on all but the port, `CFG.SPU`, and the search state: what SEARCH's steps 2 to 5 keep. -/
structure SameButSearch (s t : State) : Prop where
  apu     : t.apu = s.apu
  od      : t.od = s.od
  cbEn    : t.cbEn = s.cbEn
  resOk   : t.resOk = s.resOk
  resBit  : t.resBit = s.resBit
  cause   : t.cause = s.cause
  data    : t.data = s.data
  buf     : t.buf = s.buf
  params  : t.params = s.params
  host    : t.host = s.host
  hostOut : t.hostOut = s.hostOut

theorem SameButSearch.refl (s : State) : SameButSearch s s := ⟨rfl, rfl, rfl, rfl, rfl, rfl, rfl, rfl, rfl, rfl, rfl⟩

theorem SameButSearch.trans {s t u : State} (h : SameButSearch s t) (g : SameButSearch t u) : SameButSearch s u :=
  ⟨g.apu.trans h.apu, g.od.trans h.od, g.cbEn.trans h.cbEn, g.resOk.trans h.resOk, g.resBit.trans h.resBit,
    g.cause.trans h.cause, g.data.trans h.data, g.buf.trans h.buf, g.params.trans h.params, g.host.trans h.host,
    g.hostOut.trans h.hostOut⟩

theorem SameButPort.search {s t : State} (h : SameButPort s t) : SameButSearch s t :=
  ⟨h.apu, h.od, h.cbEn, h.resOk, h.resBit, h.cause, h.data, h.buf, h.params, h.host, h.hostOut⟩

theorem Result.bind_state_search {α β : Type} {s : State} {r : Result α} {f : α → State → Result β}
    (h : SameButSearch s r.state) (hf : ∀ x t, SameButSearch t (f x t).state) : SameButSearch s (r.bind f).state := by
  cases r with
  | ok x t => exact h.trans (hf x t)
  | fail c t => exact h

theorem searchPresence_frame (s : State) : SameButSearch s (searchPresence s).state := by
  have h := doReset_frame s
  unfold searchPresence
  split <;> rename_i heq <;> rw [heq] at h <;>
    exact ⟨h.apu, h.od, h.cbEn, h.resOk, h.resBit, h.cause, h.data, h.buf, h.params, h.host, h.hostOut⟩

theorem searchBit_frame (i : Nat) (lz : BitVec 7) (s : State) : SameButSearch s (searchBit i lz s).state := by
  refine Result.bind_state_search (prim_frame _ s).search fun _ t => ?_
  refine Result.bind_state_search (waitBusy_frame t).search fun st u => ?_
  split_ifs <;> exact ⟨rfl, rfl, rfl, rfl, rfl, rfl, rfl, rfl, rfl, rfl, rfl⟩

theorem searchFrom_frame (n i : Nat) (lz : BitVec 7) (s : State) : SameButSearch s (searchFrom n i lz s).state := by
  induction n generalizing i lz s with
  | zero => exact .refl s
  | succ n ih => exact Result.bind_state_search (searchBit_frame i lz s) fun lz' t => ih (i + 1) lz' t

/-! ### Delivery into `BUF` -/

/-- Consecutive writes of `BUF` change nothing but `BUF`. -/
theorem writeBufFrom_eq (s : State) (k : Nat) (vs : List Byte) :
    s.writeBufFrom k vs = { s with buf := (s.writeBufFrom k vs).buf } := by
  induction vs generalizing s k with
  | nil => rfl
  | cons v vs ih => rw [State.writeBufFrom, ih]; rfl

/-- What each byte of `BUF` is after them. -/
theorem writeBufFrom_bufAt (s : State) (k j : Nat) (vs : List Byte) :
    (s.writeBufFrom k vs).bufAt j = if h : k ≤ j ∧ j < k + vs.length then vs[j - k]'(by omega) else s.bufAt j := by
  induction vs generalizing s k with
  | nil => simp [State.writeBufFrom]
  | cons v vs ih =>
    rw [State.writeBufFrom, ih]
    simp only [State.bufAt, State.writeBuf, Memory.read, Memory.get?_write, List.length_cons]
    by_cases c : j = k
    · subst c; simp
    · by_cases a : k + 1 ≤ j ∧ j < k + 1 + vs.length
      · rw [dif_pos a, dif_pos (by omega)]
        have : j - k = (j - (k + 1)) + 1 := by omega
        simp [this]
      · rw [dif_neg a, dif_neg (by omega), if_neg c]

end Sys2Proof.Machine
end

