-- ==== Sys2Proof/Laws/PerInstr.lean ====
section
/-! SUPPORT. Laws stated once per constructor of Instr. -/

namespace Sys2Proof.Laws.OpcodeField

open Sys2Proof

/-- The high byte of the command word is the command's opcode, one of 0x01 to 0x0E, and the low byte its operand
(spec/30_encoding.md R70, R73). -/
def Statement (i : Instr) : Prop :=
  opField (encode i) = opcodeOf i ∧ argField (encode i) = operandOf i ∧
    1 ≤ (opcodeOf i).toNat ∧ (opcodeOf i).toNat ≤ 14

theorem word_fields (op arg : Byte) : opField (op ++ arg) = op ∧ argField (op ++ arg) = arg := by
  constructor
  · ext j hj
    simp only [opField, BitVec.getElem_extractLsb', BitVec.getLsbD_append]
    rw [if_neg (by omega), Nat.add_sub_cancel_left, BitVec.getLsbD_eq_getElem hj]
  · ext j hj
    simp only [argField, BitVec.getElem_extractLsb', BitVec.getLsbD_append]
    rw [if_pos (by omega), Nat.zero_add, BitVec.getLsbD_eq_getElem hj]

theorem ofRange (i : Instr) (h : 1 ≤ (opcodeOf i).toNat ∧ (opcodeOf i).toNat ≤ 14) : Statement i :=
  ⟨(word_fields _ _).1, (word_fields _ _).2, h⟩

theorem reset : Statement .reset := ofRange _ (by decide)
theorem rdbit : Statement .rdbit := ofRange _ (by decide)
theorem wrbit (b : Bool) : Statement (.wrbit b) := ofRange _ (by simp [opcodeOf])
theorem rdbyte : Statement .rdbyte := ofRange _ (by decide)
theorem wrbyte (v : Byte) : Statement (.wrbyte v) := ofRange _ (by simp [opcodeOf])
theorem rdbytes (len : Byte) : Statement (.rdbytes len) := ofRange _ (by simp [opcodeOf])
theorem wrbytes (len : Byte) : Statement (.wrbytes len) := ofRange _ (by simp [opcodeOf])
theorem skip : Statement .skip := ofRange _ (by decide)
theorem select : Statement .select := ofRange _ (by decide)
theorem search : Statement .search := ofRange _ (by decide)
theorem rstsrch : Statement .rstsrch := ofRange _ (by decide)
theorem attach (b : Bool) : Statement (.attach b) := ofRange _ (by simp [opcodeOf])
theorem crc8 (len : Byte) : Statement (.crc8 len) := ofRange _ (by simp [opcodeOf])
theorem verify (len : Byte) : Statement (.verify len) := ofRange _ (by simp [opcodeOf])

end Sys2Proof.Laws.OpcodeField
end

