-- ==== Sys2Proof/Laws/Search.lean ====
section
/-! SUPPORT. The bits of the candidate address, and everything SEARCH's step 4 can end in: for one bit index and for the
whole loop. -/

namespace Sys2Proof.Machine

/-! ### Bits of the candidate address -/

theorem setBitOf_getLsbD (v : Byte) (k j : Nat) (b : Bool) (hk : k < 8) (hj : j < 8) :
    (setBitOf v k b).getLsbD j = if j = k then b else v.getLsbD j := by
  unfold setBitOf
  cases b <;> by_cases h : j = k
  · subst h; simp [hj]
  · have : ¬ (j < k ∧ False) := by simp
    rcases Nat.lt_or_gt_of_ne h with h1 | h1
    · simp [h, h1, hj]
    · have : j - k ≠ 0 := by omega
      simp [h, hj, this]
  · subst h; simp [hj]
  · rcases Nat.lt_or_gt_of_ne h with h1 | h1
    · simp [h, h1]
    · have : j - k ≠ 0 := by omega
      simp [h, this]

theorem romBit_withRomBit (rom : Vector Byte 8) (i j : Nat) (b : Bool) (hi : i < 64) (hj : j < 64) :
    romBit (withRomBit rom i b) j = if j = i then b else romBit rom j := by
  have h1 : i / 8 < 8 := by omega
  have h2 : j / 8 < 8 := by omega
  unfold romBit withRomBit
  by_cases hd : i / 8 = j / 8
  · rw [hd, Vector.getElem?_setIfInBounds_self_of_lt (by omega), Option.getD_some,
      setBitOf_getLsbD _ _ _ _ (Nat.mod_lt _ (by omega)) (Nat.mod_lt _ (by omega))]
    have : (j % 8 = i % 8) ↔ j = i := by omega
    simp only [this]
  · rw [Vector.getElem?_setIfInBounds_ne (by omega), if_neg (by rintro rfl; exact hd rfl)]

/-- Two addresses with the same 64 bits are equal. -/
theorem rom_ext {a b : Vector Byte 8} (h : ∀ i, i < 64 → romBit a i = romBit b i) : a = b := by
  ext k hk j hj
  have := h (8 * k + j) (by omega)
  unfold romBit at this
  rw [show (8 * k + j) / 8 = k by omega, show (8 * k + j) % 8 = j by omega, Vector.getElem?_eq_getElem hk,
    Vector.getElem?_eq_getElem hk] at this
  simpa [BitVec.getLsbD_eq_getElem hj] using this

/-! ### What a trace reports of its triplets and its pulse -/

theorem idleBytes_append_noPick {picks : Event → Bool} (es rest : List Event) (h : ∀ e ∈ es, picks e = false) :
    idleBytes picks false (es ++ rest) = idleBytes picks false rest := by
  induction es with
  | nil => rfl
  | cons e es ih =>
    have he := h e (by simp)
    have ih := ih fun x hx => h x (by simp [hx])
    rw [List.cons_append, idleBytes]
    cases hb : e.statusByte? <;> simp [he, ih]

theorem idleBytes_noPick {picks : Event → Bool} {es : List Event} (h : ∀ e ∈ es, picks e = false) :
    idleBytes picks false es = [] := by
  have := idleBytes_append_noPick es [] h
  rwa [List.append_nil] at this

theorem idleBytes_edge {picks : Event → Bool} (hn : ∀ k, picks (.notify k) = false) (pending : Bool) (k : FaultKind)
    (cb now seen : Bool) (rest : List Event) :
    idleBytes picks pending (edgeEvents k cb now seen ++ rest) = idleBytes picks pending rest := by
  unfold edgeEvents
  split_ifs <;> simp [idleBytes, Event.statusByte?, hn]

theorem idleBytes_busy {picks : Event → Bool} (hn : ∀ k, picks (.notify k) = false) (cb sd rst : Bool) (busy : List Byte)
    (rest : List Event) (h : ∀ b ∈ busy, statusBusy b = true) :
    idleBytes picks true (readEvents cb sd rst busy ++ rest) = idleBytes picks true rest := by
  induction busy generalizing sd rst with
  | nil => rfl
  | cons b bs ih =>
    simp only [readEvents, List.cons_append, List.append_assoc, idleBytes, Event.statusByte?]
    simp [h b (by simp), idleBytes_edge hn, ih _ _ fun x hx => h x (by simp [hx])]

theorem idleBytes_poll {picks : Event → Bool} (hn : ∀ k, picks (.notify k) = false) (cb sd rst : Bool) (p : Poll)
    (rest : List Event) {m : Nat} (h : p.good m = true) :
    idleBytes picks true (readEvents cb sd rst p.bytes ++ rest) = p.idle :: idleBytes picks false rest := by
  simp only [Poll.good, Bool.and_eq_true, List.all_eq_true, Bool.not_eq_true'] at h
  rw [Poll.bytes, readEvents_append, List.append_assoc, idleBytes_busy hn _ _ _ _ _ h.1.1]
  simp [readEvents, idleBytes, Event.statusByte?, h.1.2, idleBytes_edge hn, List.append_assoc]

theorem tripletBytes_noTriplet (es rest : List Event) (h : ∀ e ∈ es, e.tripletDir? = none) :
    tripletBytes false (es ++ rest) = tripletBytes false rest :=
  idleBytes_append_noPick es rest fun e he => by simp [Event.isTriplet, h e he]

theorem tripletBytes_busy (cb sd rst : Bool) (busy : List Byte) (rest : List Event)
    (h : ∀ b ∈ busy, statusBusy b = true) :
    tripletBytes true (readEvents cb sd rst busy ++ rest) = tripletBytes true rest :=
  idleBytes_busy (fun _ => rfl) _ _ _ _ _ h

theorem tripletBytes_poll (cb sd rst : Bool) (p : Poll) (rest : List Event) {m : Nat} (h : p.good m = true) :
    tripletBytes true (readEvents cb sd rst p.bytes ++ rest) = p.idle :: tripletBytes false rest :=
  idleBytes_poll (fun _ => rfl) _ _ _ _ _ h

/-- A triplet opens its poll. -/
theorem tripletBytes_triplet (w d ok : Bool) (es : List Event) :
    tripletBytes w (.prim (.wt d) ok :: es) = tripletBytes true es := by
  simp [tripletBytes, idleBytes, Event.statusByte?, Event.isTriplet, Event.tripletDir?]

theorem readEvents_noTriplet (cb sd rst : Bool) (sts : List Byte) :
    (readEvents cb sd rst sts).filterMap Event.tripletDir? = [] := by
  induction sts generalizing sd rst with
  | nil => rfl
  | cons st sts ih =>
    have he : ∀ k now seen, (edgeEvents k cb now seen).filterMap Event.tripletDir? = [] := fun k now seen => by
      unfold edgeEvents; split_ifs <;> rfl
    simp only [readEvents, List.filterMap_cons, List.filterMap_append, he, ih]
    rfl

/-! ### One bit index -/

/-- Everything step 4 can end in at one bit index: the request failed, a collision, or the bit is stored. -/
inductive SearchBitOutcome (i : Nat) (lz : BitVec 7) (s : State) : Result (BitVec 7) → Prop where
  | failed (c : Cause) (t : State) (es : List Event) (hc : c = .transport ∨ c = .busyTimeout) (same : SameButPort s t)
      (trace : t.trace = s.trace ++ es) (reps : tripletBytes false es = [])
      (dirs : es.filterMap Event.tripletDir? = [requestedDir s.rom s.ld i]) : SearchBitOutcome i lz s (.fail c t)
  | collision (st : Byte) (t : State) (es : List Event) (same : SameButPort s t) (trace : t.trace = s.trace ++ es)
      (both : tripletCollision st = true) (reps : tripletBytes false es = [st])
      (dirs : es.filterMap Event.tripletDir? = [requestedDir s.rom s.ld i]) :
      SearchBitOutcome i lz s (.fail .collision t.resetSearch)
  | stored (st : Byte) (t : State) (es : List Event) (same : SameButPort s t) (trace : t.trace = s.trace ++ es)
      (no : tripletCollision st = false)
      (reps : ∀ rest, tripletBytes false (es ++ rest) = st :: tripletBytes false rest)
      (dirs : es.filterMap Event.tripletDir? = [requestedDir s.rom s.ld i]) :
      SearchBitOutcome i lz s
        (.ok (if tripletZeroTaken st then BitVec.ofNat 7 i else lz) (t.setRomBit i (statusDIR st)))

theorem searchBit_outcome (i : Nat) (lz : BitVec 7) (s : State) : SearchBitOutcome i lz s (searchBit i lz s) := by
  unfold searchBit
  obtain ⟨d, hd⟩ : ∃ d, d = requestedDir s.rom s.ld i := ⟨_, rfl⟩
  rw [← hd]
  by_cases hok : s.nextAnswer.ok = true
  · have hp : prim (.wt d) s = .ok () (s.dropAnswer.emit (.prim (.wt d) true)) := by simp [prim, hok]
    rw [hp, Result.ok_bind]
    obtain ⟨s1, hs1⟩ : ∃ s1, s1 = s.dropAnswer.emit (.prim (.wt d) true) := ⟨_, rfl⟩
    rw [← hs1]
    have f1 : SameButPort s s1 := hs1 ▸ .emitAnswer s _
    have t1 : s1.trace = s.trace ++ [.prim (.wt d) true] := by rw [hs1]; rfl
    have h := waitBusy_outcome s1
    generalize waitBusy s1 = r at h
    cases h with
    | idle p good ans =>
      have f2 := f1.trans (.afterReads s1 p.bytes)
      have t2 : (s1.afterReads p.bytes).trace =
          s.trace ++ (.prim (.wt d) true :: readEvents s1.cbEn s1.sdSeen s1.rstSeen p.bytes) := by
        simp [State.afterReads, t1]
      have hdirs : (Event.prim (.wt d) true :: readEvents s1.cbEn s1.sdSeen s1.rstSeen p.bytes).filterMap
          Event.tripletDir? = [requestedDir s.rom s.ld i] := by
        simp [Event.tripletDir?, readEvents_noTriplet, hd]
      rw [Result.ok_bind]
      split_ifs with hcol
      · exact .collision p.idle _ _ f2 t2 hcol (by
          rw [tripletBytes_triplet, ← List.append_nil (readEvents _ _ _ _)]
          exact tripletBytes_poll _ _ _ p [] good) hdirs
      all_goals
        have := SearchBitOutcome.stored (i := i) (lz := lz) p.idle _ _ f2 t2 (by simpa using hcol) (fun rest => by
          rw [List.cons_append, tripletBytes_triplet]
          exact tripletBytes_poll _ _ _ p rest good) hdirs
        simp_all
    | timeout busy len all ans =>
      have f2 := f1.trans (.afterReads s1 busy)
      rw [pollTimeout, Result.fail_bind]
      by_cases hdr : (s1.afterReads busy).params.timeoutDrst = true
      · rw [if_pos hdr]
        refine .failed _ _ (.prim (.wt d) true :: readEvents s1.cbEn s1.sdSeen s1.rstSeen busy ++
          [.prim .drst (s1.afterReads busy).nextAnswer.ok]) (.inr rfl) (f2.trans (.emitAnswer _ _))
          (by simp [primIgnored, State.afterReads, t1]) ?_ ?_
        · rw [List.cons_append, tripletBytes_triplet, tripletBytes_busy _ _ _ _ _ all]; rfl
        · simp [Event.tripletDir?, readEvents_noTriplet, hd]
      · rw [if_neg hdr]
        refine .failed _ _ (.prim (.wt d) true :: readEvents s1.cbEn s1.sdSeen s1.rstSeen busy) (.inr rfl) f2
          (by simp [State.afterReads, t1]) ?_ (by simp [Event.tripletDir?, readEvents_noTriplet, hd])
        rw [tripletBytes_triplet, ← List.append_nil (readEvents _ _ _ _), tripletBytes_busy _ _ _ _ _ all]; rfl
    | denied busy len all ans no =>
      rw [Result.fail_bind]
      refine .failed _ _ (.prim (.wt d) true :: readEvents s1.cbEn s1.sdSeen s1.rstSeen busy ++ [.status none]) (.inl rfl)
        ((f1.trans (.afterReads s1 busy)).trans (.emitAnswer _ _)) (by simp [State.afterReads, t1]) ?_
        (by simp [Event.tripletDir?, readEvents_noTriplet, hd])
      rw [List.cons_append, tripletBytes_triplet, tripletBytes_busy _ _ _ _ _ all]; rfl
  · have hp : prim (.wt d) s = .fail .transport (s.dropAnswer.emit (.prim (.wt d) false)) := by simp [prim, hok]
    rw [hp, Result.fail_bind]
    exact .failed _ _ [.prim (.wt d) false] (.inl rfl) (.emitAnswer s _) rfl rfl (by simp [Event.tripletDir?, hd])

/-! ### The loop -/

/-- The candidate address with the bits `bs` stored from index `i` upward. -/
def storeBits (rom : Vector Byte 8) : Nat → List Bool → Vector Byte 8
  | _, [] => rom
  | i, b :: bs => storeBits (withRomBit rom i b) (i + 1) bs

theorem romBit_storeBits (rom : Vector Byte 8) (i j : Nat) (bs : List Bool) (hi : i + bs.length ≤ 64) (hj : j < 64) :
    romBit (storeBits rom i bs) j =
      if h : i ≤ j ∧ j < i + bs.length then bs[j - i]'(by omega) else romBit rom j := by
  induction bs generalizing rom i with
  | nil => simp [storeBits]
  | cons b bs ih =>
    rw [storeBits, ih _ _ (by simp at hi; omega), romBit_withRomBit _ _ _ _ (by simp at hi; omega) hj]
    simp only [List.length_cons] at hi ⊢
    split_ifs with h1 h2 h2 h3 h3
    · have : j - i = (j - (i + 1)) + 1 := by omega
      simp [this]
    · omega
    · subst h2; simp
    · omega
    · omega
    · rfl

/-- The requested direction at an index from `i` upward does not see the bits stored below. -/
theorem requestedDir_storeBits (rom : Vector Byte 8) (ld : BitVec 7) (i j : Nat) (bs : List Bool)
    (hi : i + bs.length ≤ 64) (hj : j < 64) (h : j < i ∨ i + bs.length ≤ j) :
    requestedDir (storeBits rom i bs) ld j = requestedDir rom ld j := by
  unfold requestedDir
  rw [romBit_storeBits _ _ _ _ hi hj, dif_neg (by omega)]

/-- `last_zero` after the reported bytes `sts` from index `i` upward (R134, 4d). -/
def lastZeroFrom : Nat → BitVec 7 → List Byte → BitVec 7
  | _, lz, [] => lz
  | i, lz, st :: sts => lastZeroFrom (i + 1) (if tripletZeroTaken st then BitVec.ofNat 7 i else lz) sts

/-- `last_zero` is the largest index at which both branches existed and 0 was taken, or what it was if there is none. -/
theorem lastZeroFrom_spec (sts : List Byte) (i : Nat) (lz : BitVec 7) (hi : i + sts.length ≤ 64) (hlz : lz.toNat ≤ i) :
    (∀ j (h : j < sts.length), tripletZeroTaken sts[j] = true → i + j ≤ (lastZeroFrom i lz sts).toNat) ∧
      lz.toNat ≤ (lastZeroFrom i lz sts).toNat ∧
      (lastZeroFrom i lz sts = lz ∨
        ∃ j, ∃ h : j < sts.length, tripletZeroTaken sts[j] = true ∧ (lastZeroFrom i lz sts).toNat = i + j) := by
  induction sts generalizing i lz with
  | nil => simp [lastZeroFrom]
  | cons st sts ih =>
    simp only [lastZeroFrom]
    simp only [List.length_cons] at hi
    have e : (BitVec.ofNat 7 i).toNat = i := by rw [BitVec.toNat_ofNat]; omega
    obtain ⟨h1, h2, h3⟩ := ih (i + 1) (if tripletZeroTaken st then BitVec.ofNat 7 i else lz) (by omega)
      (by split_ifs <;> omega)
    by_cases hz : tripletZeroTaken st = true
    · rw [if_pos hz] at h1 h2 h3 ⊢
      rw [e] at h2
      refine ⟨?_, by omega, .inr ?_⟩
      · intro j hj hj2
        cases j with
        | zero => exact h2
        | succ j => have := h1 j (by simpa using hj) (by simpa using hj2); omega
      · rcases h3 with h3 | ⟨j, hj, h4, h5⟩
        · exact ⟨0, by simp, by simpa using hz, by rw [h3, e]; rfl⟩
        · exact ⟨j + 1, by simpa using hj, by simpa using h4, by omega⟩
    · rw [if_neg hz] at h1 h2 h3 ⊢
      refine ⟨?_, h2, ?_⟩
      · intro j hj hj2
        cases j with
        | zero => exact absurd hj2 hz
        | succ j => have := h1 j (by simpa using hj) (by simpa using hj2); omega
      · rcases h3 with h3 | ⟨j, hj, h4, h5⟩
        · exact .inl h3
        · exact .inr ⟨j + 1, by simpa using hj, by simpa using h4, by omega⟩

/-- Everything step 4 can end in over `n` bit indices from `i` upward. -/
inductive SearchFromOutcome (n i : Nat) (lz : BitVec 7) (s : State) : Result (BitVec 7) → Prop where
  | failed (c : Cause) (t : State) (es : List Event) (sts : List Byte) (hc : c = .transport ∨ c = .busyTimeout)
      (hlen : sts.length < n) (same : SameButPort { s with rom := storeBits s.rom i (sts.map statusDIR) } t)
      (trace : t.trace = s.trace ++ es) (reps : tripletBytes false es = sts)
      (no : ∀ st ∈ sts, tripletCollision st = false)
      (dirs : es.filterMap Event.tripletDir? = (List.range' i (sts.length + 1)).map (requestedDir s.rom s.ld)) :
      SearchFromOutcome n i lz s (.fail c t)
  | collision (sts : List Byte) (last : Byte) (hlen : sts.length < n) (t : State) (es : List Event)
      (trace : t.trace = s.trace ++ es) (reps : tripletBytes false es = sts ++ [last])
      (no : ∀ st ∈ sts, tripletCollision st = false) (both : tripletCollision last = true)
      (dirs : es.filterMap Event.tripletDir? = (List.range' i (sts.length + 1)).map (requestedDir s.rom s.ld))
      (rom : t.rom = Vector.replicate 8 0) (ld : t.ld = 0) (ldf : t.ldf = false) :
      SearchFromOutcome n i lz s (.fail .collision t)
  | stored (sts : List Byte) (t : State) (es : List Event) (hlen : sts.length = n)
      (same : SameButPort { s with rom := storeBits s.rom i (sts.map statusDIR) } t)
      (trace : t.trace = s.trace ++ es)
      (reps : ∀ rest, tripletBytes false (es ++ rest) = sts ++ tripletBytes false rest)
      (no : ∀ st ∈ sts, tripletCollision st = false)
      (dirs : es.filterMap Event.tripletDir? = (List.range' i n).map (requestedDir s.rom s.ld)) :
      SearchFromOutcome n i lz s (.ok (lastZeroFrom i lz sts) t)

theorem requestedDirs_afterStore (rom : Vector Byte 8) (ld : BitVec 7) (i m : Nat) (b : Bool) (h : i + 1 + m ≤ 64) :
    (List.range' (i + 1) m).map (requestedDir (withRomBit rom i b) ld) =
      (List.range' (i + 1) m).map (requestedDir rom ld) := by
  refine List.map_congr_left fun j hj => ?_
  rw [List.mem_range'_1] at hj
  exact requestedDir_storeBits rom ld i j [b] (by simp; omega) (by omega) (.inr (by simp; omega))

theorem searchFrom_outcome (n i : Nat) (lz : BitVec 7) (s : State) (hn : i + n ≤ 64) :
    SearchFromOutcome n i lz s (searchFrom n i lz s) := by
  induction n generalizing i lz s with
  | zero => exact .stored [] s [] rfl (.refl s) (by simp) (fun _ => rfl) (by simp) rfl
  | succ n ih =>
    rw [searchFrom]
    have h1 := searchBit_outcome i lz s
    generalize searchBit i lz s = r at h1
    cases h1 with
    | failed c t es hc same trace reps dirs =>
      exact .failed c t es [] hc (by simp) same trace reps (by simp) (by simpa using dirs)
    | collision st t es same trace both reps dirs =>
      exact .collision [] st (by simp) _ es trace reps (by simp) both (by simpa using dirs) rfl rfl rfl
    | stored st t es same trace no reps dirs =>
      rw [Result.ok_bind]
      have hrom : (t.setRomBit i (statusDIR st)).rom = withRomBit s.rom i (statusDIR st) := by
        simp [same.rom]
      have hld : (t.setRomBit i (statusDIR st)).ld = s.ld := same.ld
      have htr : (t.setRomBit i (statusDIR st)).trace = s.trace ++ es := trace
      have h2 := ih (i + 1) (if tripletZeroTaken st then BitVec.ofNat 7 i else lz) (t.setRomBit i (statusDIR st))
        (by omega)
      generalize searchFrom n (i + 1) (if tripletZeroTaken st then BitVec.ofNat 7 i else lz)
        (t.setRomBit i (statusDIR st)) = r2 at h2
      have hdirs : ∀ m, i + 1 + m ≤ 64 →
          es.filterMap Event.tripletDir? ++ (List.range' (i + 1) m).map
            (requestedDir (t.setRomBit i (statusDIR st)).rom (t.setRomBit i (statusDIR st)).ld) =
          (List.range' i (m + 1)).map (requestedDir s.rom s.ld) := fun m hm => by
        rw [dirs, hrom, hld, requestedDirs_afterStore _ _ _ _ _ hm, List.range'_succ]; rfl
      cases h2 with
      | failed c u es2 sts hc hlen same2 trace2 reps2 no2 dirs2 =>
        refine .failed c u (es ++ es2) (st :: sts) hc (by simpa using hlen) ?_
          (by rw [trace2, htr, List.append_assoc]) (by rw [reps, reps2]) (by simpa [no] using no2) (by
            rw [List.filterMap_append, dirs2]; exact hdirs (sts.length + 1) (by omega))
        refine SameButPort.trans (t := { (t.setRomBit i (statusDIR st)) with
          rom := storeBits (t.setRomBit i (statusDIR st)).rom (i + 1) (sts.map statusDIR) }) ?_ same2
        rw [hrom]; exact { same with rom := rfl }
      | collision sts last hlen u es2 trace2 reps2 no2 both dirs2 rom ld ldf =>
        exact .collision (st :: sts) last (by simpa using hlen) u (es ++ es2) (by rw [trace2, htr, List.append_assoc])
          (by rw [reps, reps2]; rfl) (by simpa [no] using no2) both (by
          rw [List.filterMap_append, dirs2]; exact hdirs (sts.length + 1) (by omega)) rom ld ldf
      | stored sts u es2 hlen same2 trace2 reps2 no2 dirs2 =>
        refine .stored (st :: sts) u (es ++ es2) (by simp [hlen]) ?_ (by rw [trace2, htr, List.append_assoc])
          (fun rest => by rw [List.append_assoc, reps, reps2]; rfl) (by simpa [no] using no2) (by
            rw [List.filterMap_append, dirs2]; exact hdirs n (by omega))
        refine SameButPort.trans (t := { (t.setRomBit i (statusDIR st)) with
          rom := storeBits (t.setRomBit i (statusDIR st)).rom (i + 1) (sts.map statusDIR) }) ?_ same2
        rw [hrom]; exact { same with rom := rfl }

/-- The loop under given answers without a collision. -/
theorem searchFrom_exchanges (xs : List Exchange) (i : Nat) (lz : BitVec 7) (s : State) (hn : i + xs.length ≤ 64)
    (h : s.Answers (xs.flatMap Exchange.answers)) (hx : ∀ x ∈ xs, x.good s.params.pollMax = true)
    (hc : ∀ x ∈ xs, tripletCollision x.poll.idle = false) :
    searchFrom xs.length i lz s =
      .ok (lastZeroFrom i lz (xs.map (·.poll.idle)))
        { s.afterExchanges (((List.range' i xs.length).map fun j => Prim.wt (requestedDir s.rom s.ld j)).zip xs) with
          rom := storeBits s.rom i (xs.map fun x => statusDIR x.poll.idle) } := by
  induction xs generalizing i lz s with
  | nil => simp [searchFrom, lastZeroFrom, storeBits]
  | cons x xs ih =>
    rw [List.flatMap_cons, State.Answers.append] at h
    have hb : searchBit i lz s = .ok (if tripletZeroTaken x.poll.idle then BitVec.ofNat 7 i else lz)
        ((s.afterExchanges [(.wt (requestedDir s.rom s.ld i), x)]).setRomBit i (statusDIR x.poll.idle)) := by
      have := primPoll_exchange (.wt (requestedDir s.rom s.ld i)) h.1 (hx x (by simp))
      unfold searchBit
      cases hp : prim (.wt (requestedDir s.rom s.ld i)) s with
      | fail c t => rw [hp] at this; cases this
      | ok a t =>
        rw [hp, Result.ok_bind] at this
        rw [Result.ok_bind, this, Result.ok_bind, if_neg (by simp [hc x (by simp)])]
    rw [List.length_cons, searchFrom, hb, Result.ok_bind,
      ih (i + 1) _ ((s.afterExchanges [(.wt (requestedDir s.rom s.ld i), x)]).setRomBit i (statusDIR x.poll.idle))
        (by simp at hn; omega)
        ((State.Answers.congr (s := s.consumed x.answers.length) (by simp [State.afterExchanges, exchangeAnswers,
          State.consumed]) (by simp [State.afterExchanges, exchangeAnswers, State.consumed])).2 h.2)
        (fun y hy => hx y (by simp [hy])) (fun y hy => hc y (by simp [hy]))]
    have hd : ((List.range' (i + 1) xs.length).map fun j => Prim.wt (requestedDir
        ((s.afterExchanges [(.wt (requestedDir s.rom s.ld i), x)]).setRomBit i (statusDIR x.poll.idle)).rom s.ld j)) =
        (List.range' (i + 1) xs.length).map fun j => Prim.wt (requestedDir s.rom s.ld j) := by
      refine List.map_congr_left fun j hj => ?_
      rw [List.mem_range'_1] at hj
      congr 1
      exact requestedDir_storeBits s.rom s.ld i j [statusDIR x.poll.idle] (by simp at hn ⊢; omega)
        (by simp at hn; omega) (.inr (by simp; omega))
    congr 1
    have ha := State.afterExchanges_append s [(.wt (requestedDir s.rom s.ld i), x)]
      (((List.range' (i + 1) xs.length).map fun j => Prim.wt (requestedDir s.rom s.ld j)).zip xs)
    rw [List.range'_succ, List.map_cons, List.zip_cons_cons]
    rw [show ((s.afterExchanges [(.wt (requestedDir s.rom s.ld i), x)]).setRomBit i (statusDIR x.poll.idle)).ld = s.ld
      from rfl, hd]
    simp only [List.singleton_append] at ha
    rw [← ha]
    rfl

end Sys2Proof.Machine
end

