-- ==== Sys2Proof/Laws/Presence.lean ====
section
/-! SUPPORT. Which primitives a procedure issues: each procedure is without every other (`Without`), and the 1-Wire reset that
`DoReset` issues reports one status byte, which decides the presence bit. -/

namespace Sys2Proof.Machine

/-- `picks` picks among the primitives only, and not the recovery `P_DRST`. -/
structure PicksPrims (picks : Event → Bool) : Prop where
  status : ∀ st, picks (.status st) = false
  data   : ∀ v, picks (.data v) = false
  notify : ∀ k, picks (.notify k) = false
  drst   : ∀ ok, picks (.prim .drst ok) = false

theorem picksPrims_pulse : PicksPrims Event.isPulse := ⟨fun _ => rfl, fun _ => rfl, fun _ => rfl, fun _ => rfl⟩

theorem picksPrims_triplet : PicksPrims Event.isTriplet :=
  ⟨fun st => by cases st <;> rfl, fun v => by cases v <;> rfl, fun _ => rfl, fun _ => rfl⟩

/-- The procedure result `r`, started in `s`, adds no event that `picks` picks. -/
def Without {α : Type} (picks : Event → Bool) (s : State) (r : Result α) : Prop :=
  ∃ es, r.state.trace = s.trace ++ es ∧ ∀ e ∈ es, picks e = false

section
variable {picks : Event → Bool}

theorem Without.bind {α β : Type} {s : State} {r : Result α} {f : α → State → Result β} (h : Without picks s r)
    (hf : ∀ a t, Without picks t (f a t)) : Without picks s (r.bind f) := by
  obtain ⟨es, h1, h2⟩ := h
  cases r with
  | fail c t => exact ⟨es, h1, h2⟩
  | ok a t =>
    obtain ⟨es', g1, g2⟩ := hf a t
    refine ⟨es ++ es', ?_, fun e he => (List.mem_append.1 he).elim (h2 e) (g2 e)⟩
    rw [Result.ok_bind, g1, show t.trace = _ from h1, List.append_assoc]

theorem Without.ok {α : Type} (a : α) {s t : State} (h : t.trace = s.trace) : Without picks s (.ok a t) :=
  ⟨[], by simp [Result.state, h], by simp⟩

theorem Without.fail {α : Type} (c : Cause) {s t : State} (h : t.trace = s.trace) :
    Without (α := α) picks s (.fail c t) :=
  ⟨[], by simp [Result.state, h], by simp⟩

theorem Without.prim {p : Prim} (s : State) (hp : ∀ ok, picks (.prim p ok) = false) :
    Without picks s (Machine.prim p s) := by
  unfold Machine.prim
  split_ifs <;> exact ⟨[_], rfl, by simpa using hp _⟩

theorem readEvents_without (h : PicksPrims picks) (cb sd rst : Bool) (sts : List Byte) :
    ∀ e ∈ readEvents cb sd rst sts, picks e = false := by
  induction sts generalizing sd rst with
  | nil => simp [readEvents]
  | cons st sts ih =>
    have he : ∀ k now seen, ∀ e ∈ edgeEvents k cb now seen, picks e = false := fun k now seen e h => by
      unfold edgeEvents at h; split_ifs at h <;> simp_all [PicksPrims.notify]
    intro e hm
    simp only [readEvents, List.mem_cons, List.mem_append] at hm
    rcases hm with rfl | (hm | hm) | hm
    · exact h.status _
    · exact he _ _ _ e hm
    · exact he _ _ _ e hm
    · exact ih _ _ e hm

theorem Without.waitBusy (hq : PicksPrims picks) (s : State) : Without picks s (Machine.waitBusy s) := by
  have h := waitBusy_outcome s
  have reads := readEvents_without hq s.cbEn s.sdSeen s.rstSeen
  have one : ∀ busy e, picks e = false → ∀ x ∈ readEvents s.cbEn s.sdSeen s.rstSeen busy ++ [e], picks x = false :=
    fun busy e he x hx => (List.mem_append.1 hx).elim (reads busy x) fun h => by rw [List.mem_singleton.1 h]; exact he
  generalize Machine.waitBusy s = r at h
  cases h with
  | idle p => exact ⟨_, rfl, reads _⟩
  | timeout busy =>
    unfold pollTimeout
    split_ifs
    · exact ⟨readEvents s.cbEn s.sdSeen s.rstSeen busy ++ [.prim .drst (s.afterReads busy).nextAnswer.ok],
        by simp [Result.state, primIgnored, State.afterReads], one busy _ (hq.drst _)⟩
    · exact ⟨_, rfl, reads _⟩
  | denied busy =>
    exact ⟨readEvents s.cbEn s.sdSeen s.rstSeen busy ++ [.status none], by simp [Result.state, State.afterReads],
      one busy _ (hq.status none)⟩

theorem Without.readData (hq : PicksPrims picks) (s : State) : Without picks s (Machine.readData s) := by
  unfold Machine.readData
  split_ifs <;> exact ⟨[_], rfl, by simpa using hq.data _⟩

theorem Without.doBit (hq : PicksPrims picks) {b : Bool} (s : State) (hp : ∀ ok, picks (.prim (.wsb b) ok) = false) :
    Without picks s (Machine.doBit b s) :=
  (Without.prim s hp).bind fun _ s1 => (Without.waitBusy hq s1).bind fun _ _ => .ok _ rfl

theorem Without.doWriteByte (hq : PicksPrims picks) {v : Byte} (s : State)
    (hp : ∀ ok, picks (.prim (.wwb v) ok) = false) : Without picks s (Machine.doWriteByte v s) :=
  (Without.prim s hp).bind fun _ s1 => (Without.waitBusy hq s1).bind fun _ _ => .ok _ rfl

theorem Without.doReadByte (hq : PicksPrims picks) (s : State) (hp : ∀ ok, picks (.prim .wrb ok) = false) :
    Without picks s (Machine.doReadByte s) :=
  (Without.prim s hp).bind fun _ s1 => (Without.waitBusy hq s1).bind fun _ s2 => .readData hq s2

theorem Without.writeBytesFrom (hq : PicksPrims picks) (hp : ∀ v ok, picks (.prim (.wwb v) ok) = false) (n k : Nat)
    (s : State) : Without picks s (Machine.writeBytesFrom n k s) := by
  induction n generalizing k s with
  | zero => exact .ok _ rfl
  | succ n ih => exact (Without.doWriteByte hq s (hp _)).bind fun _ t => ih _ t

theorem Without.readBytesInto (hq : PicksPrims picks) (hp : ∀ ok, picks (.prim .wrb ok) = false) (n k : Nat)
    (s : State) : Without picks s (Machine.readBytesInto n k s) := by
  induction n generalizing k s with
  | zero => exact .ok _ rfl
  | succ n ih => exact (Without.doReadByte hq s hp).bind fun v t => ih (k + 1) (t.writeBuf k v)

theorem Without.searchBit (hq : PicksPrims picks) (hp : ∀ d ok, picks (.prim (.wt d) ok) = false) (i : Nat)
    (lz : BitVec 7) (s : State) : Without picks s (Machine.searchBit i lz s) := by
  refine (Without.prim s (hp _)).bind fun _ s1 => (Without.waitBusy hq s1).bind fun st t => ?_
  split_ifs
  · exact .fail _ rfl
  all_goals exact .ok _ rfl

theorem Without.searchFrom (hq : PicksPrims picks) (hp : ∀ d ok, picks (.prim (.wt d) ok) = false) (n i : Nat)
    (lz : BitVec 7) (s : State) : Without picks s (Machine.searchFrom n i lz s) := by
  induction n generalizing i lz s with
  | zero => exact .ok _ rfl
  | succ n ih => exact (Without.searchBit hq hp i lz s).bind fun lz t => ih _ lz t

theorem Without.clearSpu (s : State) (hp : ∀ a b c ok, picks (.prim (.wcfg a b c) ok) = false) :
    Without picks s (Machine.clearSpu s) := by
  unfold Machine.clearSpu
  split_ifs
  · exact (Without.prim s (hp _ _ _)).bind fun _ _ => .ok _ rfl
  · exact .ok _ rfl

theorem Without.restoreSpu (b : Bool) (s : State) (hp : ∀ a b c ok, picks (.prim (.wcfg a b c) ok) = false) :
    Without picks s (Machine.restoreSpu b s) := by
  unfold Machine.restoreSpu
  split_ifs
  · exact (Without.prim s (hp _ _ _)).bind fun _ _ => .ok _ rfl
  · exact .ok _ rfl

theorem Without.doReset (hq : PicksPrims picks) (s : State) (h1 : ∀ a b c ok, picks (.prim (.wcfg a b c) ok) = false)
    (h2 : ∀ ok, picks (.prim .wrs ok) = false) : Without picks s (Machine.doReset s) :=
  (Without.clearSpu s h1).bind fun _ s1 => (Without.waitBusy hq s1).bind fun _ s2 => (Without.prim s2 h2).bind fun _ s3 =>
    (Without.waitBusy hq s3).bind fun _ s4 => (Without.restoreSpu _ s4 h1).bind fun _ _ => .ok _ rfl

/-- Events without a picked one report no idle byte. -/
theorem Without.idleBytes {α : Type} {s : State} {r : Result α} (h : Without picks s r) {es : List Event}
    (he : r.state.trace = s.trace ++ es) (rest : List Event) :
    idleBytes picks false (es ++ rest) = Machine.idleBytes picks false rest := by
  obtain ⟨es', h1, h2⟩ := h
  rw [h1] at he
  rw [← List.append_cancel_left he]
  exact idleBytes_append_noPick es' rest h2

end

/-- Everything `DoReset` reports of its pulse: one status byte, whose PPD it answers; none where it fails, unless it was the
restoring configuration write that failed (R106). -/
inductive ResetReport (s : State) : Result Bool → Prop where
  | reported (st : Byte) (t : State) (es : List Event) (trace : t.trace = s.trace ++ es)
      (pulse : ∀ rest, pulseBytes false (es ++ rest) = st :: pulseBytes false rest) :
      ResetReport s (.ok (statusPPD st) t)
  | failed (c : Cause) (t : State) (es : List Event) (trace : t.trace = s.trace ++ es)
      (pulse : pulseBytes false es = [] ∨ c = .transport) : ResetReport s (.fail c t)

/-- The pulse and its poll. -/
theorem pulsePoll_report (s : State) :
    (∃ st t es, ((prim .wrs s).bind fun _ s1 => waitBusy s1) = .ok st t ∧ t.trace = s.trace ++ es ∧
      ∀ rest, pulseBytes false (es ++ rest) = st :: pulseBytes false rest) ∨
    (∃ c t es, ((prim .wrs s).bind fun _ s1 => waitBusy s1) = .fail c t ∧ t.trace = s.trace ++ es ∧
      pulseBytes false es = []) := by
  have hn : ∀ k, Event.isPulse (.notify k) = false := fun _ => rfl
  have open_ : ∀ ok es, pulseBytes false (.prim .wrs ok :: es) = pulseBytes true es := fun ok es => by
    simp [pulseBytes, idleBytes, Event.statusByte?, Event.isPulse]
  by_cases hok : s.nextAnswer.ok = true
  · rw [prim, if_pos hok, Result.ok_bind]
    obtain ⟨u, hu⟩ : ∃ u, u = s.dropAnswer.emit (.prim .wrs true) := ⟨_, rfl⟩
    have ut : u.trace = s.trace ++ [.prim .wrs true] := by rw [hu]; rfl
    rw [← hu]
    have h := waitBusy_outcome u
    generalize waitBusy u = r at h
    cases h with
    | idle p good =>
      refine .inl ⟨_, _, .prim .wrs true :: readEvents u.cbEn u.sdSeen u.rstSeen p.bytes, rfl,
        by simp [State.afterReads, ut], fun rest => ?_⟩
      rw [List.cons_append, open_]
      exact idleBytes_poll hn _ _ _ p rest good
    | timeout busy len all =>
      right
      rw [pollTimeout]
      split_ifs
      · refine ⟨_, _, .prim .wrs true :: (readEvents u.cbEn u.sdSeen u.rstSeen busy ++
          [.prim .drst (u.afterReads busy).nextAnswer.ok]), rfl, by simp [primIgnored, State.afterReads, ut], ?_⟩
        rw [open_, pulseBytes, idleBytes_busy hn _ _ _ _ _ all]; rfl
      · refine ⟨_, _, .prim .wrs true :: readEvents u.cbEn u.sdSeen u.rstSeen busy, rfl, by simp [State.afterReads, ut], ?_⟩
        rw [open_, pulseBytes, ← List.append_nil (readEvents _ _ _ _), idleBytes_busy hn _ _ _ _ _ all]; rfl
    | denied busy len all =>
      refine .inr ⟨_, _, .prim .wrs true :: (readEvents u.cbEn u.sdSeen u.rstSeen busy ++ [.status none]), rfl,
        by simp [State.afterReads, ut], ?_⟩
      rw [open_, pulseBytes, idleBytes_busy hn _ _ _ _ _ all]; rfl
  · rw [prim, if_neg hok, Result.fail_bind]
    exact .inr ⟨_, _, [.prim .wrs false], rfl, rfl, rfl⟩

theorem restoreSpu_cause {b : Bool} {s t : State} {c : Cause} (h : restoreSpu b s = .fail c t) : c = .transport := by
  unfold restoreSpu prim at h
  split_ifs at h <;> simp_all [Result.bind]

theorem doReset_report (s : State) : ResetReport s (doReset s) := by
  have before : Without Event.isPulse s ((clearSpu s).bind fun _ s1 => waitBusy s1) :=
    (Without.clearSpu s fun _ _ _ _ => rfl).bind fun _ t => .waitBusy picksPrims_pulse t
  have shape : doReset s = ((clearSpu s).bind fun _ s1 => waitBusy s1).bind fun _ s2 =>
      ((prim .wrs s2).bind fun _ s3 => waitBusy s3).bind fun st s4 =>
        (restoreSpu s.spu s4).bind fun _ s5 => .ok (statusPPD st) s5 := by
    simp only [doReset, Result.bind_assoc]
  rw [shape]
  generalize (clearSpu s).bind (fun _ s1 => waitBusy s1) = r at before
  have trace0 := before
  obtain ⟨es, h1, -⟩ := trace0
  have quiet : ∀ rest, pulseBytes false (es ++ rest) = pulseBytes false rest := before.idleBytes h1
  cases r with
  | fail c t => exact .failed c t es h1 (.inl (by simpa [pulseBytes, idleBytes] using quiet []))
  | ok _ s2 =>
    rw [Result.ok_bind]
    rcases pulsePoll_report s2 with ⟨st, t, es2, e, g1, g2⟩ | ⟨c, t, es2, e, g1, g2⟩
    · rw [e, Result.ok_bind]
      have after : Without Event.isPulse t (restoreSpu s.spu t) := .restoreSpu s.spu t fun _ _ _ _ => rfl
      have cause := fun c u => restoreSpu_cause (b := s.spu) (s := t) (t := u) (c := c)
      generalize restoreSpu s.spu t = r2 at after cause
      have trace2 := after
      obtain ⟨es3, k1, -⟩ := trace2
      cases r2 with
      | fail c u =>
        exact .failed c u (es ++ es2 ++ es3) (by rw [show u.trace = _ from k1, g1, show s2.trace = _ from h1]; simp)
          (.inr (cause c u rfl))
      | ok _ u =>
        refine .reported st u (es ++ es2 ++ es3)
          (by rw [show u.trace = _ from k1, g1, show s2.trace = _ from h1]; simp) fun rest => ?_
        rw [List.append_assoc, List.append_assoc, quiet, g2, pulseBytes, after.idleBytes k1]
    · rw [e, Result.fail_bind]
      exact .failed c t (es ++ es2) (by rw [g1, show s2.trace = _ from h1]; simp) (.inl (by rw [quiet, g2]))

end Sys2Proof.Machine
end

