-- ==== Sys2Proof/Laws/Runs.lean ====
section
/-! SUPPORT. What every procedure of the block does to the trace, said once: the events it adds (`Run`), that they keep the
ordering discipline, and how many requests they are (`Runs`). Commands compose procedures with `Result.bind`. -/

namespace Sys2Proof.Machine

/-! ### Events -/

@[simp] theorem edgeEvents_statusByte? (k : FaultKind) (cb now seen : Bool) :
    (edgeEvents k cb now seen).filterMap Event.statusByte? = [] := by
  unfold edgeEvents; split_ifs <;> rfl

@[simp] theorem edgeEvents_isRequest (k : FaultKind) (cb now seen : Bool) :
    (edgeEvents k cb now seen).filter Event.isRequest = [] := by
  unfold edgeEvents; split_ifs <;> rfl

theorem mem_edgeEvents {k : FaultKind} {cb now seen : Bool} {e : Event} (h : e ∈ edgeEvents k cb now seen) :
    e = .notify k := by
  unfold edgeEvents at h; split_ifs at h <;> simp_all

theorem mem_readEvents {cb sd rst : Bool} {sts : List Byte} {e : Event} (h : e ∈ readEvents cb sd rst sts) :
    (∃ st, e = .status (some st)) ∨ ∃ k, e = .notify k := by
  induction sts generalizing sd rst with
  | nil => simp [readEvents] at h
  | cons st sts ih =>
    simp only [readEvents, List.mem_cons, List.mem_append] at h
    rcases h with rfl | (h | h) | h
    · exact .inl ⟨st, rfl⟩
    · exact .inr ⟨_, mem_edgeEvents h⟩
    · exact .inr ⟨_, mem_edgeEvents h⟩
    · exact ih h

@[simp] theorem readEvents_statusByte? (cb sd rst : Bool) (sts : List Byte) :
    (readEvents cb sd rst sts).filterMap Event.statusByte? = sts := by
  induction sts generalizing sd rst with
  | nil => rfl
  | cons st sts ih =>
    simp only [readEvents, List.filterMap_cons, List.filterMap_append, edgeEvents_statusByte?, ih]
    rfl

@[simp] theorem readEvents_isRequest (cb sd rst : Bool) (sts : List Byte) :
    (readEvents cb sd rst sts).filter Event.isRequest = sts.map fun st => .status (some st) := by
  induction sts generalizing sd rst with
  | nil => rfl
  | cons st sts ih =>
    simp only [readEvents, List.filter_cons, List.filter_append, edgeEvents_isRequest, ih]
    rfl

theorem insertNotices_reads (cb sd rst : Bool) (sts : List Byte) :
    insertNotices cb sd rst (sts.map fun st => .status (some st)) = readEvents cb sd rst sts := by
  induction sts generalizing sd rst with
  | nil => rfl
  | cons st sts ih => simp [insertNotices, Event.statusByte?, readEvents, ih]

theorem insertNotices_append (cb sd rst : Bool) (as bs : List Event) :
    insertNotices cb sd rst (as ++ bs) =
      insertNotices cb sd rst as ++
        insertNotices cb (flagAfter statusSD sd (as.filterMap Event.statusByte?))
          (flagAfter statusRST rst (as.filterMap Event.statusByte?)) bs := by
  induction as generalizing sd rst with
  | nil => rfl
  | cons e as ih =>
    cases h : e.statusByte? <;> simp [insertNotices, h, ih]

theorem disciplined_edgeEvents (w : Bool) (k : FaultKind) (cb now seen : Bool) (rest : List Event) :
    disciplined w (edgeEvents k cb now seen ++ rest) = disciplined w rest := by
  unfold edgeEvents; split_ifs <;> simp [disciplined]

/-- After status reads the discipline goes on with the BUSY bit of the last one. -/
theorem disciplined_readEvents (w cb sd rst : Bool) (sts : List Byte) (rest : List Event) :
    disciplined w (readEvents cb sd rst sts ++ rest) = disciplined (flagAfter statusBusy w sts) rest := by
  induction sts generalizing w sd rst with
  | nil => rfl
  | cons st sts ih =>
    simp [readEvents, disciplined, List.append_assoc, disciplined_edgeEvents, ih]

/-! ### One run -/

/-- The configuration bit of strong pull-up after the events `es`. -/
def spuAfter (spu : Bool) (es : List Event) : Bool := (((es.filterMap Event.acceptedCfg?).getLast?).map (·.2.1)).getD spu

theorem spuAfter_append (spu : Bool) (as bs : List Event) :
    spuAfter spu (as ++ bs) = spuAfter (spuAfter spu as) bs := by
  unfold spuAfter
  rw [List.filterMap_append, List.getLast?_append]
  cases (bs.filterMap Event.acceptedCfg?).getLast? <;> simp

/-- The events `es` lead from `s` to `t`, as far as the trace and what depends on it goes. -/
structure Run (s : State) (es : List Event) (t : State) : Prop where
  trace   : t.trace = s.trace ++ es
  cbEn    : t.cbEn = s.cbEn
  params  : t.params = s.params
  apu     : t.apu = s.apu
  od      : t.od = s.od
  sd      : t.sdSeen = flagAfter statusSD s.sdSeen (es.filterMap Event.statusByte?)
  rst     : t.rstSeen = flagAfter statusRST s.rstSeen (es.filterMap Event.statusByte?)
  notices : es = insertNotices s.cbEn s.sdSeen s.rstSeen (es.filter Event.isRequest)
  cfgs    : ∀ apu spu od ok, .prim (.wcfg apu spu od) ok ∈ es → apu = s.apu ∧ od = s.od
  spu     : t.spu = spuAfter s.spu es
  pull    : ∀ rest, pullUpOffAtReset s.spu (es ++ rest) = pullUpOffAtReset t.spu rest
  plain   : ∀ p ok, .prim p ok ∈ es → (∀ c, p ≠ .chsl c) ∧ (∀ ptr, p ≠ .srp ptr)

theorem Run.refl (s : State) : Run s [] s := by
  constructor <;> simp [insertNotices, spuAfter]

theorem Run.trans {s t u : State} {es es' : List Event} (h : Run s es t) (h' : Run t es' u) :
    Run s (es ++ es') u where
  trace   := by rw [h'.trace, h.trace, List.append_assoc]
  cbEn    := h'.cbEn.trans h.cbEn
  params  := h'.params.trans h.params
  apu     := h'.apu.trans h.apu
  od      := h'.od.trans h.od
  sd      := by rw [h'.sd, h.sd, List.filterMap_append, flagAfter_append]
  rst     := by rw [h'.rst, h.rst, List.filterMap_append, flagAfter_append]
  notices := by
    have e := h'.notices
    rw [h.sd, h.rst, h.cbEn] at e
    rw [List.filter_append, insertNotices_append, ← h.notices]
    have k : (es.filter Event.isRequest).filterMap Event.statusByte? = es.filterMap Event.statusByte? := by
      rw [List.filterMap_filter]
      congr 1; funext x; cases x <;> simp [Event.isRequest, Event.statusByte?]
    rw [k, ← e]
  cfgs    := fun a b c d m => by
    rcases List.mem_append.1 m with m | m
    · exact h.cfgs a b c d m
    · have := h'.cfgs a b c d m; rwa [h.apu, h.od] at this
  spu     := by rw [h'.spu, h.spu, spuAfter_append]
  pull    := fun rest => by rw [List.append_assoc, h.pull, h'.pull]
  plain   := fun p ok m => by
    rcases List.mem_append.1 m with m | m
    · exact h.plain p ok m
    · exact h'.plain p ok m

/-- A run ends as well in a state that agrees on the fields a run speaks of. -/
theorem Run.to {s t u : State} {es : List Event} (h : Run s es t) (h1 : u.trace = t.trace) (h2 : u.cbEn = t.cbEn)
    (h3 : u.params = t.params) (h4 : u.apu = t.apu) (h5 : u.od = t.od) (h6 : u.sdSeen = t.sdSeen)
    (h7 : u.rstSeen = t.rstSeen) (h8 : u.spu = t.spu) : Run s es u :=
  ⟨h1.trans h.trace, h2.trans h.cbEn, h3.trans h.params, h4.trans h.apu, h5.trans h.od, h6.trans h.sd, h7.trans h.rst,
    h.notices, h.cfgs, h8.trans h.spu, fun rest => by rw [h.pull, h8], h.plain⟩

/-- One request that is neither a status read nor a configuration write, nor a 1-Wire reset with strong pull-up on. -/
theorem Run.request (s : State) (e : Event) (h1 : e.statusByte? = none) (h2 : e.isRequest = true)
    (h3 : ∀ apu spu od ok, e ≠ .prim (.wcfg apu spu od) ok) (h4 : ∀ ok, e = .prim .wrs ok → s.spu = false)
    (h5 : ∀ p ok, e = .prim p ok → (∀ c, p ≠ .chsl c) ∧ (∀ ptr, p ≠ .srp ptr)) :
    Run s [e] (s.dropAnswer.emit e) := by
  have hc : e.acceptedCfg? = none := by
    cases e with
    | prim p ok => cases p <;> cases ok <;> first | rfl | exact absurd rfl (h3 _ _ _ _)
    | status _ => rfl
    | data _ => rfl
    | notify _ => rfl
  refine ⟨rfl, rfl, rfl, rfl, rfl, by simp [h1], by simp [h1], by simp [h1, h2, insertNotices],
    fun apu spu od ok h => absurd (List.mem_singleton.1 h).symm (h3 _ _ _ _), by simp [hc, spuAfter], fun rest => ?_,
    fun p ok h => h5 p ok (List.mem_singleton.1 h).symm⟩
  cases e with
  | prim p ok => cases p <;> cases ok <;> simp_all [pullUpOffAtReset, Event.acceptedCfg?]
  | status _ => simp [pullUpOffAtReset, Event.acceptedCfg?]
  | data _ => simp [pullUpOffAtReset, Event.acceptedCfg?]
  | notify _ => simp [pullUpOffAtReset, Event.acceptedCfg?]

theorem pullUpOffAtReset_skip (spu : Bool) (es rest : List Event)
    (h : ∀ e ∈ es, (∃ st, e = .status st) ∨ ∃ k, e = .notify k) :
    pullUpOffAtReset spu (es ++ rest) = pullUpOffAtReset spu rest := by
  induction es with
  | nil => rfl
  | cons e es ih =>
    have := h e (by simp)
    rcases this with ⟨st, rfl⟩ | ⟨k, rfl⟩ <;>
      simp [pullUpOffAtReset, Event.acceptedCfg?, ih fun x hx => h x (by simp [hx])]

theorem Run.reads (s : State) (sts : List Byte) : Run s (readEvents s.cbEn s.sdSeen s.rstSeen sts) (s.afterReads sts) := by
  have hno : ∀ e ∈ readEvents s.cbEn s.sdSeen s.rstSeen sts, e.acceptedCfg? = none := fun e he => by
    rcases mem_readEvents he with ⟨_, rfl⟩ | ⟨_, rfl⟩ <;> rfl
  have hprim : ∀ p ok, Event.prim p ok ∉ readEvents s.cbEn s.sdSeen s.rstSeen sts := fun p ok h => by
    rcases mem_readEvents h with ⟨_, h⟩ | ⟨_, h⟩ <;> cases h
  refine ⟨rfl, rfl, rfl, rfl, rfl, by simp [State.afterReads], by simp [State.afterReads],
    by simp [insertNotices_reads], fun apu spu od ok h => absurd h (hprim _ _),
    by rw [spuAfter, List.filterMap_eq_nil_iff.2 hno]; rfl, fun rest => ?_, fun p ok h => absurd h (hprim _ _)⟩
  exact pullUpOffAtReset_skip _ _ _ fun e he => by
    rcases mem_readEvents he with ⟨st, h⟩ | h
    · exact .inl ⟨_, h⟩
    · exact .inr h

/-- An accepted or denied configuration write of `DoReset`, the shadow updated only if accepted (R106). -/
theorem Run.cfgAccepted (s : State) (b : Bool) :
    Run s [.prim (.wcfg s.apu b s.od) true] ((s.dropAnswer.emit (.prim (.wcfg s.apu b s.od) true)).setSpu b) := by
  refine ⟨rfl, rfl, rfl, rfl, rfl, rfl, rfl, rfl, fun apu spu od ok h => ?_, rfl, fun _ => rfl, fun p ok h => ?_⟩ <;>
    simp_all

theorem Run.cfgDenied (s : State) (b : Bool) :
    Run s [.prim (.wcfg s.apu b s.od) false] (s.dropAnswer.emit (.prim (.wcfg s.apu b s.od) false)) := by
  refine ⟨rfl, rfl, rfl, rfl, rfl, rfl, rfl, rfl, fun apu spu od ok h => ?_, rfl, fun _ => rfl, fun p ok h => ?_⟩ <;>
    simp_all

/-! ### How many requests -/

/-- At most `a` primitives, `b` polls' worth of status reads, and `d` recovery resets. -/
structure Cost (pollMax : Nat) (es : List Event) (a b d : Nat) : Prop where
  prims  : es.countP (fun e => e.isPrim && !e.isDeviceReset) ≤ a
  reads  : es.countP Event.isStatus ≤ b * pollMax
  resets : es.countP Event.isDeviceReset ≤ d

theorem Cost.append {m : Nat} {es es' : List Event} {a b d a' b' d' : Nat} (h : Cost m es a b d)
    (h' : Cost m es' a' b' d') : Cost m (es ++ es') (a + a') (b + b') (d + d') := by
  obtain ⟨h1, h2, h3⟩ := h
  obtain ⟨g1, g2, g3⟩ := h'
  constructor <;> simp only [List.countP_append, Nat.add_mul] <;> omega

theorem Cost.mono {m : Nat} {es : List Event} {a b d a' b' d' : Nat} (h : Cost m es a b d) (h1 : a ≤ a') (h2 : b ≤ b')
    (h3 : d ≤ d') : Cost m es a' b' d' :=
  ⟨h.prims.trans h1, h.reads.trans (Nat.mul_le_mul_right m h2), h.resets.trans h3⟩

theorem Cost.reads_only {m : Nat} (cb sd rst : Bool) (sts : List Byte) (h : sts.length ≤ m) :
    Cost m (readEvents cb sd rst sts) 0 1 0 := by
  have hp : ∀ e ∈ readEvents cb sd rst sts, e.isPrim = false ∧ e.isDeviceReset = false := fun e he => by
    rcases mem_readEvents he with ⟨_, rfl⟩ | ⟨_, rfl⟩ <;> exact ⟨rfl, rfl⟩
  have hs : (readEvents cb sd rst sts).countP Event.isStatus = sts.length := by
    induction sts generalizing sd rst with
    | nil => rfl
    | cons st sts ih =>
      have he : ∀ k now seen, (edgeEvents k cb now seen).countP Event.isStatus = 0 := fun k now seen => by
        unfold edgeEvents; split_ifs <;> rfl
      simp only [readEvents, List.countP_cons, List.countP_append, he]
      rw [ih _ _ (by simp at h; omega) (fun e he => by
        rcases mem_readEvents he with ⟨_, rfl⟩ | ⟨_, rfl⟩ <;> exact ⟨rfl, rfl⟩)]
      simp [Event.isStatus]
  refine ⟨?_, by omega, ?_⟩
  · rw [List.countP_eq_zero.2 fun e he => by simp [(hp e he).1]]
  · rw [List.countP_eq_zero.2 fun e he => by simp [(hp e he).2]]

/-! ### What ended a procedure -/

@[simp] theorem Event.isDenied_prim (p : Prim) (ok : Bool) : (Event.prim p ok).isDenied = (!ok && p != .drst) := rfl

@[simp] theorem Event.isDenied_status (st : Option Byte) : (Event.status st).isDenied = st.isNone := by cases st <;> rfl

@[simp] theorem Event.isDenied_data (v : Option Byte) : (Event.data v).isDenied = v.isNone := by cases v <;> rfl

@[simp] theorem Event.isDenied_notify (k : FaultKind) : (Event.notify k).isDenied = false := rfl

theorem busyRow_append (n : Nat) (as bs : List Event) : busyRow n (as ++ bs) = busyRow (busyRow n as) bs := by
  induction as generalizing n with
  | nil => rfl
  | cons e as ih =>
    rw [List.cons_append]
    cases e with
    | status st => cases st <;> exact ih _
    | data _ => exact ih _
    | notify _ => exact ih _
    | prim _ _ => exact ih _

theorem busyRow_edgeEvents (n : Nat) (k : FaultKind) (cb now seen : Bool) (rest : List Event) :
    busyRow n (edgeEvents k cb now seen ++ rest) = busyRow n rest := by
  unfold edgeEvents; split_ifs <;> rfl

theorem busyRow_busy (n : Nat) (cb sd rst : Bool) (busy : List Byte) (h : ∀ b ∈ busy, statusBusy b = true)
    (rest : List Event) : busyRow n (readEvents cb sd rst busy ++ rest) = busyRow (n + busy.length) rest := by
  induction busy generalizing n sd rst with
  | nil => rfl
  | cons b bs ih =>
    simp only [readEvents, List.cons_append, List.append_assoc, busyRow, h b (by simp), if_true, busyRow_edgeEvents]
    rw [ih _ _ _ fun x hx => h x (by simp [hx]), List.length_cons, Nat.add_right_comm, Nat.add_assoc]

theorem readEvents_notDenied (cb sd rst : Bool) (sts : List Byte) :
    (readEvents cb sd rst sts).any Event.isDenied = false := by
  rw [List.any_eq_false]
  intro e he
  rcases mem_readEvents he with ⟨_, rfl⟩ | ⟨_, rfl⟩ <;> simp

/-- The events show the end they come to: a denied request exactly at TRANSPORT, a row of `pollMax` busy reads exactly at
BUSY_TIMEOUT (R175, R101), and no busy read is left over at success (`none`). -/
structure Tells (pollMax : Nat) (es : List Event) (o : Option Cause) : Prop where
  denied : es.any Event.isDenied = true ↔ o = some .transport
  row    : busyRow 0 es = pollMax ↔ o = some .busyTimeout
  idle   : o = none → busyRow 0 es = 0

theorem Tells.quiet {m : Nat} (hm : 0 < m) {es : List Event} {o : Option Cause} (h1 : es.any Event.isDenied = false)
    (h2 : busyRow 0 es = 0) (h3 : o ≠ some .transport) (h4 : o ≠ some .busyTimeout) : Tells m es o :=
  ⟨by simp [h1, h3], by rw [h2]; simp [h4]; omega, fun _ => h2⟩

theorem Tells.append {m : Nat} {es es' : List Event} {o : Option Cause} (h : Tells m es none) (h' : Tells m es' o) :
    Tells m (es ++ es') o := by
  have hd : es.any Event.isDenied = false := by simpa using h.denied
  refine ⟨?_, ?_, fun e => ?_⟩
  · rw [List.any_append, hd, Bool.false_or, h'.denied]
  · rw [busyRow_append, h.idle rfl, h'.row]
  · rw [busyRow_append, h.idle rfl, h'.idle e]

/-- A single request that was denied. -/
theorem Tells.deny {m : Nat} (hm : 0 < m) {es : List Event} {e : Event} (h1 : e.isDenied = true)
    (h2 : ∀ n, busyRow n [e] = 0) : Tells m (es ++ [e]) (some .transport) :=
  ⟨by simp [h1], by rw [busyRow_append, h2]; simp; omega, fun h => (by cases h)⟩

theorem pollMax_pos (p : Params) : 0 < p.pollMax := by simp [Params.pollMax]

theorem Tells.accepted {m : Nat} (hm : 0 < m) (p : Prim) : Tells m [.prim p true] none :=
  .quiet hm (by simp) (by simp [busyRow]) (by simp) (by simp)

theorem Tells.refused {m : Nat} (hm : 0 < m) (p : Prim) (hp : p ≠ .drst) : Tells m [.prim p false] (some .transport) :=
  .deny (es := []) hm (by simpa using hp) (by simp [busyRow, hp])

/-! ### What a procedure does: a run, disciplined, within its cost -/

/-- After the events `es` the discipline stands where it stood: nothing is left open. -/
def Settled (es : List Event) : Prop := ∀ rest, disciplined false (es ++ rest) = disciplined false rest

/-- Then the bridge is known to be idle again: a further request could be issued. -/
theorem Settled.idle {es : List Event} (h : Settled es) : stillWaiting false es = false := by
  have key : ∀ (es : List Event) (w : Bool), disciplined w (es ++ [.prim .wrs false]) = true → stillWaiting w es = false := by
    intro es
    induction es with
    | nil => intro w h; cases w <;> simp_all [disciplined, stillWaiting]
    | cons e es ih =>
      intro w h
      rw [List.cons_append] at h
      cases e with
      | status st =>
        cases st with
        | none => simp [disciplined] at h
        | some v => exact ih (statusBusy v) h
      | data v => cases v <;> cases w <;> simp [disciplined] at h; exact ih false h
      | notify k => exact ih w h
      | prim p ok =>
        have hp : p ≠ .drst := by rintro rfl; simp [disciplined] at h
        cases w <;> cases ok <;> simp [disciplined, hp] at h
        exact ih p.isOneWire h
  exact key es false (by rw [h]; rfl)

/-- The procedure result `r`, started in `s`, is a run of at most `a` primitives and `b` polls whose events tell how it
ended. On success the bridge is known to be idle again. -/
def Runs {α : Type} (s : State) (a b : Nat) : Result α → Prop
  | .ok _ t => ∃ es, Run s es t ∧ Settled es ∧ Cost s.params.pollMax es a b 0 ∧ Tells s.params.pollMax es none
  | .fail c t => ∃ es, Run s es t ∧ disciplined false es = true ∧ Cost s.params.pollMax es a b 1 ∧
    Tells s.params.pollMax es (some c)

theorem Runs.mono {α : Type} {s : State} {a b a' b' : Nat} {r : Result α} (h : Runs s a b r) (h1 : a ≤ a') (h2 : b ≤ b') :
    Runs s a' b' r := by
  cases r with
  | ok x t => obtain ⟨es, h, d, c, e⟩ := h; exact ⟨es, h, d, c.mono h1 h2 (le_refl _), e⟩
  | fail c t => obtain ⟨es, h, d, c, e⟩ := h; exact ⟨es, h, d, c.mono h1 h2 (le_refl _), e⟩

/-- Sequencing: what the first procedure adds, then what the second adds. -/
theorem Runs.bind {α β : Type} {s : State} {a b a' b' : Nat} {r : Result α} {f : α → State → Result β}
    (h : Runs s a b r) (hf : ∀ x t, r = .ok x t → Runs t a' b' (f x t)) : Runs s (a + a') (b + b') (r.bind f) := by
  cases r with
  | fail c t =>
    obtain ⟨es, h, d, k, e⟩ := h
    exact ⟨es, h, d, k.mono (by omega) (by omega) (le_refl _), e⟩
  | ok x t =>
    obtain ⟨es, h, d, k, e⟩ := h
    have hf := hf x t rfl
    simp only [Result.bind]
    cases hr : f x t with
    | ok y u =>
      rw [hr] at hf; obtain ⟨es', h', d', k', e'⟩ := hf
      rw [h.params] at k' e'
      exact ⟨es ++ es', h.trans h', fun rest => by rw [List.append_assoc, d, d'], k.append k', e.append e'⟩
    | fail c u =>
      rw [hr] at hf; obtain ⟨es', h', d', k', e'⟩ := hf
      rw [h.params] at k' e'
      exact ⟨es ++ es', h.trans h', by rw [d, d'], by simpa using k.append k', e.append e'⟩

/-- A state change that no run speaks of, at the end. -/
theorem Runs.ok {α : Type} {s t : State} (x : α) (h : Run s [] t) : Runs s 0 0 (.ok x t) :=
  ⟨[], h, fun _ => rfl, ⟨by simp, by simp, by simp⟩, .quiet (pollMax_pos _) rfl rfl (by simp) (by simp)⟩

/-- A failure that is no answer of the environment's. -/
theorem Runs.fail {α : Type} {s t : State} (c : Cause) (h : Run s [] t) (h1 : c ≠ .transport) (h2 : c ≠ .busyTimeout) :
    Runs (α := α) s 0 0 (.fail c t) :=
  ⟨[], h, rfl, ⟨by simp, by simp, by simp⟩, .quiet (pollMax_pos _) rfl rfl (by simpa using h1) (by simpa using h2)⟩

/-- What a poll adds, whatever stood open before it (`w`). -/
theorem poll_runs (s : State) (w : Bool) :
    (∃ x sts, waitBusy s = .ok x (s.afterReads sts) ∧ sts.length ≤ s.params.pollMax ∧
      flagAfter statusBusy w sts = false ∧
      Tells s.params.pollMax (readEvents s.cbEn s.sdSeen s.rstSeen sts) none) ∨
    (∃ es c t, waitBusy s = .fail c t ∧ Run s es t ∧ disciplined w es = true ∧ Cost s.params.pollMax es 0 1 1 ∧
      Tells s.params.pollMax es (some c)) := by
  have h := waitBusy_outcome s
  generalize waitBusy s = r at h ⊢
  cases h with
  | idle p good ans =>
    simp only [Poll.good, Bool.and_eq_true, Bool.not_eq_true', List.all_eq_true] at good
    have hl := of_decide_eq_true good.2
    exact .inl ⟨_, p.bytes, rfl, by simp [Poll.bytes]; omega, by simp [Poll.bytes, flagAfter_append, good.1.2],
      .quiet (pollMax_pos _) (readEvents_notDenied _ _ _ _) (by
        rw [Poll.bytes, readEvents_append, busyRow_busy _ _ _ _ _ good.1.1]
        simp only [readEvents, busyRow, good.1.2, Bool.false_eq_true, if_false, List.append_nil]
        rw [busyRow_edgeEvents, ← List.append_nil (edgeEvents _ _ _ _), busyRow_edgeEvents]; rfl) (by simp) (by simp)⟩
  | timeout busy len all ans =>
    right
    have hw : flagAfter statusBusy w busy = true := by
      obtain ⟨bs, b, rfl⟩ : ∃ bs b, busy = bs ++ [b] := by
        rcases List.eq_nil_or_concat busy with h | ⟨bs, b, h⟩
        · subst h; simp [Params.pollMax] at len
        · exact ⟨bs, b, by simpa using h⟩
      simp [flagAfter_append, all b (by simp)]
    have htell : ∀ tail, tail.any Event.isDenied = false → (∀ n, busyRow n tail = n) →
        Tells s.params.pollMax (readEvents s.cbEn s.sdSeen s.rstSeen busy ++ tail) (some .busyTimeout) := fun tail h1 h2 =>
      ⟨by simp [readEvents_notDenied, h1], by rw [busyRow_busy _ _ _ _ _ all, h2]; simp [len], fun h => (by cases h)⟩
    have hr := Run.reads s busy
    have hc := Cost.reads_only s.cbEn s.sdSeen s.rstSeen busy (le_of_eq len)
    by_cases hd : s.params.timeoutDrst = true
    · refine ⟨_, _, _, by simp only [pollTimeout, State.afterReads_params, hd, if_true]; rfl,
        hr.trans (Run.request _ (.prim .drst (s.afterReads busy).nextAnswer.ok) rfl rfl (by simp) (by simp) (by simp)),
        by rw [disciplined_readEvents, hw]; rfl, ?_, htell _ (by simp) (by simp [busyRow])⟩
      have h1 : Cost s.params.pollMax [.prim .drst (s.afterReads busy).nextAnswer.ok] 0 0 1 :=
        ⟨by simp [Event.isPrim, Event.isDeviceReset], by simp [Event.isStatus], by simp [Event.isDeviceReset]⟩
      exact hc.append h1
    · refine ⟨_, _, _, by simp only [pollTimeout, State.afterReads_params, hd]; rfl, hr, ?_,
        hc.mono (by simp) (by simp) (by simp), by simpa using htell [] rfl fun _ => rfl⟩
      rw [← List.append_nil (readEvents _ _ _ _), disciplined_readEvents]; rfl
  | denied busy len all ans no =>
    right
    exact ⟨_, _, _, rfl, (Run.reads s busy).trans (Run.request _ (.status none) rfl rfl (by simp) (by simp) (by simp)),
      by rw [disciplined_readEvents]; rfl, by
        have hc := Cost.reads_only s.cbEn s.sdSeen s.rstSeen busy len.le
        have hc := Cost.reads_only (m := busy.length) s.cbEn s.sdSeen s.rstSeen busy (le_refl _)
        obtain ⟨h1, h2, h3⟩ := hc
        refine ⟨?_, ?_, ?_⟩ <;> rw [List.countP_append]
        · change _ + 0 ≤ _; omega
        · change _ + 1 ≤ _; omega
        · change _ + 0 ≤ _; omega, .deny (pollMax_pos _) rfl fun _ => rfl⟩

theorem prim_eq (p : Prim) (s : State) :
    prim p s = if s.nextAnswer.ok then .ok () (s.dropAnswer.emit (.prim p true))
      else .fail .transport (s.dropAnswer.emit (.prim p false)) := rfl

theorem Run.prim (s : State) (p : Prim) (ok : Bool) (hp : p.isOneWire = true) (hw : p = .wrs → s.spu = false) :
    Run s [.prim p ok] (s.dropAnswer.emit (.prim p ok)) := by
  refine Run.request s _ rfl rfl (fun _ _ _ _ h => ?_) (fun _ h => ?_) (fun q b h => ?_)
  · injection h with h1; subst h1; cases hp
  · injection h with h1; exact hw h1
  · injection h with h1
    refine ⟨fun c h2 => ?_, fun c h2 => ?_⟩ <;> rw [h1, h2] at hp <;> cases hp

theorem Cost.one (m : Nat) (p : Prim) (ok : Bool) (hp : p ≠ .drst) : Cost m [.prim p ok] 1 0 0 := by
  have h : (Event.prim p ok).isDeviceReset = false := by simpa [Event.isDeviceReset] using hp
  refine ⟨?_, by simp [Event.isStatus], by simp [h]⟩
  exact List.countP_le_length

/-- `WaitBusy()` before anything has been issued: `DoReset`'s first poll. -/
theorem Runs.poll (s : State) : Runs s 0 1 (waitBusy s) := by
  rcases poll_runs s false with ⟨x, sts, e, hl, hf, ht⟩ | ⟨es, c, t, e, hr, hd, hc, ht⟩
  · rw [e]
    exact ⟨_, Run.reads s sts, fun rest => by rw [disciplined_readEvents, hf], Cost.reads_only _ _ _ _ hl, ht⟩
  · rw [e]; exact ⟨es, hr, hd, hc, ht⟩

/-- A primitive of the 1-Wire line and the poll after it (R105). -/
theorem Runs.primPoll (p : Prim) (s : State) (hp : p.isOneWire = true) (hw : p = .wrs → s.spu = false) :
    Runs s 1 1 ((Machine.prim p s).bind fun _ s1 => waitBusy s1) := by
  have hd : p ≠ .drst := fun h => by subst h; cases hp
  rw [prim_eq]
  by_cases hok : s.nextAnswer.ok = true
  · simp only [hok, if_true, Result.bind]
    have h1 := Run.prim s p true hp hw
    have c1 := Cost.one s.params.pollMax p true hd
    have t1 := Tells.accepted (m := s.params.pollMax) (pollMax_pos _) p
    rcases poll_runs (s.dropAnswer.emit (.prim p true)) true with ⟨x, sts, e, hl, hf, ht⟩ | ⟨es, c, t, e, hr, hx, hc, ht⟩
    · rw [e]
      refine ⟨_, h1.trans (Run.reads _ sts), fun rest => ?_, c1.append (Cost.reads_only _ _ _ _ hl), t1.append ht⟩
      simp only [List.cons_append, List.nil_append, disciplined, hd, if_false, hp, if_true,
        Bool.not_false, Bool.true_and]
      rw [disciplined_readEvents, hf]
    · rw [e]
      refine ⟨_, h1.trans hr, ?_, by simpa using c1.append hc, t1.append ht⟩
      simpa [disciplined, hd, hp] using hx
  · simp only [hok, Result.bind]
    exact ⟨_, Run.prim s p false hp hw, by simp [disciplined, hd], (Cost.one _ p false hd).mono (le_refl _) (by simp) (by simp),
      .refused (pollMax_pos _) p hd⟩

theorem Runs.readData (s : State) : Runs s 0 0 (Machine.readData s) := by
  unfold Machine.readData
  have hr : ∀ e : Option Byte, Run s [.data e] (s.dropAnswer.emit (.data e)) := fun e =>
    Run.request s _ rfl rfl (by simp) (by simp) (by simp)
  have hc : ∀ e d, Cost s.params.pollMax [.data e] 0 0 d := fun e d =>
    ⟨by simp [Event.isPrim], by simp [Event.isStatus], by simp [Event.isDeviceReset]⟩
  split_ifs
  · exact ⟨_, hr _, fun rest => by simp [disciplined], hc _ _, .quiet (pollMax_pos _) rfl rfl (by simp) (by simp)⟩
  · exact ⟨_, hr _, by simp [disciplined], hc _ _, .deny (es := []) (pollMax_pos _) rfl fun _ => rfl⟩

/-! ### The internal procedures -/

theorem Runs.doBit (b : Bool) (s : State) : Runs s 1 1 (Machine.doBit b s) := by
  unfold Machine.doBit
  rw [← Result.bind_assoc]
  exact (Runs.primPoll (.wsb b) s rfl (by simp)).bind (a' := 0) (b' := 0) fun _ t _ => .ok _ (.refl t)

theorem Runs.doWriteByte (v : Byte) (s : State) : Runs s 1 1 (Machine.doWriteByte v s) := by
  unfold Machine.doWriteByte
  rw [← Result.bind_assoc]
  exact (Runs.primPoll (.wwb v) s rfl (by simp)).bind (a' := 0) (b' := 0) fun _ t _ => .ok _ (.refl t)

theorem Runs.doReadByte (s : State) : Runs s 1 1 (Machine.doReadByte s) := by
  unfold Machine.doReadByte
  rw [← Result.bind_assoc]
  exact (Runs.primPoll .wrb s rfl (by simp)).bind (a' := 0) (b' := 0) fun _ t _ => Runs.readData t

/-- A result is unchanged, as far as runs go, by state changes after it that no run speaks of. -/
theorem Runs.quiet {α β : Type} {s : State} {a b : Nat} {r : Result α} (h : Runs s a b r) (f : α → State → Result β)
    (hf : ∀ x t, Runs t 0 0 (f x t)) : Runs s a b (r.bind f) := by
  simpa using h.bind (a' := 0) (b' := 0) fun x t _ => hf x t

theorem Runs.writeBytesFrom (n k : Nat) (s : State) : Runs s n n (Machine.writeBytesFrom n k s) := by
  induction n generalizing k s with
  | zero => exact .ok _ (.refl s)
  | succ n ih =>
    rw [Machine.writeBytesFrom]
    exact ((Runs.doWriteByte _ s).bind fun _ t _ => ih (k + 1) t).mono (by omega) (by omega)

/-- A change of `BUF`, `ROM`, `LD`, `LDF`, `RES`, `CAUSE`, `DATA` and the host's side is no event. -/
theorem Run.still {s t : State} (h1 : t.trace = s.trace) (h2 : t.cbEn = s.cbEn) (h3 : t.params = s.params)
    (h4 : t.apu = s.apu) (h5 : t.od = s.od) (h6 : t.sdSeen = s.sdSeen) (h7 : t.rstSeen = s.rstSeen)
    (h8 : t.spu = s.spu) : Run s [] t := (Run.refl s).to h1 h2 h3 h4 h5 h6 h7 h8

theorem Runs.from {α : Type} {s s' : State} {a b : Nat} {r : Result α} (h0 : Run s [] s') (h : Runs s' a b r) :
    Runs s a b r := by
  have := (Runs.ok () h0).bind (f := fun _ _ => r) (a' := a) (b' := b) fun _ t e => by
    injection e with _ e; subst e; exact h
  simpa [Result.bind] using this

theorem Runs.readBytesInto (n k : Nat) (s : State) : Runs s n n (Machine.readBytesInto n k s) := by
  induction n generalizing k s with
  | zero => exact .ok _ (.refl s)
  | succ n ih =>
    rw [Machine.readBytesInto]
    refine ((Runs.doReadByte s).bind (a' := n) (b' := n) fun v t _ => ?_).mono (by omega) (by omega)
    exact Runs.from (s' := t.writeBuf k v) (.still rfl rfl rfl rfl rfl rfl rfl rfl) (ih (k + 1) _)

/-- A configuration write of `DoReset` and its update of the shadow. -/
theorem Runs.cfg (s : State) (b : Bool) :
    Runs s 1 0 ((Machine.prim (.wcfg s.apu b s.od) s).bind fun _ s1 => .ok () (s1.setSpu b)) := by
  rw [prim_eq]
  by_cases hok : s.nextAnswer.ok = true
  · simp only [hok, if_true, Result.bind]
    exact ⟨_, Run.cfgAccepted s b, fun rest => by simp [disciplined, Prim.isOneWire], Cost.one _ _ _ (by simp),
      .accepted (pollMax_pos _) _⟩
  · simp only [hok, Result.bind]
    exact ⟨_, Run.cfgDenied s b, by simp [disciplined], (Cost.one _ _ _ (by simp)).mono (le_refl _) (le_refl _) (by simp),
      .refused (pollMax_pos _) _ (by simp)⟩

theorem Runs.clearSpu (s : State) : Runs s (if s.spu then 1 else 0) 0 (Machine.clearSpu s) := by
  unfold Machine.clearSpu
  split_ifs
  · exact Runs.cfg s false
  · exact .ok _ (.refl s)

theorem Runs.restoreSpu (b : Bool) (s : State) : Runs s (if b then 1 else 0) 0 (Machine.restoreSpu b s) := by
  unfold Machine.restoreSpu
  split_ifs
  · exact Runs.cfg s true
  · exact .ok _ (.refl s)

theorem clearSpu_spu {s t : State} {x : Unit} (h : clearSpu s = .ok x t) : t.spu = false := by
  unfold clearSpu at h
  split_ifs at h with hs
  · rw [prim_eq] at h
    split_ifs at h <;> simp only [Result.bind] at h
    · injection h with _ h; subst h; rfl
    · cases h
  · injection h with _ h; subst h; simpa using hs

theorem waitBusy_spu {s t : State} {x : Byte} (h : waitBusy s = .ok x t) : t.spu = s.spu := by
  have := waitBusy_outcome s
  rw [h] at this
  cases this
  · rfl

theorem Runs.doReset (s : State) : Runs s (primBound s.spu .reset) 2 (Machine.doReset s) := by
  unfold Machine.doReset
  refine ((Runs.clearSpu s).bind (a' := 1 + if s.spu then 1 else 0) (b' := 2) fun _ s1 h1 => ?_).mono
    (by unfold primBound; split_ifs <;> simp) (by simp)
  refine ((Runs.poll s1).bind (a' := 1 + if s.spu then 1 else 0) (b' := 1) fun _ s2 h2 => ?_).mono (by simp) (by simp)
  rw [← Result.bind_assoc]
  have hs2 : s2.spu = false := (waitBusy_spu h2).trans (clearSpu_spu h1)
  refine ((Runs.primPoll .wrs s2 rfl fun _ => hs2).bind (a' := if s.spu then 1 else 0) (b' := 0) fun st s4 _ => ?_).mono
    (le_refl _) (by simp)
  exact (Runs.restoreSpu s.spu s4).quiet _ fun _ t => .ok _ (.refl t)

theorem Runs.searchPresence (s : State) : Runs s (primBound s.spu .reset) 2 (Machine.searchPresence s) := by
  have h := Runs.doReset s
  unfold Machine.searchPresence
  split <;> rename_i heq <;> rw [heq] at h
  · obtain ⟨es, h, d, c, e⟩ := h
    exact ⟨es, h.to rfl rfl rfl rfl rfl rfl rfl rfl, d, c, e⟩
  · exact h
  · obtain ⟨es, h, d, c, e⟩ := h
    exact ⟨es, h.to rfl rfl rfl rfl rfl rfl rfl rfl, by simpa [disciplined] using d [],
      c.mono (le_refl _) (le_refl _) (by simp),
      .quiet (pollMax_pos _) (by simpa using e.denied) (e.idle rfl) (by simp) (by simp)⟩

theorem Runs.searchBit (i : Nat) (lz : BitVec 7) (s : State) : Runs s 1 1 (Machine.searchBit i lz s) := by
  unfold Machine.searchBit
  rw [← Result.bind_assoc]
  refine (Runs.primPoll _ s rfl (by simp)).quiet _ fun st t => ?_
  split_ifs
  · exact .fail _ (.still rfl rfl rfl rfl rfl rfl rfl rfl) (by simp) (by simp)
  all_goals exact .ok _ (.still rfl rfl rfl rfl rfl rfl rfl rfl)

theorem Runs.searchFrom (n i : Nat) (lz : BitVec 7) (s : State) : Runs s n n (Machine.searchFrom n i lz s) := by
  induction n generalizing i lz s with
  | zero => exact .ok _ (.refl s)
  | succ n ih =>
    rw [Machine.searchFrom]
    exact ((Runs.searchBit i lz s).bind fun lz t _ => ih (i + 1) lz t).mono (by omega) (by omega)

theorem writeBufFrom_keeps (s : State) (k : Nat) (vs : List Byte) :
    ∃ m, s.writeBufFrom k vs = { s with buf := m } := by
  induction vs generalizing s k with
  | nil => exact ⟨s.buf, rfl⟩
  | cons v vs ih =>
    obtain ⟨m, h⟩ := ih (s.writeBuf k v) (k + 1)
    exact ⟨m, h⟩

theorem Runs.searchDeliver (s : State) : Runs s 0 0 (Machine.searchDeliver s) := by
  unfold Machine.searchDeliver
  split_ifs
  · obtain ⟨m, h⟩ := writeBufFrom_keeps s 0 s.rom.toList
    rw [h]
    exact .ok _ (.still rfl rfl rfl rfl rfl rfl rfl rfl)
  · exact .fail _ (.refl s) (by simp) (by simp)

/-! ### The commands -/

/-- What every command but ATTACH does: its body is a run within its bounds. ATTACH's is one but for `CB_EN`. -/
theorem runCommand_run {s t : State} {a b : Nat} {r : Result Unit} (h : Runs s a b r) (ht : runCommand r = .next t) :
    ∃ es, Run s es t ∧ disciplined false es = true ∧ (t.resOk = true → Settled es) ∧
      Cost s.params.pollMax es a b 1 ∧ (t.cause = Cause.transport.code ↔ es.any Event.isDenied = true) ∧
      (t.cause = Cause.busyTimeout.code ↔ busyRow 0 es = s.params.pollMax) := by
  cases r with
  | ok x u =>
    obtain ⟨es, h, d, c, e⟩ := h
    injection ht with ht; subst ht
    refine ⟨es, h.to rfl rfl rfl rfl rfl rfl rfl rfl, by simpa [disciplined] using d [], fun _ => d,
      c.mono (le_refl _) (le_refl _) (by simp), ?_, ?_⟩
    · rw [e.denied]; simp [endCommand, commandDone, Cause.code, causeNone]
    · rw [e.row]; simp [endCommand, commandDone, Cause.code, causeNone]
  | fail k u =>
    obtain ⟨es, h, d, c, e⟩ := h
    injection ht with ht; subst ht
    refine ⟨es, h.to rfl rfl rfl rfl rfl rfl rfl rfl, d, fun h => (by cases h), c, ?_, ?_⟩
    · rw [e.denied]; cases k <;> simp [endCommand, raiseFail, Cause.code]
    · rw [e.row]; cases k <;> simp [endCommand, raiseFail, Cause.code]

end Sys2Proof.Machine
end

