-- ==== Sys2Proof/Machine/Script.lean ====
section
/-! DEFINITION. The script lines of spec/30_encoding.md R76 as host moves: one command line is one command word, a `BUF`
line writes bytes from index `k` upward, a `CFG` line writes the three configuration fields (log 10). -/

namespace Sys2Proof.Machine

open Sys2Proof

/-- One line of a script. -/
inductive ScriptLine where
  | command (i : Instr)
  | buf (k : Nat) (vs : List Byte)
  | cfg (apu spu od : Bool)
  deriving DecidableEq, Repr

/-- A command line is a command; a `BUF` line stays inside `BUF` (R51). -/
def ScriptLine.wellFormed : ScriptLine → Bool
  | .command i => i.wellFormed
  | .buf k vs => decide (k + vs.length ≤ bufSize)
  | .cfg _ _ _ => true

/-- The writes of a `BUF` line. -/
def bufLineMoves : Nat → List Byte → List HostMove
  | _, [] => []
  | k, v :: vs => .writeBuf (BitVec.ofNat 8 k) v :: bufLineMoves (k + 1) vs

/-- The host moves a line stands for. -/
def ScriptLine.moves : ScriptLine → List HostMove
  | .command i => [presentWord (encode i)]
  | .buf k vs => bufLineMoves k vs
  | .cfg apu spu od => [.writeReg 4 ((bitAt 0 apu ||| bitAt 1 spu ||| bitAt 2 od).setWidth 16)]

/-- A script is executed top to bottom (R76). -/
def scriptMoves (ls : List ScriptLine) : List HostMove := ls.flatMap ScriptLine.moves

end Sys2Proof.Machine
end

