-- ==== Sys2Proof/Tests/Slice0.lean ====
section
/-! SUPPORT. Tests. Expected results are those of spec/95_test_vectors.md (V and P numbers) or the examples of the rule named.
After them one witness per statement that has hypotheses. -/

namespace Sys2Proof.Tests

open Sys2Proof Sys2Proof.Machine

/-! ### Helpers -/

/-- The parameters of the vectors, with a given POLL_MAX. -/
def tp (pollMax : Nat) : Params where
  pollMaxPred  := pollMax - 1
  pollDelay    := 0
  devAddr      := 0x18
  timeoutDrst  := false
  cmdSearchRom := 0xF0
  cmdSkipRom   := 0xCC
  cmdSelectRom := 0x55

/-- Block reset with those parameters and answers to come. -/
def start (pollMax : Nat) (as : List Answer) : State := { State.reset with params := tp pollMax, answers := as }

/-- A primitive answered `ok`, and one denied (or a read denied). -/
def ack : Answer := ⟨true, 0⟩
def nak : Answer := ⟨false, 0⟩

/-- A read answered with a byte. -/
def st (v : Byte) : Answer := ⟨true, v⟩

/-- The state an outcome goes on with. -/
def after (o : Host.Outcome State Fault Refusal) : State :=
  match o with
  | .next s => s
  | .fault _ => State.reset
  | .refused _ => State.reset

def run (i : Instr) (s : State) : State := after (exec i s)

/-- A trace element of the vectors. -/
def ST (v : Byte) : Event := .status (some v)

/-- The status byte of a triplet at which all devices have bit `b`. -/
def tripletOf (b : Bool) : Answer := st (if b then 0xAA else 0x4A)

/-- What the reference environment with one device answers to a SEARCH. -/
def searchAnswers (rom : Vector Byte 8) : List Answer :=
  [st 0x08, ack, st 0x0A, ack, st 0x0A] ++ (List.range 64).flatMap fun i => [ack, tripletOf (romBit rom i)]

/-- The vectors' devices A and B, and the checksum-invalid X. -/
def devA : Vector Byte 8 := #v[0x28, 1, 0, 0, 0, 0, 0, 0x29]
def devB : Vector Byte 8 := #v[0x28, 3, 0, 0, 0, 0, 0, 0x47]
def devX : Vector Byte 8 := #v[0x28, 1, 0, 0, 0, 0, 0, 0x28]

/-- `BUF[0..]` filled by the host. -/
def withBuf (vs : List Byte) (s : State) : State := s.writeBufFrom 0 vs

/-! ### WellFormed refuses the one ill-formed kind of term -/

theorem test_verify_zero_is_ill_formed : (Instr.verify 0).wellFormed = false := by decide
theorem test_verify_one_is_well_formed : (Instr.verify 1).wellFormed = true := by decide
theorem test_script_buf_line_past_the_end : (ScriptLine.buf 255 [1, 2]).wellFormed = false := by decide

/-! ### Decoding: words written out from R71 and R73 for every command, and V46 -/

theorem test_decode_format_n :
    decode 0b00000001_00000000 = .ok .reset ∧ decode 0b00000010_00000000 = .ok .rdbit ∧
    decode 0b00000100_00000000 = .ok .rdbyte ∧ decode 0b00001000_00000000 = .ok .skip ∧
    decode 0b00001001_00000000 = .ok .select ∧ decode 0b00001010_00000000 = .ok .search ∧
    decode 0b00001011_00000000 = .ok .rstsrch := by decide

theorem test_decode_format_b :
    decode 0b00000011_00000000 = .ok (.wrbit false) ∧ decode 0b00000011_00000001 = .ok (.wrbit true) ∧
    decode 0b00001100_00000000 = .ok (.attach false) ∧ decode 0b00001100_00000001 = .ok (.attach true) := by decide

theorem test_decode_format_i :
    decode 0b00000101_01000100 = .ok (.wrbyte 0x44) ∧ decode 0b00000101_11111111 = .ok (.wrbyte 0xFF) ∧
    decode 0b00000110_00000011 = .ok (.rdbytes 3) ∧ decode 0b00000110_00000000 = .ok (.rdbytes 0) ∧
    decode 0b00000111_00000010 = .ok (.wrbytes 2) ∧ decode 0b00001101_00000111 = .ok (.crc8 7) ∧
    decode 0b00001110_00001000 = .ok (.verify 8) ∧ decode 0b00001110_00000001 = .ok (.verify 1) := by decide

theorem test_decode_illegal :
    decode 0x0000 = .error .illegalOpcode ∧ decode 0x0F00 = .error .illegalOpcode ∧
    decode 0xFFFF = .error .illegalOpcode ∧ decode 0x0101 = .error .nonzeroOperand ∧
    decode 0x0A01 = .error .nonzeroOperand ∧ decode 0x0B80 = .error .nonzeroOperand ∧
    decode 0x0302 = .error .nonzeroHighOperand ∧ decode 0x0C03 = .error .nonzeroHighOperand ∧
    decode 0x0E00 = .error .verifyZero := by decide

theorem test_table_word : decodeTableWord 16 0x0544 = some (.wrbyte 0x44) ∧ decodeTableWord 16 0x0E00 = none ∧
    decodeTableWord 16 0x10100 = some .reset := by decide

/-! ### Stepping from reset -/

theorem test_step_runs_the_fetch_word :
    (after (step (State.reset.withFetchWord 16 0x0C01))).cbEn = true ∧
    (after (step (State.reset.withFetchWord 16 0x0C01))).resOk = true := by decide

theorem test_illegal_word_steps : (after (step (State.reset.withFetchWord 16 0x0101))).cause = 8 := by decide

theorem test_reset_buffer_is_canonical : Memory.wf State.reset.buf = true := by decide

/-! ### RESET (V12, V13) -/

theorem test_reset_with_pull_up :
    let t := run .reset { start 20 [ack, st 0x08, ack, st 0x0A, ack] with apu := true, spu := true }
    t.trace = [.prim (.wcfg true false false) true, ST 0x08, .prim .wrs true, ST 0x0A, .prim (.wcfg true true false) true] ∧
    t.resOk = true ∧ t.spu = true := by decide

theorem test_reset_second_status_read_fails :
    let t := run .reset { start 20 [ack, st 0x08, ack, nak] with apu := true, spu := true }
    t.trace = [.prim (.wcfg true false false) true, ST 0x08, .prim .wrs true, .status none] ∧
    t.resOk = false ∧ t.cause = 1 ∧ t.spu = false := by decide

/-! ### Bits (V14, V15) -/

theorem test_rdbit_sample :
    let t := run .rdbit (start 20 [ack, st 0x28])
    t.trace = [.prim (.wsb true) true, ST 0x28] ∧ t.resBit = true ∧ t.resOk = true ∧ t.packRes = 0x03 := by decide

theorem test_rdbit_failure_keeps_bit :
    let t := run .rdbit { start 20 [ack, nak] with resBit := true }
    t.trace = [.prim (.wsb true) true, .status none] ∧ t.cause = 1 ∧ t.resBit = true := by decide

theorem test_wrbit_discards_sample :
    let t := run (.wrbit true) (start 20 [ack, st 0x28])
    t.trace = [.prim (.wsb true) true, ST 0x28] ∧ t.resBit = false ∧ t.resOk = true := by decide

theorem test_wrbit_zero : (run (.wrbit false) (start 20 [ack, st 0x08])).trace = [.prim (.wsb false) true, ST 0x08] := by decide

/-! ### Bytes and the retry budget (V10, V11, V16, V20, V22) -/

theorem test_wrbyte_idle_on_the_last_permitted_read :
    let t := run (.wrbyte 0x44) (start 3 [ack, st 0x09, st 0x09, st 0x08])
    t.trace = [.prim (.wwb 0x44) true, ST 0x09, ST 0x09, ST 0x08] ∧ t.resOk = true ∧ t.cause = 0 := by decide

theorem test_wrbyte_times_out_and_notifies :
    let t := run (.wrbyte 0x55) { start 2 [ack, st 0x09, st 0x0D, st 0x08] with cbEn := true }
    t.trace = [.prim (.wwb 0x55) true, ST 0x09, ST 0x0D, .notify .short] ∧ t.resOk = false ∧ t.cause = 2 ∧
    t.sdSeen = true := by decide

theorem test_rdbyte_data :
    let t := run .rdbyte (start 20 [ack, st 0x08, st 0xA5])
    t.trace = [.prim .wrb true, ST 0x08, .data (some 0xA5)] ∧ t.data = 0xA5 ∧ t.resOk = true := by decide

theorem test_rdbyte_failure_keeps_data :
    let t := run .rdbyte { start 20 [ack, st 0x08, nak] with data := 0xA5 }
    t.trace = [.prim .wrb true, ST 0x08, .data none] ∧ t.data = 0xA5 ∧ t.cause = 1 := by decide

/-! ### Byte strings (V17, V18) -/

theorem test_rdbytes_stops_at_the_third :
    let t := run (.rdbytes 3) (withBuf [0, 0, 0xEE] (start 20 [ack, st 0x08, st 0xA5, ack, st 0x08, st 0x3C, nak]))
    t.bufBytes 3 = [0xA5, 0x3C, 0xEE] ∧ t.resOk = false ∧ t.cause = 1 ∧ t.data = 0 := by decide

theorem test_rdbytes_zero : (run (.rdbytes 0) (start 20 [])).trace = [] ∧ (run (.rdbytes 0) (start 20 [])).resOk = true := by
  decide

theorem test_wrbytes_two :
    let t := run (.wrbytes 2) (withBuf [0x4E, 0x7F] (start 20 [ack, st 0x08, ack, st 0x08]))
    t.trace = [.prim (.wwb 0x4E) true, ST 0x08, .prim (.wwb 0x7F) true, ST 0x08] ∧ t.resOk = true := by decide

theorem test_wrbytes_second_fails :
    let t := run (.wrbytes 3) (withBuf [0x4E, 0x7F, 0x11] (start 20 [ack, st 0x08, nak]))
    t.trace = [.prim (.wwb 0x4E) true, ST 0x08, .prim (.wwb 0x7F) false] ∧ t.cause = 1 := by decide

/-! ### SKIP and SELECT (V19) -/

theorem test_skip : (run .skip (start 20 [ack, st 0x08])).trace = [.prim (.wwb 0xCC) true, ST 0x08] := by decide

theorem test_select_fourth_fails :
    let t := run .select (withBuf devA.toList (start 20 [ack, st 0x08, ack, st 0x08, ack, st 0x08, nak]))
    t.trace = [.prim (.wwb 0x55) true, ST 0x08, .prim (.wwb 0x28) true, ST 0x08, .prim (.wwb 0x01) true, ST 0x08,
      .prim (.wwb 0x00) false] ∧ t.cause = 1 := by decide

/-! ### SEARCH and RSTSRCH (V30, V37, R140) -/

theorem test_search_one_device :
    let t := run .search (start 20 (searchAnswers devA))
    t.resOk = true ∧ t.rom = devA ∧ t.ld = 0 ∧ t.ldf = true ∧ t.bufBytes 8 = devA.toList ∧ t.trace.length = 133 ∧
    t.trace.take 8 = [ST 0x08, .prim .wrs true, ST 0x0A, .prim (.wwb 0xF0) true, ST 0x0A, .prim (.wt true) true, ST 0x4A,
      .prim (.wt false) true] := by decide +kernel

theorem test_search_collision :
    let t := run .search { start 20 [st 0x08, ack, st 0x0A, ack, st 0x0A, ack, st 0xEA] with
      rom := #v[1, 2, 3, 4, 5, 6, 7, 8], ld := 5 }
    t.trace = [ST 0x08, .prim .wrs true, ST 0x0A, .prim (.wwb 0xF0) true, ST 0x0A, .prim (.wt true) true, ST 0xEA] ∧
    t.cause = 3 ∧ t.rom = #v[0, 0, 0, 0, 0, 0, 0, 0] ∧ t.ld = 0 ∧ t.ldf = false := by decide +kernel

theorem test_rstsrch :
    let t := run .rstsrch { start 20 [] with rom := devB, ldf := true }
    t.rom = #v[0, 0, 0, 0, 0, 0, 0, 0] ∧ t.ld = 0 ∧ t.ldf = false ∧ t.trace = [] ∧ t.resOk = true := by decide

/-! ### ATTACH (V45), CRC8 and VERIFY (V1, V5, V6) -/

theorem test_attach_leaves_edges :
    let t := run (.attach true) { start 20 [] with sdSeen := true }
    t.cbEn = true ∧ t.sdSeen = true ∧ t.trace = [] := by decide

theorem test_attach_zero : (run (.attach false) { start 20 [] with cbEn := true }).cbEn = false := by decide

theorem test_crc8_seven :
    (run (.crc8 7) (withBuf [0x02, 0x1C, 0xB8, 0x01, 0, 0, 0] (start 20 []))).data = 0xA2 := by decide +kernel

theorem test_crc_values : crc8 [0x31, 0x32, 0x33, 0x34, 0x35, 0x36, 0x37, 0x38, 0x39] = 0xA1 ∧ crc8 [0x4E, 0x7F] = 0xFE ∧
    crc8 [0x02] = 0xBC ∧ crc8 [] = 0 := by decide +kernel

theorem test_verify_eight :
    (run (.verify 8) (withBuf [0x02, 0x1C, 0xB8, 0x01, 0, 0, 0, 0xA2] (start 20 []))).resOk = true := by decide +kernel

theorem test_verify_mismatch :
    (run (.verify 8) (withBuf [0x02, 0x1C, 0xB8, 0x01, 0, 0, 0, 0xA3] (start 20 []))).cause = 5 := by decide +kernel

/-! ### The host port and the transport rendering (V47, V12, V15, P5) -/

theorem test_host_packing :
    let s := { start 20 [] with
      apu := true, od := true, cbEn := true, ld := 9, resOk := true, resBit := true, cause := 5, data := 0x1C, rom := devB }
    (List.range 17).map (fun k => hostRegValue (k + 1) s) =
      [0x03, 0x05, 0x1C, 0x05, 0x09, 0x01, 0, 0x28, 0x03, 0, 0, 0, 0, 0, 0x47, 0, 0] := by decide

theorem test_host_cfg_write :
    (after (step { start 20 [] with host := [.writeReg 4 0xFF] })).packCfg = 0x07 := by decide

theorem test_transport_of_reset :
    ({ start 20 [] with trace := [.prim (.wcfg true false false) true, ST 0x08, .prim (.wcfg true true false) true,
        .prim (.wsb true) true, .prim (.wsb false) true] }).transportTrace (fun _ => .read) =
      [.write 0x18 [0xD2, 0xE1] true, .write 0x18 [0xE1, 0xF0] true, .read 0x18 1 (some 0x08), .write 0x18 [0xD2, 0xA5] true,
       .write 0x18 [0x87, 0x80] true, .write 0x18 [0x87, 0x00] true] := by decide

/-- R81: a failed composite read, in either part. -/
theorem test_transport_of_failed_reads :
    ({ start 20 [] with trace := [.data none, .status none] }).transportTrace (fun k => if k = 0 then .pointerSet else .read) =
      [.write 0x18 [0xE1, 0xE1] false, .write 0x18 [0xE1, 0xF0] true, .read 0x18 1 none] := by decide

theorem test_script_moves :
    scriptMoves [.buf 7 [0xA3], .command (.verify 8), .cfg true true false] =
      [.writeBuf 7 0xA3, .writeReg 0 0x0E08, .writeReg 4 0x0003] := by decide

/-! ### Witnesses: a state and operands that meet all the hypotheses of a statement together -/

/-- The listed answers are the next ones. -/
theorem answers_of_list (s : State) (as : List Answer) (h : s.answers = as) : s.Answers as := by
  intro n hn
  subst h
  simp [State.answerAt, hn]

/-- An exchange with one busy read, and one idle at once. -/
def slow : Exchange := ⟨0, ⟨[0x09], 0x28⟩⟩
def quick : Exchange := ⟨0, ⟨[], 0x08⟩⟩

/-- With POLL_MAX 2: a denied primitive, a status read denied on the last permitted read, and two busy reads. -/
def failures : List PollFailure := [.primitive 7, .statusRead 0 [0x09] 7, .timeout 0 [0x09, 0x0D]]

theorem witness_EveryStepKeepsInvariant : (start 3 []).Inv ∧ ∃ t, step (start 3 []) = .next t := by
  refine ⟨⟨by decide, by decide, by decide, by decide, by decide⟩, _, rfl⟩

theorem witness_CommandsEndOnlyWithTheirCauses :
    (Instr.wrbyte 0x44).wellFormed = true ∧ ∃ t, exec (.wrbyte 0x44) (start 3 [nak]) = .next t ∧ t.cause = 1 :=
  ⟨rfl, _, rfl, by decide⟩

/-- Each cause but CHECKSUM with what R175 says raised it: the pulse's presence bit with the restoring write answered and
denied, POLL_MAX busy reads with a denied P_DRST, a collision, the terminal state. -/
theorem witness_CommandsEndOnlyWithTheirCauses_triggers :
    (let s := { start 3 [ack, st 0x08, ack, st 0x0B, st 0x08, ack] with spu := true }
     (run .reset s).cause = 6 ∧ pulseBytes false (newEvents s (run .reset s)) = [0x08]) ∧
    (let s := { start 3 [ack, st 0x08, ack, st 0x08, nak] with spu := true }
     (run .reset s).cause = 1 ∧ pulseBytes false (newEvents s (run .reset s)) = [0x08] ∧
       (newEvents s (run .reset s)).any Event.isDenied = true) ∧
    (let s := { start 2 [st 0x08, ack, st 0x09, st 0x0D, nak] with params := { tp 2 with timeoutDrst := true }, cbEn := true }
     (run .reset s).cause = 2 ∧ busyRow 0 (newEvents s (run .reset s)) = 2 ∧
       (newEvents s (run .reset s)).any Event.isDenied = false) ∧
    (let s := start 3 [st 0x08, ack, st 0x0A, ack, st 0x0A, ack, tripletOf true, ack, st 0x6A]
     (run .search s).cause = 3 ∧ tripletBytes false (newEvents s (run .search s)) = [0xAA, 0x6A]) ∧
    (run .search { start 3 [] with ldf := true }).cause = 7 := by decide +kernel

/-- CHECKSUM: VERIFY of one byte that is no CRC of nothing, and a SEARCH of 64 triplets that do not match. -/
theorem witness_CommandsEndOnlyWithTheirCauses_checksum :
    (run (.verify 1) (withBuf [1] (start 3 []))).cause = 5 ∧
    (let s := start 3 (searchAnswers devX)
     (run .search s).cause = 5 ∧ (tripletBytes false (newEvents s (run .search s))).length = 64) := by decide +kernel

theorem witness_DecodeOfEncodeIsIdentity : (Instr.verify 255).wellFormed = true := by decide

theorem witness_EncodeOfDecodeIsIdentity : decode 0x0DFF = .ok (.crc8 0xFF) := by decide

theorem witness_DecodeAgreesWithOpcodeTable : decode 0x0301 = .ok (.wrbit true) ∧ decode 0x0C02 = .error .nonzeroHighOperand := by
  decide

theorem witness_StepRunsThePresentedCommand :
    ({ start 3 [] with host := [.writeReg 0 0x0B00] }).host = .writeReg 0 0x0B00 :: [] ∧ decode 0x0B00 = .ok .rstsrch ∧
    (start 3 []).host = [] := by decide

theorem witness_IllegalWordOnlyFails :
    ({ start 3 [] with host := [.writeReg 0 0x0101] }).host = .writeReg 0 0x0101 :: [] ∧
    (opField 0x0001).toNat = 0 ∧ 0x0E < (opField 0x0F00).toNat ∧
    ((opField 0x0B80).toNat ∈ [0x01, 0x02, 0x04, 0x08, 0x09, 0x0A, 0x0B] ∧ argField 0x0B80 ≠ 0) ∧
    ((opField 0x0C02).toNat ∈ [0x03, 0x0C] ∧ (argField 0x0C02).extractLsb' 1 7 ≠ 0) := by decide

theorem witness_HostWriteOfCfgSetsTheShadowOnly :
    ({ start 3 [] with host := [.writeReg 4 0x00FF] }).host = .writeReg 4 0x00FF :: [] := by decide

theorem witness_HostWritesElsewhere :
    ({ start 3 [] with host := [.writeReg 3 0x00FF] }).host = .writeReg 3 0x00FF :: [] ∧
    ({ start 3 [] with host := [.writeReg 7 0x00FF] }).host = .writeReg 7 0x00FF :: [] ∧
    ({ start 3 [] with host := [.writeBuf 255 9] }).host = .writeBuf 255 9 :: [] := by decide

theorem witness_HostReadsGiveThePackedValue :
    (List.range 17).map (fun k => (after (step { start 3 [] with host := [.readReg (k + 1)], rom := devB, ldf := true })).hostOut) =
      [[0], [0], [0], [0], [0x80], [0], [0], [0x28], [3], [0], [0], [0], [0], [0], [0x47], [0], [0]] ∧
    (after (step { withBuf [7] (start 3 []) with host := [.readBuf 0] })).hostOut = [7] := by decide

theorem witness_EqualBuffersAreEqualData : Memory.wf [(0, 7), (255, 9)] = true ∧
    Memory.write (Memory.write [] 255 9) 0 7 = Memory.write (Memory.write [] 0 7) 255 9 := by decide

theorem witness_one_exchange (i : Instr) (h : i ∈ [Instr.wrbyte 0xFF, .wrbit false, .rdbit, .skip]) :
    i.wellFormed = true ∧ (start 2 [yes 0, yes 0x09, yes 0x28]).Answers slow.answers ∧ slow.good 2 = true :=
  ⟨by simp only [List.mem_cons, List.not_mem_nil, or_false] at h; rcases h with rfl | rfl | rfl | rfl <;> rfl,
    answers_of_list _ _ rfl, by decide⟩

theorem witness_WriteByteCompletes : (start 2 slow.answers).Answers slow.answers ∧ slow.good 2 = true :=
  ⟨answers_of_list _ _ rfl, by decide⟩
theorem witness_WriteBitCompletes : (start 1 quick.answers).Answers quick.answers ∧ quick.good 1 = true :=
  ⟨answers_of_list _ _ rfl, by decide⟩
theorem witness_ReadBitCompletes : (start 2 slow.answers).Answers slow.answers ∧ slow.good 2 = true ∧
    slow.poll.idle.getLsbD 5 = true := ⟨answers_of_list _ _ rfl, by decide, by decide⟩
theorem witness_ReadByteCompletes : (start 2 (slow.answers ++ [yes 0xA5])).Answers (slow.answers ++ [yes 0xA5]) ∧
    slow.good 2 = true := ⟨answers_of_list _ _ rfl, by decide⟩
theorem witness_SkipCompletes : (start 1 quick.answers).Answers quick.answers ∧ quick.good 1 = true :=
  ⟨answers_of_list _ _ rfl, by decide⟩

theorem witness_DeniedPrimitiveEndsTheCommand :
    ((start 3 [nak]).answerAt 0).ok = false ∧
    (Instr.skip, Prim.wwb (start 3 [nak]).params.cmdSkipRom) ∈
      [(Instr.wrbit true, Prim.wsb true), (.rdbit, .wsb true), (.wrbyte 0, .wwb 0), (.rdbyte, .wrb),
        (.skip, .wwb (start 3 [nak]).params.cmdSkipRom)] := by decide

theorem witness_WaitBusyFollowsItsRule :
    (([0x09, 0x09] : List Byte).length < (start 3 []).params.pollMax ∧ statusBusy 0x08 = false ∧
      (start 3 (([0x09, 0x09] ++ [0x08]).map yes)).Answers (([0x09, 0x09] ++ [0x08]).map yes)) ∧
    (start 3 (([0x09, 0x09] : List Byte).map yes ++ [⟨false, 7⟩])).Answers (([0x09, 0x09] : List Byte).map yes ++ [⟨false, 7⟩]) ∧
    (([0x09, 0x09, 0x0D] : List Byte).length = (start 3 []).params.pollMax ∧
      (start 3 (([0x09, 0x09, 0x0D] : List Byte).map yes)).Answers (([0x09, 0x09, 0x0D] : List Byte).map yes)) ∧
    (∀ b ∈ ([0x09, 0x09, 0x0D] : List Byte), statusBusy b = true) :=
  ⟨⟨by decide, by decide, answers_of_list _ _ rfl⟩, answers_of_list _ _ rfl, ⟨by decide, answers_of_list _ _ rfl⟩, by decide⟩

theorem witness_WriteBytesCompletes : [slow, quick].length = (2 : Byte).toNat ∧
    (start 2 ([slow, quick].flatMap Exchange.answers)).Answers ([slow, quick].flatMap Exchange.answers) ∧
    ∀ x ∈ [slow, quick], x.good 2 = true := ⟨by decide, answers_of_list _ _ rfl, by decide⟩

theorem witness_WriteBytesStopsAtFirstFailure : [quick].length < (2 : Byte).toNat ∧ (∀ x ∈ [quick], x.good 2 = true) ∧
    ∀ f ∈ failures, f.good 2 = true ∧
      (start 2 ([quick].flatMap Exchange.answers ++ f.answers)).Answers ([quick].flatMap Exchange.answers ++ f.answers) :=
  ⟨by decide, by decide, fun f hf => ⟨(by decide : ∀ f ∈ failures, f.good 2 = true) f hf, answers_of_list _ _ rfl⟩⟩

theorem witness_ReadBytesCompletes : [(slow, (0xA5 : Byte)), (quick, 0x3C)].length = (2 : Byte).toNat ∧
    (start 2 ([(slow, (0xA5 : Byte)), (quick, 0x3C)].flatMap fun x => x.1.answers ++ [yes x.2])).Answers
      ([(slow, (0xA5 : Byte)), (quick, 0x3C)].flatMap fun x => x.1.answers ++ [yes x.2]) ∧
    ∀ x ∈ [(slow, (0xA5 : Byte)), (quick, 0x3C)], x.1.good 2 = true := ⟨by decide, answers_of_list _ _ rfl, by decide⟩

theorem witness_ReadBytesStopsAtFirstFailure : [(slow, (0xA5 : Byte))].length < (2 : Byte).toNat ∧
    (∀ x ∈ [(slow, (0xA5 : Byte))], x.1.good 2 = true) ∧ (∀ f ∈ failures, f.good 2 = true) ∧ slow.good 2 = true ∧
    ∀ as ∈ (slow.answers ++ [⟨false, 7⟩]) :: failures.map PollFailure.answers,
      (start 2 (([(slow, (0xA5 : Byte))].flatMap fun x => x.1.answers ++ [yes x.2]) ++ as)).Answers
        (([(slow, (0xA5 : Byte))].flatMap fun x => x.1.answers ++ [yes x.2]) ++ as) :=
  ⟨by decide, by decide, by decide, by decide, fun _ _ => answers_of_list _ _ rfl⟩

theorem witness_SelectCompletes : (List.replicate 8 quick).length = 8 ∧
    (start 2 (slow.answers ++ (List.replicate 8 quick).flatMap Exchange.answers)).Answers
      (slow.answers ++ (List.replicate 8 quick).flatMap Exchange.answers) ∧
    slow.good 2 = true ∧ ∀ y ∈ List.replicate 8 quick, y.good 2 = true :=
  ⟨by decide, answers_of_list _ _ rfl, by decide, by decide⟩

theorem witness_SendingCommandsAreByteSequences : (255 : Byte) ≠ 0 := by decide

/-- A reset with presence, one busy read after the pulse. -/
def present : ResetExchange := ⟨0, ⟨[], 0x08⟩, ⟨0, ⟨[0x0B], 0x0A⟩⟩, 0⟩
def absent : ResetExchange := ⟨0, ⟨[], 0x08⟩, ⟨0, ⟨[], 0x08⟩⟩, 0⟩

theorem witness_ResetCompletes :
    ({ start 2 (present.answers true) with spu := true }).Answers (present.answers true) ∧ present.good 2 = true ∧
    present.pulse.poll.idle.getLsbD 1 = true ∧
    (start 1 (absent.answers false)).Answers (absent.answers false) ∧ absent.good 1 = true ∧
    absent.pulse.poll.idle.getLsbD 1 = false :=
  ⟨answers_of_list _ _ rfl, by decide, by decide, answers_of_list _ _ rfl, by decide, by decide⟩

theorem witness_FailedResetLeavesPullUpCleared :
    (let t := run .reset { start 3 [ack, nak] with spu := true }
     t.resOk = false ∧ t.cause ≠ Cause.noPresence.code ∧ t.spu = false) ∧
    (let t := run .reset { start 3 [nak] with spu := true }
     t.resOk = false ∧ t.cause ≠ Cause.noPresence.code ∧ t.spu = true) := by decide

theorem witness_SearchStepsOneAndTwo :
    ({ start 3 [] with ldf := true }).ldf = true ∧ (start 3 [nak]).ldf = false ∧
    ∃ u, exec .reset (start 3 [nak]) = .next u ∧ u.resOk = false := ⟨rfl, rfl, _, rfl, by decide⟩

/-- The triplets' exchanges of a SEARCH that finds `rom`, a discrepancy with 0 taken at index 9. -/
def triplets (rom : Vector Byte 8) : List Exchange :=
  (List.range 64).map fun i => ⟨0, ⟨[], if i = 9 then 0x0A else if romBit rom i then 0xAA else 0x4A⟩⟩

/-- Both branches of the checksum test: a valid address and an invalid one, each with all the hypotheses met. -/
theorem witness_SearchCompletes : ∀ found ∈ [devA, devX],
    (start 2 []).ldf = false ∧ (triplets found).length = 64 ∧
    (start 2 (present.answers false ++ quick.answers ++ (triplets found).flatMap Exchange.answers)).Answers
      (present.answers false ++ quick.answers ++ (triplets found).flatMap Exchange.answers) ∧
    present.good 2 = true ∧ quick.good 2 = true ∧ (∀ x ∈ triplets found, x.good 2 = true) ∧
    statusPPD present.pulse.poll.idle = true ∧
    (∀ x ∈ triplets found, ¬(statusSBR x.poll.idle = true ∧ statusTSB x.poll.idle = true)) ∧
    (∀ i (h : i < (triplets found).length), romBit found i = statusDIR (triplets found)[i].poll.idle) ∧
    (crc8 (found.toList.take 7) = found[7] ↔ found = devA) := by
  intro found h
  simp only [List.mem_cons, List.not_mem_nil, or_false] at h
  rcases h with rfl | rfl <;>
    exact ⟨rfl, by decide, answers_of_list _ _ rfl, by decide, by decide, by decide +kernel, by decide,
      by decide +kernel, by decide +kernel, by decide +kernel⟩

/-- One exit of SEARCH for each row of R138: the terminal state, no presence, a failed reset, the command byte denied, the
second triplet denied, a collision, a checksum mismatch, an address delivered. -/
theorem witness_SearchExitsLeaveTheStatedState :
    (run .search { start 3 [] with ldf := true }).cause = 7 ∧
    (run .search (start 3 [st 0x08, ack, st 0x08])).cause = 6 ∧
    (run .search (start 3 [nak])).cause = 1 ∧ (newEvents (start 3 [nak]) (run .search (start 3 [nak]))).any Event.isWriteByte = false ∧
    (run .search (start 3 [st 0x08, ack, st 0x0A, nak])).cause = 1 ∧
    (let s := start 3 [st 0x08, ack, st 0x0A, ack, st 0x0A, ack, tripletOf true, nak]
     (run .search s).cause = 1 ∧ (newEvents s (run .search s)).any Event.isWriteByte = true ∧
       tripletBytes false (newEvents s (run .search s)) = [0xAA] ∧ (run .search s).rom = #v[1, 0, 0, 0, 0, 0, 0, 0]) ∧
    (run .search (start 3 [st 0x08, ack, st 0x0A, ack, st 0x0A, ack, st 0xEA])).cause = 3 ∧
    (run .search (start 3 (searchAnswers devX))).cause = 5 ∧
    (run .search (start 3 (searchAnswers devA))).cause = 0 := by decide +kernel

/-- V31's second SEARCH up to the triplet after LD: the recorded bits below 9, 1 at 9, 0 above. -/
theorem witness_SearchRequestsTheLiteralDirections :
    let s := { start 3 ([st 0x08, ack, st 0x0A, ack, st 0x0A] ++
      ((List.range 9).flatMap fun i => [ack, tripletOf (romBit devA i)]) ++ [ack, st 0x8A, nak]) with rom := devA, ld := 9 }
    (newEvents s (run .search s)).filterMap Event.tripletDir? =
      [false, false, false, true, false, true, false, false, true, true, false] := by decide +kernel

theorem witness_VerifyComparesTheTrailingByte :
    (1 : Byte) ≠ 0 ∧
    (let s := withBuf [0] (start 3 [])
     crc8 ((List.range ((1 : Byte).toNat - 1)).map s.bufAt) = s.bufAt ((1 : Byte).toNat - 1)) ∧
    (let s := withBuf [1] (start 3 [])
     crc8 ((List.range ((1 : Byte).toNat - 1)).map s.bufAt) ≠ s.bufAt ((1 : Byte).toNat - 1)) ∧
    ({ start 3 [] with host := [.writeReg 0 0x0E00] }).host = .writeReg 0 0x0E00 :: [] := by decide

theorem witness_CrcIsLinear : ([0x12, 0x34, 0x56] : List Byte).length = ([0xAB, 0xCD, 0xEF] : List Byte).length ∧
    crc8 [0x12, 0x34, 0x56] = 0x15 ∧ crc8 [0xAB, 0xCD, 0xEF] = 0xA2 ∧ crc8 [0xB9, 0xF9, 0xB9] = 0xB7 := by decide +kernel

theorem witness_CrcSeesSingleBitErrors : 7 < 8 ∧ crc8 [0, 0, 0, 0, 0, 0, 0, bitAt 7 true] = 0x8C ∧
    crc8 [bitAt 0 true, 0, 0, 0, 0, 0, 0, 0] = 0x43 := by decide +kernel

/-- A command that issues, reads a rising SHORT and RESET, and notifies (V20): the premise `exec i s = .next t` of the rules
about every command, met with something in the trace. -/
def shorted : State := { start 5 [ack, st 0x09, st 0x1D, st 0x1C] with cbEn := true }

theorem witness_shorted : ∃ t, exec (.wrbyte 0x11) shorted = .next t ∧ newEvents shorted t =
    [.prim (.wwb 0x11) true, ST 0x09, ST 0x1D, .notify .short, .notify .reset, ST 0x1C] := ⟨_, rfl, by decide⟩

theorem witness_CommandsOnlyAppendToTheTrace : ∃ t, exec (.wrbyte 0x11) shorted = .next t ∧ t.trace.length = 6 :=
  ⟨_, rfl, by decide⟩
theorem witness_NotificationsAreTheRisingEdges :
    ∃ t, exec (.wrbyte 0x11) shorted = .next t ∧ t.sdSeen = true ∧ t.rstSeen = true := ⟨_, rfl, by decide⟩
theorem witness_NotificationCountIsEdgeCount :
    (∀ i ∈ [Instr.wrbyte 0x11, .skip], ∀ b, i ≠ .attach b) ∧ shorted.cbEn = true ∧
    ∃ t, runAll [.wrbyte 0x11, .skip] { shorted with answers := shorted.answers ++ [ack, st 0x08] } = .next t ∧
      t.trace.count (.notify .short) = 1 := ⟨by simp, rfl, _, rfl, by decide⟩
theorem witness_CommandsWaitForTheBridge :
    ∃ t, exec (.wrbytes 2) (start 2 [ack, st 0x09, st 0x08, nak]) = .next t ∧ t.trace.length = 4 := ⟨_, rfl, by decide⟩
theorem witness_CommandsWaitForTheBridge_success :
    ∃ t, exec (.wrbytes 2) (start 2 [ack, st 0x09, st 0x08, ack, st 0x08]) = .next t ∧ t.resOk = true ∧
      stillWaiting false (t.trace.take 4) = true := ⟨_, rfl, by decide, by decide⟩
theorem witness_ShadowFollowsAcceptedConfigurations :
    ∃ t, exec .reset { start 2 [ack, st 0x08, ack, st 0x0A, nak] with spu := true } = .next t ∧
      .prim (.wcfg false true false) false ∈ newEvents { start 2 [] with spu := true } t := ⟨_, rfl, by decide⟩
theorem witness_PullUpIsOffDuringReset :
    ∃ t, exec .reset { start 2 [ack, st 0x08, ack, st 0x0A, ack] with spu := true } = .next t ∧
      .prim .wrs true ∈ newEvents { start 2 [] with spu := true } t := ⟨_, rfl, by decide⟩
theorem witness_CommandsAreBounded :
    ∃ t, exec .reset { start 2 [ack, st 0x09, st 0x08, ack, st 0x0B, st 0x0A, ack] with spu := true } = .next t ∧
      t.trace.countP Event.isPrim = 3 ∧ t.trace.countP Event.isStatus = 4 := ⟨_, rfl, by decide⟩
theorem witness_FailedAnswerBytesAreUnread :
    ∃ t, exec .rdbyte (start 2 [ack, st 0x08, ⟨false, 0x77⟩]) = .next t ∧ t.cause = 1 := ⟨_, rfl, by decide⟩
theorem witness_NotificationsChangeNothingElse :
    ∃ t, exec (.wrbyte 0x11) { start 5 [ack, st 0x0D, st 0x0C] with cbEn := true, sdSeen := true } = .next t ∧ t.trace.length = 3 := ⟨_, rfl, by decide⟩
theorem witness_SendingCommandsFrame :
    Instr.select ∈ [Instr.wrbit true, .wrbyte 0, .wrbytes 0, .skip, .select] ∧
    ∃ t, exec .select (start 2 [nak]) = .next t := ⟨by decide, _, rfl⟩
theorem witness_ReceivingCommandsFrame :
    ∃ t u v, exec .rdbit (start 2 [nak]) = .next t ∧ t.resOk = false ∧ exec .rdbyte (start 2 [nak]) = .next u ∧
      u.resOk = false ∧ exec (.rdbytes 255) (start 2 [nak]) = .next v := ⟨_, _, _, rfl, by decide, rfl, by decide, rfl⟩
theorem witness_ResettingCommandsFrame :
    ∃ t u, exec .reset (start 2 [nak]) = .next t ∧ exec .search (start 2 [nak]) = .next u := ⟨_, _, rfl, rfl⟩
theorem witness_ResultRegistersAreWrittenOnlyAsStated :
    (∀ w rest, ({ start 2 [] with host := [.writeReg 4 7] }).host ≠ .writeReg 0 w :: rest) ∧
    ({ start 2 [ack, st 0x28] with host := [.writeReg 0 0x0200] }).host = .writeReg 0 0x0200 :: [] ∧
    (after (step { start 2 [ack, st 0x28] with host := [.writeReg 0 0x0200] })).resBit = true ∧
    (after (step { start 2 [ack, st 0x08, st 0xA5] with host := [.writeReg 0 0x0400] })).data = 0xA5 :=
  ⟨by simp, rfl, by decide, by decide⟩
theorem witness_SearchStateIsTheSearchEnginesOwn :
    Instr.select ≠ .search ∧ Instr.select ≠ .rstsrch ∧ ∃ t, exec .select (start 2 [nak]) = .next t :=
  ⟨by decide, by decide, _, rfl⟩
theorem witness_QuietCommandsTouchNoPort :
    (∃ t, exec (.wrbytes 0) (start 2 [ack]) = .next t) ∧ ({ start 2 [ack] with ldf := true }).ldf = true ∧
    ∃ t, exec .search { start 2 [ack] with ldf := true } = .next t := ⟨⟨_, rfl⟩, rfl, _, rfl⟩
theorem witness_BlocksShareNothing :
    [start 2 [], start 3 []][1]? = some (start 3 []) ∧ (0 : Nat) ≠ 1 := ⟨rfl, by decide⟩
theorem witness_FailedRequestEndsTheCommand :
    (∀ f ∈ failures, f.good 2 = true ∧ (start 2 f.answers).Answers f.answers) ∧
    (Instr.rdbyte, Prim.wrb) ∈ [(Instr.wrbit true, Prim.wsb true), (.rdbit, .wsb true), (.wrbyte 0, .wwb 0), (.rdbyte, .wrb),
      (.skip, .wwb (start 2 []).params.cmdSkipRom)] ∧
    (start 2 (slow.answers ++ [⟨false, 7⟩])).Answers (slow.answers ++ [⟨false, 7⟩]) ∧ slow.good 2 = true :=
  ⟨fun f hf => ⟨(by decide : ∀ f ∈ failures, f.good 2 = true) f hf, answers_of_list _ _ rfl⟩, by decide,
    answers_of_list _ _ rfl, by decide⟩

theorem witness_RequestsRenderAsTransportOperations :
    ({ start 2 [] with trace := [ST 0x08, .data none] }).params = ({ start 2 [] with trace := [ST 0x08] }).params ∧
    ({ start 2 [] with trace := [ST 0x08, .data none] }).trace = ({ start 2 [] with trace := [ST 0x08] }).trace ++ [.data none] ∧
    Event.isRequest (.data none) = true := by decide

/-- The recovery reset of a timeout (R104), denied: the last event, and the cause stays BUSY_TIMEOUT. -/
theorem test_timeout_recovery_reset :
    let t := run .skip { start 2 [ack, st 0x09, st 0x09, nak] with params := { tp 2 with timeoutDrst := true } }
    t.trace = [.prim (.wwb 0xCC) true, ST 0x09, ST 0x09, .prim .drst false] ∧ t.cause = 2 := by decide

end Sys2Proof.Tests
end

/-! PROOFS. How the commands of one request fail, and what a step does with the host's next move. -/

namespace Sys2Proof.Machine

open Sys2Proof

/-! ### One step (R9, R70) -/

theorem step_of_no_move {s : State} (h : s.host = []) : step s = .next s := by
  rw [step, stepHost, h]

theorem step_of_move {s : State} {m : HostMove} {rest : List HostMove} (h : s.host = m :: rest) :
    step s = hostMove m (s.setHost rest) := by
  rw [step, stepHost, h]

@[simp] theorem hostMove_presentWord (w : CmdWord) (s : State) : hostMove (presentWord w) s = runWord w s := rfl

theorem runWord_of_decode {w : CmdWord} {i : Instr} (h : decode w = .ok i) (s : State) :
    runWord w s = exec i s := by
  rw [runWord, h]

/-- Settles O10: the step takes the move, the move writes `CMD`, and the written word runs as what it decodes to. -/
theorem stepRunsThePresentedCommand : Obligations.StepRunsThePresentedCommand := by
  refine ⟨fun s w i rest hhost hdecode => ?_, fun s hhost => step_of_no_move hhost⟩
  calc step s = hostMove (presentWord w) (s.setHost rest) := step_of_move hhost
    _ = runWord w (s.setHost rest) := hostMove_presentWord w _
    _ = exec i (s.setHost rest) := runWord_of_decode hdecode _

/-! ### The commands of one request (R108 to R114, R121) -/

@[simp] theorem runCommand_fail (c : Cause) (s : State) : runCommand (.fail c s) = .next (raiseFail c s) := rfl

/-- The commands that send one request, each with its primitive; `skip` is `CMD_SKIP_ROM`. -/
def oneRequestCommands (skip : Byte) (b : Bool) (v : Byte) : List (Instr × Prim) :=
  [(.wrbit b, .wsb b), (.rdbit, .wsb true), (.wrbyte v, .wwb v), (.rdbyte, .wrb), (.skip, .wwb skip)]

/-- A command of one request ends where its primitive or the poll after it fails, with that failure's cause. -/
theorem exec_oneRequest_failure {s : State} {i : Instr} {p : Prim} {b : Bool} {v : Byte} {f : PollFailure}
    (hi : (i, p) ∈ oneRequestCommands s.params.cmdSkipRom b v) (h : s.Answers f.answers)
    (hf : f.good s.params.pollMax = true) :
    exec i s = .next (raiseFail f.cause (s.afterFailure p f)) := by
  simp only [oneRequestCommands, List.mem_cons, Prod.mk.injEq, List.not_mem_nil, or_false] at hi
  obtain ⟨rfl, rfl⟩ | ⟨rfl, rfl⟩ | ⟨rfl, rfl⟩ | ⟨rfl, rfl⟩ | ⟨rfl, rfl⟩ := hi
  · rw [exec, execWrbit, doBit_failure b h hf, Result.fail_bind, runCommand_fail]
  · rw [exec, execRdbit, doBit_failure true h hf, Result.fail_bind, runCommand_fail]
  · rw [exec, execWrbyte, doWriteByte_failure v h hf, runCommand_fail]
  · rw [exec, execRdbyte, doReadByte_failure h hf, Result.fail_bind, runCommand_fail]
  · rw [exec, execSkip, doWriteByte_failure _ h hf, runCommand_fail]

/-- RDBYTE ends at a denied data read (R113). -/
theorem exec_rdbyte_dataDenied {s : State} {x : Exchange} {z : Byte} (h : s.Answers (x.answers ++ [⟨false, z⟩]))
    (hx : x.good s.params.pollMax = true) :
    exec .rdbyte s =
      .next (raiseFail .transport ((s.afterExchanges [(.wrb, x)]).dropAnswer.emit (.data none))) := by
  rw [exec, execRdbyte, doReadByte_dataDenied h hx, Result.fail_bind, runCommand_fail]

/-- The environment's next answer, denied, is a failure of the primitive it answers. -/
theorem Answers_primitive_of_denied {s : State} (h : (s.answerAt 0).ok = false) :
    s.Answers (PollFailure.primitive (s.answerAt 0).byte).answers := by
  refine State.Answers.cons.2 ⟨?_, fun _ hn => absurd hn (Nat.not_lt_zero _)⟩
  rw [State.nextAnswer_eq, ← h]

/-- A primitive denied: one answer used, one event, nothing polled. -/
theorem State.afterFailure_primitive (s : State) (p : Prim) (z : Byte) :
    s.afterFailure p (.primitive z) = (s.consumed 1).emit (.prim p false) := by
  simp [State.afterFailure, PollFailure.answers, PollFailure.recovery, PollFailure.events, PollFailure.busy,
    State.emit, State.consumed]

/-- The state after one exchange and one more answer used, as its fields. -/
theorem State.afterExchange_dropAnswer (s : State) (p : Prim) (x : Exchange) :
    (s.afterExchanges [(p, x)]).dropAnswer =
      { s.consumed (x.answers.length + 1) with
        sdSeen := statusSD x.poll.idle, rstSeen := statusRST x.poll.idle,
        trace := s.trace ++ exchangeEvents s.cbEn s.sdSeen s.rstSeen [(p, x)] } := by
  rw [State.dropAnswer_eq, ← State.consumed_consumed]
  simp [State.afterExchanges, exchangeAnswers, State.consumed]

/-- Settles O59: the procedures' failures, carried to the end of the command. -/
theorem failedRequestEndsTheCommand : Obligations.FailedRequestEndsTheCommand := by
  refine ⟨fun s i p b v f hi h hf => exec_oneRequest_failure (b := b) (v := v) hi h hf, fun s x z h hx => ?_⟩
  rw [exec_rdbyte_dataDenied h hx, State.afterExchange_dropAnswer]
  rfl

/-- Settles O21: a denied primitive is the failure in which nothing is polled. -/
theorem deniedPrimitiveEndsTheCommand : Obligations.DeniedPrimitiveEndsTheCommand := by
  intro s i p b v hi hno
  rw [exec_oneRequest_failure (b := b) (v := v) hi (Answers_primitive_of_denied hno) rfl,
    State.afterFailure_primitive]
  rfl

end Sys2Proof.Machine

/-! PROOFS. The block's state over a step: what a step can be, the invariant, the result registers, and that the edge
memories and the enable show in the notifications alone. -/

namespace Sys2Proof.Machine

open Sys2Proof

/-! ### What a step can be (R9, R27, R51) -/

theorem hostWriteReg_ignored {index : Nat} (h0 : index ≠ 0) (h4 : index ≠ 4) (v : CmdWord) (s : State) :
    hostWriteReg index v s = .next s := by
  rw [hostWriteReg, if_neg h0, if_neg h4]

/-- A register read only gives a value; only that of `CMD` draws a free one. -/
theorem hostReadReg_eq (index : Nat) (s : State) :
    ∃ n, hostReadReg index s = { s.give (hostRegValue index s) with freeCount := n } := by
  unfold hostReadReg
  split_ifs with h
  · exact ⟨s.freeCount + 1, by rw [h]; rfl⟩
  · exact ⟨s.freeCount, rfl⟩

/-- Everything one step can be: nothing waiting, a word presented, or a move that is no command. -/
inductive StepCase (s : State) : State → Prop where
  | idle (h : s.host = []) : StepCase s s
  | command (w : CmdWord) (rest : List HostMove) (t : State) (h : s.host = .writeReg 0 w :: rest)
      (run : runWord w (s.setHost rest) = .next t) : StepCase s t
  | cfg (v : CmdWord) (rest : List HostMove) (h : s.host = .writeReg 4 v :: rest) :
      StepCase s (writeCfg (v.extractLsb' 0 8) (s.setHost rest))
  | ignored (index : Nat) (v : CmdWord) (rest : List HostMove) (h : s.host = .writeReg index v :: rest)
      (h0 : index ≠ 0) : StepCase s (s.setHost rest)
  | byte (k v : Byte) (rest : List HostMove) (h : s.host = .writeBuf k v :: rest) :
      StepCase s ((s.setHost rest).writeBuf k.toNat v)
  | read (m : HostMove) (rest : List HostMove) (v : Byte) (n : Nat) (h : s.host = m :: rest)
      (hm : ∀ w, m ≠ .writeReg 0 w) : StepCase s { (s.setHost rest).give v with freeCount := n }

theorem step_cases {s t : State} (h : step s = .next t) : StepCase s t := by
  cases hhost : s.host with
  | nil =>
    rw [step_of_no_move hhost] at h
    cases h
    exact .idle hhost
  | cons m rest =>
    rw [step_of_move hhost] at h
    cases m with
    | writeReg index v =>
      by_cases h0 : index = 0
      · subst h0
        exact .command v rest t hhost h
      by_cases h4 : index = 4
      · subst h4
        cases h
        exact .cfg v rest hhost
      · rw [hostMove, hostWriteReg_ignored h0 h4] at h
        cases h
        exact .ignored index v rest hhost h0
    | writeBuf k v =>
      cases h
      exact .byte k v rest hhost
    | readReg index =>
      obtain ⟨n, hn⟩ := hostReadReg_eq index (s.setHost rest)
      rw [hostMove, hn] at h
      cases h
      exact .read _ rest _ n hhost (by simp)
    | readBuf k =>
      cases h
      exact .read _ rest _ s.freeCount hhost (by simp)

/-- Settles O13: the move is taken, and the store's law of read after write says what each byte is. -/
theorem hostWritesElsewhere : Obligations.HostWritesElsewhere := by
  refine ⟨fun s index v rest hhost h0 h4 => ?_, fun s k v rest hhost => ?_⟩
  · rw [step_of_move hhost, hostMove, hostWriteReg_ignored h0 h4]
    rfl
  · refine ⟨Memory.write s.buf k.toNat v, step_of_move hhost, ?_, fun j hj => ?_⟩
    · rw [Memory.read_write_law, if_pos rfl]
    · rw [Memory.read_write_law, if_neg hj]

/-! ### Every command ends by `done` or `raise Fail` (R12) -/

theorem exec_is_runCommand (i : Instr) (s : State) : ∃ r, exec i s = runCommand r := by
  cases i <;> exact ⟨_, rfl⟩

theorem runWord_is_runCommand (w : CmdWord) (s : State) : ∃ r, runWord w s = runCommand r := by
  unfold runWord
  cases decode w with
  | ok i => exact exec_is_runCommand i s
  | error _ => exact ⟨_, rfl⟩

theorem eq_endCommand {o : Host.Outcome State Fault Refusal} {r : Result Unit} {t : State} (hr : o = runCommand r)
    (ht : o = .next t) : t = endCommand r := by
  cases hr.symm.trans ht
  rfl

theorem code_ne_causeNone (c : Cause) : c.code ≠ causeNone := by cases c <;> decide

theorem legalCause_code (c : Cause) : legalCause c.code = true := by cases c <;> rfl

theorem endCommand_ok_iff_none (r : Result Unit) : (endCommand r).resOk = true ↔ (endCommand r).cause = causeNone := by
  cases r with
  | ok _ s => exact ⟨fun _ => rfl, fun _ => rfl⟩
  | fail c s => exact ⟨fun h => (by cases h), fun h => absurd h (code_ne_causeNone c)⟩

/-- A property that the first procedure leaves and the second keeps. -/
theorem Result.bind_keeps {α β : Type} {P : State → Prop} {r : Result α} {f : α → State → Result β}
    (h : P r.state) (hf : ∀ x t, P t → P (f x t).state) : P (r.bind f).state := by
  cases r with
  | ok x t => exact hf x t h
  | fail c t => exact h

/-! ### The invariant -/

theorem State.Inv.congr {s t : State} (h : s.Inv) (hbuf : t.buf = s.buf) (hld : t.ld = s.ld) (hldf : t.ldf = s.ldf)
    (hcause : t.cause = s.cause) (hok : t.resOk = s.resOk) : t.Inv := by
  obtain ⟨h1, h2, h3, h4, h5⟩ := h
  exact ⟨by rwa [hbuf], by rwa [hld], by rwa [hld, hldf], by rwa [hcause], by rwa [hcause, hok]⟩

/-- The part of the invariant that a command's body must keep: the end of the command writes the rest anew. -/
structure State.StoreInv (s : State) : Prop where
  bufCanonical : Memory.wf s.buf = true
  ldBound      : s.ld.toNat ≤ 63
  lastDeviceLd : s.ldf = true → s.ld = 0

theorem State.Inv.store {s : State} (h : s.Inv) : s.StoreInv := ⟨h.bufCanonical, h.ldBound, h.lastDeviceLd⟩

theorem State.StoreInv.congr {s t : State} (h : s.StoreInv) (hbuf : t.buf = s.buf) (hld : t.ld = s.ld)
    (hldf : t.ldf = s.ldf) : t.StoreInv := by
  obtain ⟨h1, h2, h3⟩ := h
  exact ⟨by rwa [hbuf], by rwa [hld], by rwa [hld, hldf]⟩

theorem State.StoreInv.port {s t : State} (h : s.StoreInv) (same : SameButPort s t) : t.StoreInv :=
  h.congr same.buf same.ld same.ldf

theorem endCommand_inv {r : Result Unit} (h : r.state.StoreInv) : (endCommand r).Inv := by
  cases r with
  | ok _ s => exact ⟨h.bufCanonical, h.ldBound, h.lastDeviceLd, rfl, fun _ => rfl⟩
  | fail c s => exact ⟨h.bufCanonical, h.ldBound, h.lastDeviceLd, legalCause_code c, fun hok => (by cases hok)⟩

theorem State.StoreInv.writeBuf {s : State} (h : s.StoreInv) {k : Nat} (hk : k < bufSize) (v : Byte) :
    (s.writeBuf k v).StoreInv :=
  ⟨Memory.wf_write_law s.buf k v h.bufCanonical hk, h.ldBound, h.lastDeviceLd⟩

theorem State.StoreInv.writeBufFrom {s : State} (h : s.StoreInv) {k : Nat} {vs : List Byte}
    (hk : k + vs.length ≤ bufSize) : (s.writeBufFrom k vs).StoreInv := by
  induction vs generalizing s k with
  | nil => exact h
  | cons v vs ih =>
    rw [List.length_cons] at hk
    exact ih (h.writeBuf (by omega) v) (by omega)

/-! The bus commands (R107 to R122) -/

theorem doReset_storeInv {s : State} (h : s.StoreInv) : (doReset s).state.StoreInv :=
  have same := doReset_frame s
  h.congr same.buf same.ld same.ldf

theorem readBytesInto_storeInv {n k : Nat} {s : State} (h : s.StoreInv) (hk : k + n ≤ bufSize) :
    (readBytesInto n k s).state.StoreInv := by
  induction n generalizing k s with
  | zero => exact h
  | succ n ih =>
    exact Result.bind_keeps (h.port (doReadByte_frame s)) fun v t ht => ih (ht.writeBuf (by omega) v) (by omega)

/-! SEARCH (R130 to R143): `LDF` is 0 until step 5, which alone can set it, and then with `LD` 0. -/

/-- The invariant of SEARCH's steps 2 to 4. -/
structure State.Searching (s : State) : Prop where
  store   : s.StoreInv
  notLast : s.ldf = false

theorem State.Searching.congr {s t : State} (h : s.Searching) (hbuf : t.buf = s.buf) (hld : t.ld = s.ld)
    (hldf : t.ldf = s.ldf) : t.Searching :=
  ⟨h.store.congr hbuf hld hldf, hldf.trans h.notLast⟩

theorem State.StoreInv.resetSearch {s : State} (h : s.StoreInv) : s.resetSearch.StoreInv :=
  ⟨h.bufCanonical, Nat.zero_le 63, fun _ => rfl⟩

theorem State.Searching.resetSearch {s : State} (h : s.Searching) : s.resetSearch.Searching :=
  ⟨h.store.resetSearch, rfl⟩

theorem searchPresence_searching {s : State} (h : s.Searching) : (searchPresence s).state.Searching := by
  have same := doReset_frame s
  have hr : (doReset s).state.Searching := h.congr same.buf same.ld same.ldf
  unfold searchPresence
  split <;> rename_i heq <;> rw [heq] at hr
  · exact hr.resetSearch
  · exact hr
  · exact hr.resetSearch

theorem lastZeroFrom_le {sts : List Byte} (h : sts.length = 64) : (lastZeroFrom 0 0 sts).toNat ≤ 63 := by
  obtain ⟨-, -, hlast⟩ := lastZeroFrom_spec sts 0 0 (by omega) (by simp)
  obtain hzero | ⟨j, hj, -, hindex⟩ := hlast
  · rw [hzero]
    exact Nat.zero_le 63
  · omega

/-- Step 5 (R135): `LDF` is set exactly where `LD` becomes 0. -/
theorem searchProgress_storeInv {s : State} {lz : BitVec 7} (h : s.Searching) (hlz : lz.toNat ≤ 63) :
    (searchProgress lz s).StoreInv := by
  refine ⟨h.store.bufCanonical, hlz, fun hldf => ?_⟩
  change lz = 0
  by_contra hne
  rw [searchProgress, State.setProgress_ldf, if_neg hne, h.notLast] at hldf
  cases hldf

theorem searchDeliver_storeInv {s : State} (h : s.StoreInv) : (searchDeliver s).state.StoreInv := by
  unfold searchDeliver
  split_ifs
  · exact h.writeBufFrom (by simp [bufSize])
  · exact h

/-- Steps 4 to 7. -/
theorem searchScan_storeInv {s : State} (h : s.Searching) :
    ((searchFrom 64 0 0 s).bind fun lz t => searchDeliver (searchProgress lz t)).state.StoreInv := by
  have frame := searchFrom_frame 64 0 0 s
  have out := searchFrom_outcome 64 0 0 s (by omega)
  generalize searchFrom 64 0 0 s = r at frame out ⊢
  cases out with
  | failed c t es sts hc hlen same => exact h.store.congr same.buf same.ld same.ldf
  | collision sts last hlen t es trace reps no both dirs rom ld ldf =>
    have hwf : Memory.wf t.buf = true := (congrArg Memory.wf frame.buf).trans h.store.bufCanonical
    have hld : t.ld.toNat ≤ 63 := by simp [ld]
    exact ⟨hwf, hld, fun _ => ld⟩
  | stored sts t es hlen same =>
    exact searchDeliver_storeInv
      (searchProgress_storeInv (h.congr same.buf same.ld same.ldf) (lastZeroFrom_le hlen))

/-- A procedure that keeps SEARCH's invariant, before a part that needs it. -/
theorem Result.bind_searching {α β : Type} {r : Result α} {f : α → State → Result β} (h : r.state.Searching)
    (hf : ∀ x t, t.Searching → (f x t).state.StoreInv) : (r.bind f).state.StoreInv := by
  cases r with
  | ok x t => exact hf x t h
  | fail c t => exact h.store

/-- Steps 2 to 7. -/
theorem search_storeInv {s : State} (h : s.Searching) :
    ((searchPresence s).bind fun _ s1 =>
      (doWriteByte s1.params.cmdSearchRom s1).bind fun _ s2 =>
      (searchFrom 64 0 0 s2).bind fun lz s3 => searchDeliver (searchProgress lz s3)).state.StoreInv := by
  refine Result.bind_searching (searchPresence_searching h) fun _ s1 h1 => ?_
  have same := doWriteByte_frame s1.params.cmdSearchRom s1
  exact Result.bind_searching (h1.congr same.buf same.ld same.ldf) fun _ s2 h2 => searchScan_storeInv h2

/-! One command, one step -/

/-- Every command's body keeps `BUF` and the search state in form, so its end meets the invariant. -/
theorem exec_inv {i : Instr} {s t : State} (h : s.StoreInv) (ht : exec i s = .next t) : t.Inv := by
  suffices hbody : ∃ r, exec i s = runCommand r ∧ r.state.StoreInv by
    obtain ⟨r, hr, hstore⟩ := hbody
    rw [eq_endCommand hr ht]
    exact endCommand_inv hstore
  cases i with
  | reset =>
    exact ⟨_, rfl, Result.bind_keeps (doReset_storeInv h) fun p t ht => by cases p <;> exact ht⟩
  | rdbit => exact ⟨_, rfl, Result.bind_keeps (h.port (doBit_frame _ s)) fun _ t ht => ht.congr rfl rfl rfl⟩
  | wrbit b => exact ⟨_, rfl, Result.bind_keeps (h.port (doBit_frame b s)) fun _ t ht => ht⟩
  | rdbyte => exact ⟨_, rfl, Result.bind_keeps (h.port (doReadByte_frame s)) fun _ t ht => ht.congr rfl rfl rfl⟩
  | wrbyte v => exact ⟨_, rfl, h.port (doWriteByte_frame v s)⟩
  | rdbytes len =>
    have hlen : byteCount len < 256 := len.isLt
    exact ⟨_, rfl, readBytesInto_storeInv h (by rw [bufSize]; omega)⟩
  | wrbytes len => exact ⟨_, rfl, h.port (writeBytesFrom_frame _ 0 s)⟩
  | skip => exact ⟨_, rfl, h.port (doWriteByte_frame _ s)⟩
  | select =>
    exact ⟨_, rfl, Result.bind_keeps (h.port (doWriteByte_frame _ s)) fun _ t ht => ht.port (writeBytesFrom_frame 8 0 t)⟩
  | search =>
    refine ⟨_, rfl, ?_⟩
    split_ifs with hldf
    · exact h
    · exact search_storeInv ⟨h, by simpa using hldf⟩
  | rstsrch => exact ⟨_, rfl, h.resetSearch⟩
  | attach b => exact ⟨_, rfl, h.congr rfl rfl rfl⟩
  | crc8 len => exact ⟨_, rfl, h.congr rfl rfl rfl⟩
  | verify len =>
    refine ⟨_, rfl, ?_⟩
    split_ifs <;> exact h

theorem runWord_inv {w : CmdWord} {s t : State} (h : s.StoreInv) (ht : runWord w s = .next t) : t.Inv := by
  unfold runWord at ht
  cases hdecode : decode w with
  | ok i =>
    rw [hdecode] at ht
    exact exec_inv h ht
  | error e =>
    rw [hdecode] at ht
    rw [eq_endCommand rfl ht]
    exact endCommand_inv h

/-- Settles O2: nothing is written in `BUF`, and `LD`, `LDF`, `RES.OK` and `CAUSE` are 0. -/
theorem blockResetMeetsInvariant : Obligations.BlockResetMeetsInvariant :=
  ⟨rfl, Nat.zero_le 63, fun _ => rfl, rfl, fun _ => rfl⟩

/-- Settles O3, over what a step can be: a command's body keeps `BUF` and the search state in form and its end writes a
legal result; of the other moves only a write of a `BUF` byte touches what the invariant speaks of. -/
theorem everyStepKeepsInvariant : Obligations.EveryStepKeepsInvariant := by
  intro s t h hstep
  cases step_cases hstep with
  | idle => exact h
  | command w rest t hhost run => exact runWord_inv (s := s.setHost rest) (h.store.congr rfl rfl rfl) run
  | cfg v rest => exact h.congr rfl rfl rfl rfl rfl
  | ignored index v rest => exact h.congr rfl rfl rfl rfl rfl
  | byte k v rest =>
    exact ⟨Memory.wf_write_law s.buf k.toNat v h.bufCanonical k.isLt, h.ldBound, h.lastDeviceLd, h.causeLegal, h.okMeansNone⟩
  | read m rest v n => exact h.congr rfl rfl rfl rfl rfl

/-! ### The result registers (R31) -/

/-- `RES.BIT` and `DATA` are the same. -/
structure SameBitAndData (s t : State) : Prop where
  resBit : t.resBit = s.resBit
  data   : t.data = s.data

theorem SameBitAndData.trans {s t u : State} (h : SameBitAndData s t) (g : SameBitAndData t u) : SameBitAndData s u :=
  ⟨g.resBit.trans h.resBit, g.data.trans h.data⟩

theorem SameButPort.bitAndData {s t : State} (h : SameButPort s t) : SameBitAndData s t := ⟨h.resBit, h.data⟩

theorem SameButSearch.bitAndData {s t : State} (h : SameButSearch s t) : SameBitAndData s t := ⟨h.resBit, h.data⟩

theorem Result.bind_bitAndData {α β : Type} {s : State} {r : Result α} {f : α → State → Result β}
    (h : SameBitAndData s r.state) (hf : ∀ x t, SameBitAndData t (f x t).state) :
    SameBitAndData s (r.bind f).state :=
  Result.bind_keeps h fun x t ht => ht.trans (hf x t)

theorem endCommand_bitAndData (r : Result Unit) : SameBitAndData r.state (endCommand r) := by
  cases r <;> exact ⟨rfl, rfl⟩

theorem searchDeliver_bitAndData (lz : BitVec 7) (s : State) :
    SameBitAndData s (searchDeliver (searchProgress lz s)).state := by
  unfold searchDeliver
  split_ifs
  · obtain ⟨m, hm⟩ := writeBufFrom_keeps (searchProgress lz s) 0 (searchProgress lz s).rom.toList
    rw [hm]
    exact ⟨rfl, rfl⟩
  · exact ⟨rfl, rfl⟩

/-- Every command but RDBIT, RDBYTE and CRC8 keeps both. -/
theorem exec_bitAndData {i : Instr} {s t : State} (hbit : i ≠ .rdbit) (hbyte : i ≠ .rdbyte) (hcrc : ∀ len, i ≠ .crc8 len)
    (ht : exec i s = .next t) : SameBitAndData s t := by
  suffices hbody : ∃ r, exec i s = runCommand r ∧ SameBitAndData s r.state by
    obtain ⟨r, hr, hsame⟩ := hbody
    rw [eq_endCommand hr ht]
    exact hsame.trans (endCommand_bitAndData r)
  cases i with
  | reset =>
    have same := doReset_frame s
    exact ⟨_, rfl, Result.bind_bitAndData ⟨same.resBit, same.data⟩ fun p t => by cases p <;> exact ⟨rfl, rfl⟩⟩
  | rdbit => exact absurd rfl hbit
  | wrbit b => exact ⟨_, rfl, Result.bind_bitAndData (doBit_frame b s).bitAndData fun _ t => ⟨rfl, rfl⟩⟩
  | rdbyte => exact absurd rfl hbyte
  | wrbyte v => exact ⟨_, rfl, (doWriteByte_frame v s).bitAndData⟩
  | rdbytes len =>
    obtain ⟨same, -⟩ := readBytesInto_frame (byteCount len) 0 s
    exact ⟨_, rfl, same.resBit, same.data⟩
  | wrbytes len => exact ⟨_, rfl, (writeBytesFrom_frame _ 0 s).bitAndData⟩
  | skip => exact ⟨_, rfl, (doWriteByte_frame _ s).bitAndData⟩
  | select =>
    exact ⟨_, rfl, Result.bind_bitAndData (doWriteByte_frame _ s).bitAndData
      fun _ t => (writeBytesFrom_frame 8 0 t).bitAndData⟩
  | search =>
    refine ⟨_, rfl, ?_⟩
    split_ifs
    · exact ⟨rfl, rfl⟩
    · exact Result.bind_bitAndData (searchPresence_frame s).bitAndData fun _ s1 =>
        Result.bind_bitAndData (doWriteByte_frame _ s1).bitAndData fun _ s2 =>
        Result.bind_bitAndData (searchFrom_frame 64 0 0 s2).bitAndData fun lz s3 => searchDeliver_bitAndData lz s3
  | rstsrch => exact ⟨_, rfl, rfl, rfl⟩
  | attach b => exact ⟨_, rfl, rfl, rfl⟩
  | crc8 len => exact absurd rfl (hcrc len)
  | verify len =>
    refine ⟨_, rfl, ?_⟩
    split_ifs <;> exact ⟨rfl, rfl⟩

/-- RDBIT keeps `DATA`, and `RES.BIT` too unless it succeeds (R110). -/
theorem exec_rdbit_results {s t : State} (ht : exec .rdbit s = .next t) :
    (t.resBit = s.resBit ∨ t.resOk = true) ∧ t.data = s.data := by
  have same := doBit_frame true s
  rw [exec, execRdbit] at ht
  cases hr : doBit true s with
  | ok v s1 =>
    rw [hr] at ht same
    cases ht
    exact ⟨.inr rfl, same.data⟩
  | fail c s1 =>
    rw [hr] at ht same
    cases ht
    exact ⟨.inl same.resBit, same.data⟩

/-- RDBYTE keeps `RES.BIT`, and `DATA` too unless it succeeds (R114). -/
theorem exec_rdbyte_results {s t : State} (ht : exec .rdbyte s = .next t) :
    t.resBit = s.resBit ∧ (t.data = s.data ∨ t.resOk = true) := by
  have same := doReadByte_frame s
  rw [exec, execRdbyte] at ht
  cases hr : doReadByte s with
  | ok v s1 =>
    rw [hr] at ht same
    cases ht
    exact ⟨same.resBit, .inr rfl⟩
  | fail c s1 =>
    rw [hr] at ht same
    cases ht
    exact ⟨same.resBit, .inl same.data⟩

/-- CRC8 keeps `RES.BIT` and always succeeds (R153). -/
theorem exec_crc8_results {len : Byte} {s t : State} (ht : exec (.crc8 len) s = .next t) :
    t.resBit = s.resBit ∧ t.resOk = true := by
  cases ht
  exact ⟨rfl, rfl⟩

/-- R31, for one command. -/
theorem exec_results {i : Instr} {s t : State} (ht : exec i s = .next t) :
    (t.resBit = s.resBit ∨ (i = .rdbit ∧ t.resOk = true)) ∧
      (t.data = s.data ∨ ((i = .rdbyte ∨ ∃ len, i = .crc8 len) ∧ t.resOk = true)) := by
  by_cases hbit : i = .rdbit
  · subst hbit
    obtain ⟨hres, hdata⟩ := exec_rdbit_results ht
    exact ⟨hres.imp_right fun hok => ⟨rfl, hok⟩, .inl hdata⟩
  by_cases hbyte : i = .rdbyte
  · subst hbyte
    obtain ⟨hres, hdata⟩ := exec_rdbyte_results ht
    exact ⟨.inl hres, hdata.imp_right fun hok => ⟨.inl rfl, hok⟩⟩
  by_cases hcrc : ∃ len, i = .crc8 len
  · obtain ⟨len, rfl⟩ := hcrc
    obtain ⟨hres, hok⟩ := exec_crc8_results ht
    exact ⟨.inl hres, .inr ⟨.inr ⟨len, rfl⟩, hok⟩⟩
  · have same := exec_bitAndData hbit hbyte (fun len h => hcrc ⟨len, h⟩) ht
    exact ⟨.inl same.resBit, .inl same.data⟩

/-- A presented word leaves them as the command it decodes to does; an illegal one keeps both (R168). -/
theorem runWord_results {w : CmdWord} {s t : State} (ht : runWord w s = .next t) :
    (t.resBit = s.resBit ∨ (decode w = .ok .rdbit ∧ t.resOk = true)) ∧
      (t.data = s.data ∨ ((decode w = .ok .rdbyte ∨ ∃ len, decode w = .ok (.crc8 len)) ∧ t.resOk = true)) := by
  cases hdecode : decode w with
  | ok i =>
    rw [runWord_of_decode hdecode] at ht
    simpa using exec_results ht
  | error e =>
    rw [runWord, hdecode] at ht
    cases ht
    exact ⟨.inl rfl, .inl rfl⟩

/-- A step runs a presented word, or touches no result register. -/
theorem StepCase.runs_or_keepsResults {s t : State} (h : StepCase s t) :
    (∃ w rest, s.host = .writeReg 0 w :: rest ∧ runWord w (s.setHost rest) = .next t) ∨
      ((∀ w rest, s.host ≠ .writeReg 0 w :: rest) ∧
        t.resOk = s.resOk ∧ t.cause = s.cause ∧ t.resBit = s.resBit ∧ t.data = s.data) := by
  cases h with
  | idle hhost => exact .inr ⟨by simp [hhost], rfl, rfl, rfl, rfl⟩
  | command w rest t hhost run => exact .inl ⟨w, rest, hhost, run⟩
  | cfg v rest hhost => exact .inr ⟨by simp [hhost], rfl, rfl, rfl, rfl⟩
  | ignored index v rest hhost h0 => exact .inr ⟨by simp [hhost, h0], rfl, rfl, rfl, rfl⟩
  | byte k v rest hhost => exact .inr ⟨by simp [hhost], rfl, rfl, rfl, rfl⟩
  | read m rest v n hhost hm => exact .inr ⟨by simp [hhost, hm], rfl, rfl, rfl, rfl⟩

/-- Settles O55: a presented word writes the result registers as its command does, and no other move touches them. -/
theorem resultRegistersAreWrittenOnlyAsStated : Obligations.ResultRegistersAreWrittenOnlyAsStated := by
  intro s t hstep
  obtain ⟨w, rest, hhost, hrun⟩ | ⟨hno, hkept⟩ := (step_cases hstep).runs_or_keepsResults
  · refine ⟨fun hno => absurd hhost (hno w rest), fun w' rest' hw => ?_⟩
    rw [hhost] at hw
    cases hw
    obtain ⟨r, hr⟩ := runWord_is_runCommand w (s.setHost rest)
    exact ⟨eq_endCommand hr hrun ▸ endCommand_ok_iff_none r, runWord_results (s := s.setHost rest) hrun⟩
  · exact ⟨fun _ => hkept, fun w rest hw => absurd hw (hno w rest)⟩

/-! ### Two runs side by side -/

/-- Two procedures end alike, in states that `R` relates: both with the same value, or both with the same failure. -/
inductive Result.Both {α : Type} (R : State → State → Prop) : Result α → Result α → Prop where
  | ok (a : α) {s u : State} (h : R s u) : Both R (.ok a s) (.ok a u)
  | fail (c : Cause) {s u : State} (h : R s u) : Both R (.fail c s) (.fail c u)

theorem Result.Both.bind {α β : Type} {R : State → State → Prop} {r r' : Result α} {f g : α → State → Result β}
    (h : Result.Both R r r') (hf : ∀ a s u, R s u → Result.Both R (f a s) (g a u)) :
    Result.Both R (r.bind f) (r'.bind g) := by
  cases h with
  | ok a h => exact hf a _ _ h
  | fail c h => exact .fail c h

/-! ### Notifications change nothing else (R33, R102, R182) -/

/-- The state with other edge memories, enable and trace. -/
def State.withNotices (s : State) (sd rst cb : Bool) (tr : List Event) : State :=
  { s with sdSeen := sd, rstSeen := rst, cbEn := cb, trace := tr }

/-- `s` and `u` differ in the edge memories, the enable and the notifications since the trace was `base`, and in nothing
else. -/
inductive SameButNotices (base : List Event) (s : State) : State → Prop where
  | intro (sd rst cb : Bool) (es es' : List Event) (trace : s.trace = base ++ es)
      (requests : es'.filter Event.isRequest = es.filter Event.isRequest) :
      SameButNotices base s (s.withNotices sd rst cb (base ++ es'))

/-- An update that neither reads nor writes what `withNotices` sets. -/
def BlindToNotices (f : State → State) : Prop :=
  ∀ s sd rst cb tr, f (s.withNotices sd rst cb tr) = (f s).withNotices sd rst cb tr

namespace SameButNotices

variable {base : List Event} {s u : State}

theorem start (s : State) (sd rst cb : Bool) :
    SameButNotices s.trace s { s with sdSeen := sd, rstSeen := rst, cbEn := cb } := by
  simpa [State.withNotices] using SameButNotices.intro (base := s.trace) sd rst cb [] [] (by simp) rfl

theorem update (h : SameButNotices base s u) {f : State → State} (hf : BlindToNotices f) :
    SameButNotices base (f s) (f u) := by
  obtain ⟨sd, rst, cb, es, es', trace, requests⟩ := h
  have hsame : f s = (f s).withNotices s.sdSeen s.rstSeen s.cbEn s.trace := hf s s.sdSeen s.rstSeen s.cbEn s.trace
  have hkept : (f s).trace = s.trace := by rw [hsame]; rfl
  rw [hf]
  exact .intro sd rst cb es es' (hkept.trans trace) requests

theorem emit (h : SameButNotices base s u) (e : Event) : SameButNotices base (s.emit e) (u.emit e) := by
  obtain ⟨sd, rst, cb, es, es', trace, requests⟩ := h
  have := SameButNotices.intro (base := base) (s := s.emit e) sd rst cb (es ++ [e]) (es' ++ [e]) (by simp [trace])
    (by simp [requests])
  rwa [← List.append_assoc] at this

/-- Steps (2) and (3) of a poll iteration: the notifications differ, the requests do not (R102, R103). -/
theorem noteFaults (h : SameButNotices base s u) (st : Byte) :
    SameButNotices base (noteFaults st s) (noteFaults st u) := by
  obtain ⟨sd, rst, cb, es, es', trace, requests⟩ := h
  rw [noteFaults_eq, noteFaults_eq]
  simp only [State.withNotices, trace, List.append_assoc]
  exact .intro _ _ _ _ _ rfl (by simp [requests])

theorem setCbEn (h : SameButNotices base s u) (b : Bool) : SameButNotices base (s.setCbEn b) (u.setCbEn b) := by
  obtain ⟨sd, rst, cb, es, es', trace, requests⟩ := h
  exact .intro (s := s.setCbEn b) sd rst b es es' trace requests

theorem nextAnswer (h : SameButNotices base s u) : u.nextAnswer = s.nextAnswer := by cases h; rfl
theorem params (h : SameButNotices base s u) : u.params = s.params := by cases h; rfl
theorem spu (h : SameButNotices base s u) : u.spu = s.spu := by cases h; rfl
theorem apu (h : SameButNotices base s u) : u.apu = s.apu := by cases h; rfl
theorem od (h : SameButNotices base s u) : u.od = s.od := by cases h; rfl
theorem rom (h : SameButNotices base s u) : u.rom = s.rom := by cases h; rfl
theorem ld (h : SameButNotices base s u) : u.ld = s.ld := by cases h; rfl
theorem ldf (h : SameButNotices base s u) : u.ldf = s.ldf := by cases h; rfl
theorem bufAt (h : SameButNotices base s u) (k : Nat) : u.bufAt k = s.bufAt k := by cases h; rfl
theorem bufBytes (h : SameButNotices base s u) (n : Nat) : u.bufBytes n = s.bufBytes n := by cases h; rfl

theorem answered (h : SameButNotices base s u) (e : Event) :
    SameButNotices base (s.dropAnswer.emit e) (u.dropAnswer.emit e) :=
  (h.update (f := State.dropAnswer) fun _ _ _ _ _ => rfl).emit e

theorem resetSearch (h : SameButNotices base s u) : SameButNotices base s.resetSearch u.resetSearch :=
  h.update fun _ _ _ _ _ => rfl

/-! The downstream requests and the poll -/

theorem prim (h : SameButNotices base s u) (p : Prim) :
    Result.Both (SameButNotices base) (prim p s) (prim p u) := by
  rw [prim_eq, prim_eq, h.nextAnswer]
  split_ifs
  · exact .ok () (h.answered _)
  · exact .fail .transport (h.answered _)

theorem readStatus (h : SameButNotices base s u) :
    Result.Both (SameButNotices base) (readStatus s) (readStatus u) := by
  rw [Machine.readStatus, Machine.readStatus, h.nextAnswer]
  split_ifs
  · exact .ok _ (h.answered _)
  · exact .fail .transport (h.answered _)

theorem readData (h : SameButNotices base s u) :
    Result.Both (SameButNotices base) (readData s) (readData u) := by
  rw [Machine.readData, Machine.readData, h.nextAnswer]
  split_ifs
  · exact .ok _ (h.answered _)
  · exact .fail .transport (h.answered _)

theorem pollOnce (h : SameButNotices base s u) : Result.Both (SameButNotices base) (pollOnce s) (pollOnce u) :=
  h.readStatus.bind fun st _ _ h1 => .ok st (h1.noteFaults st)

theorem pollTimeout (h : SameButNotices base s u) :
    Result.Both (SameButNotices base) (pollTimeout s) (pollTimeout u) := by
  rw [Machine.pollTimeout, Machine.pollTimeout, h.params]
  split_ifs
  · rw [primIgnored, primIgnored, h.nextAnswer]
    exact .fail .busyTimeout (h.answered _)
  · exact .fail .busyTimeout h

theorem pollLoop (h : SameButNotices base s u) (n : Nat) :
    Result.Both (SameButNotices base) (pollLoop n s) (pollLoop n u) := by
  induction n generalizing s u with
  | zero =>
    refine h.pollOnce.bind fun st _ _ h1 => ?_
    split_ifs
    · exact h1.pollTimeout
    · exact .ok st h1
  | succ n ih =>
    refine h.pollOnce.bind fun st _ _ h1 => ?_
    split_ifs
    · exact ih h1
    · exact .ok st h1

theorem waitBusy (h : SameButNotices base s u) : Result.Both (SameButNotices base) (waitBusy s) (waitBusy u) := by
  rw [Machine.waitBusy, Machine.waitBusy, h.params]
  exact h.pollLoop _

/-! The internal procedures -/

theorem cfgWrite (h : SameButNotices base s u) (b : Bool) :
    Result.Both (SameButNotices base) ((Machine.prim (.wcfg s.apu b s.od) s).bind fun _ s1 => .ok () (s1.setSpu b))
      ((Machine.prim (.wcfg u.apu b u.od) u).bind fun _ s1 => .ok () (s1.setSpu b)) := by
  rw [h.apu, h.od]
  exact (h.prim _).bind fun _ _ _ h1 => .ok () (h1.update (f := fun t => t.setSpu b) fun _ _ _ _ _ => rfl)

theorem clearSpu (h : SameButNotices base s u) : Result.Both (SameButNotices base) (clearSpu s) (clearSpu u) := by
  rw [Machine.clearSpu, Machine.clearSpu, h.spu]
  split_ifs
  · exact h.cfgWrite false
  · exact .ok () h

theorem restoreSpu (h : SameButNotices base s u) (b : Bool) :
    Result.Both (SameButNotices base) (restoreSpu b s) (restoreSpu b u) := by
  rw [Machine.restoreSpu, Machine.restoreSpu]
  split_ifs
  · exact h.cfgWrite true
  · exact .ok () h

theorem doReset (h : SameButNotices base s u) : Result.Both (SameButNotices base) (doReset s) (doReset u) := by
  rw [Machine.doReset, Machine.doReset, h.spu]
  exact h.clearSpu.bind fun _ _ _ h1 => h1.waitBusy.bind fun _ _ _ h2 => (h2.prim .wrs).bind fun _ _ _ h3 =>
    h3.waitBusy.bind fun st _ _ h4 => (h4.restoreSpu s.spu).bind fun _ _ _ h5 => .ok (statusPPD st) h5

theorem doBit (h : SameButNotices base s u) (b : Bool) :
    Result.Both (SameButNotices base) (doBit b s) (doBit b u) :=
  (h.prim _).bind fun _ _ _ h1 => h1.waitBusy.bind fun st _ _ h2 => .ok (statusSBR st) h2

theorem doWriteByte (h : SameButNotices base s u) (v : Byte) :
    Result.Both (SameButNotices base) (doWriteByte v s) (doWriteByte v u) :=
  (h.prim _).bind fun _ _ _ h1 => h1.waitBusy.bind fun _ _ _ h2 => .ok () h2

theorem doReadByte (h : SameButNotices base s u) :
    Result.Both (SameButNotices base) (doReadByte s) (doReadByte u) :=
  (h.prim _).bind fun _ _ _ h1 => h1.waitBusy.bind fun _ _ _ h2 => h2.readData

theorem writeBytesFrom (h : SameButNotices base s u) (n k : Nat) :
    Result.Both (SameButNotices base) (writeBytesFrom n k s) (writeBytesFrom n k u) := by
  induction n generalizing k s u with
  | zero => exact .ok () h
  | succ n ih =>
    rw [Machine.writeBytesFrom, Machine.writeBytesFrom, h.bufAt]
    exact (h.doWriteByte _).bind fun _ _ _ h1 => ih h1 (k + 1)

theorem readBytesInto (h : SameButNotices base s u) (n k : Nat) :
    Result.Both (SameButNotices base) (readBytesInto n k s) (readBytesInto n k u) := by
  induction n generalizing k s u with
  | zero => exact .ok () h
  | succ n ih =>
    exact h.doReadByte.bind fun v _ _ h1 => ih (h1.update (f := fun t => t.writeBuf k v) fun _ _ _ _ _ => rfl) (k + 1)

/-! SEARCH -/

theorem searchPresence (h : SameButNotices base s u) :
    Result.Both (SameButNotices base) (searchPresence s) (searchPresence u) := by
  have hreset := h.doReset
  unfold Machine.searchPresence
  generalize Machine.doReset s = r, Machine.doReset u = r' at hreset
  cases hreset with
  | fail c h1 => exact .fail c h1.resetSearch
  | ok p h1 =>
    cases p with
    | true => exact .ok () h1
    | false => exact .fail .noPresence h1.resetSearch

theorem searchBit (h : SameButNotices base s u) (i : Nat) (lz : BitVec 7) :
    Result.Both (SameButNotices base) (searchBit i lz s) (searchBit i lz u) := by
  rw [Machine.searchBit, Machine.searchBit, h.rom, h.ld]
  refine (h.prim _).bind fun _ _ _ h1 => h1.waitBusy.bind fun st _ _ h2 => ?_
  by_cases hboth : tripletCollision st = true
  · rw [if_pos hboth, if_pos hboth]
    exact .fail .collision h2.resetSearch
  · rw [if_neg hboth, if_neg hboth]
    exact .ok _ (h2.update (f := fun t => t.setRomBit i (statusDIR st)) fun _ _ _ _ _ => rfl)

theorem searchFrom (h : SameButNotices base s u) (n i : Nat) (lz : BitVec 7) :
    Result.Both (SameButNotices base) (searchFrom n i lz s) (searchFrom n i lz u) := by
  induction n generalizing i lz s u with
  | zero => exact .ok lz h
  | succ n ih => exact (h.searchBit i lz).bind fun lz' _ _ h1 => ih h1 (i + 1) lz'

theorem searchProgress (h : SameButNotices base s u) (lz : BitVec 7) :
    SameButNotices base (searchProgress lz s) (searchProgress lz u) :=
  h.update fun _ _ _ _ _ => rfl

theorem writeBufFrom_blind (k : Nat) (vs : List Byte) : BlindToNotices fun t => t.writeBufFrom k vs := by
  induction vs generalizing k with
  | nil => exact fun _ _ _ _ _ => rfl
  | cons v vs ih => exact fun t sd rst cb tr => ih (k + 1) (t.writeBuf k v) sd rst cb tr

theorem searchDeliver (h : SameButNotices base s u) :
    Result.Both (SameButNotices base) (searchDeliver s) (searchDeliver u) := by
  rw [Machine.searchDeliver, Machine.searchDeliver, h.rom]
  split_ifs
  · exact .ok () (h.update (writeBufFrom_blind 0 s.rom.toList))
  · exact .fail .checksum h

/-! The commands -/

theorem endCommand {r r' : Result Unit} (h : Result.Both (SameButNotices base) r r') :
    SameButNotices base (endCommand r) (endCommand r') := by
  cases h with
  | ok _ h => exact h.update (f := commandDone) fun _ _ _ _ _ => rfl
  | fail c h => exact h.update (f := raiseFail c) fun _ _ _ _ _ => rfl

/-- Every command's body ends alike from two such states. -/
theorem exec (h : SameButNotices base s u) (i : Instr) :
    ∃ r r', exec i s = runCommand r ∧ exec i u = runCommand r' ∧ Result.Both (SameButNotices base) r r' := by
  cases i with
  | reset =>
    refine ⟨_, _, rfl, rfl, h.doReset.bind fun p _ _ h1 => ?_⟩
    cases p with
    | true => exact .ok () h1
    | false => exact .fail .noPresence h1
  | rdbit =>
    exact ⟨_, _, rfl, rfl, (h.doBit true).bind fun v _ _ h1 =>
      .ok () (h1.update (f := fun t => t.setResBit v) fun _ _ _ _ _ => rfl)⟩
  | wrbit b => exact ⟨_, _, rfl, rfl, (h.doBit b).bind fun _ _ _ h1 => .ok () h1⟩
  | rdbyte =>
    exact ⟨_, _, rfl, rfl, h.doReadByte.bind fun v _ _ h1 =>
      .ok () (h1.update (f := fun t => t.setData v) fun _ _ _ _ _ => rfl)⟩
  | wrbyte v => exact ⟨_, _, rfl, rfl, h.doWriteByte v⟩
  | rdbytes len => exact ⟨_, _, rfl, rfl, h.readBytesInto _ 0⟩
  | wrbytes len => exact ⟨_, _, rfl, rfl, h.writeBytesFrom _ 0⟩
  | skip => exact ⟨_, _, rfl, rfl, by rw [h.params]; exact h.doWriteByte _⟩
  | select =>
    exact ⟨_, _, rfl, rfl, by rw [h.params]; exact (h.doWriteByte _).bind fun _ _ _ h1 => h1.writeBytesFrom 8 0⟩
  | search =>
    refine ⟨_, _, rfl, rfl, ?_⟩
    rw [h.ldf]
    split_ifs
    · exact .fail .noMoreDevices h
    · refine h.searchPresence.bind fun _ _ _ h1 => ?_
      rw [h1.params]
      exact (h1.doWriteByte _).bind fun _ _ _ h2 => (h2.searchFrom 64 0 0).bind fun lz _ _ h3 =>
        (h3.searchProgress lz).searchDeliver
  | rstsrch => exact ⟨_, _, rfl, rfl, .ok () h.resetSearch⟩
  | attach b => exact ⟨_, _, rfl, rfl, .ok () (h.setCbEn b)⟩
  | crc8 len =>
    refine ⟨_, _, rfl, rfl, ?_⟩
    rw [h.bufBytes]
    exact .ok () (h.update (f := fun t => t.setData _) fun _ _ _ _ _ => rfl)
  | verify len =>
    refine ⟨_, _, rfl, rfl, ?_⟩
    rw [h.bufBytes]
    split_ifs
    · exact .fail .illegalCommand h
    · exact .ok () h
    · exact .fail .checksum h

end SameButNotices

/-- Settles O51: the two runs go side by side, step for step of the command's body. -/
theorem notificationsChangeNothingElse : Obligations.NotificationsChangeNothingElse := by
  intro i s a b c t ht
  obtain ⟨r, r', hr, hr', hboth⟩ := (SameButNotices.start s a b c).exec i
  have hend := SameButNotices.endCommand hboth
  rw [← eq_endCommand hr ht] at hend
  refine ⟨endCommand r', hr', ?_⟩
  generalize endCommand r' = u at hend
  obtain ⟨sd, rst, cb, es, es', trace, requests⟩ := hend
  refine ⟨rfl, ?_⟩
  simpa [newEvents, trace, State.withNotices] using requests

end Sys2Proof.Machine

/-! PROOFS. `BUF`'s canonical form as equality of contents, and what every command adds to the trace: one run of the
ordering discipline, within the command's bounds, that tells how the command ended. -/

namespace Sys2Proof.Machine

open Sys2Proof

theorem endCommand_legalCause (r : Result Unit) : legalCause (endCommand r).cause = true := by
  cases r with
  | ok _ s => rfl
  | fail c s => exact legalCause_code c

/-- Settles O4: every command ends by `done` or `raise Fail`, and each writes `RES.OK` and `CAUSE` together (R12). -/
theorem everyCommandEndsWithItsResult : Obligations.EveryCommandEndsWithItsResult := by
  intro i s
  obtain ⟨r, hr⟩ := exec_is_runCommand i s
  exact ⟨endCommand r, hr, endCommand_ok_iff_none r, endCommand_legalCause r⟩

/-! ### Canonical buffers (R51, log 4) -/

theorem Memory.wfFrom_cons {lo k : Nat} {v : Byte} {m : Memory} :
    Memory.wfFrom lo ((k, v) :: m) = true ↔ lo ≤ k ∧ k < bufSize ∧ Memory.wfFrom (k + 1) m = true := by
  simp [Memory.wfFrom, and_assoc]

theorem Memory.get?_cons_self (k : Nat) (v : Byte) (m : Memory) : Memory.get? ((k, v) :: m) k = some v := by
  simp [Memory.get?]

theorem Memory.get?_cons_ne {k a : Nat} (h : k ≠ a) (v : Byte) (m : Memory) :
    Memory.get? ((k, v) :: m) a = Memory.get? m a := by
  simp [Memory.get?, h]

theorem Memory.le_of_get?_eq_some {lo a : Nat} {v : Byte} {m : Memory} (hw : Memory.wfFrom lo m = true)
    (h : Memory.get? m a = some v) : lo ≤ a := by
  by_contra hlt
  rw [Memory.get?_below m hw (by omega)] at h
  cases h

/-- The first listed address of a canonical store is its least one. -/
theorem Memory.head_le_of_get?_eq_some {lo k a : Nat} {v w : Byte} {m : Memory}
    (hw : Memory.wfFrom lo ((k, w) :: m) = true) (h : Memory.get? ((k, w) :: m) a = some v) : k ≤ a := by
  obtain ⟨_, hk, htail⟩ := Memory.wfFrom_cons.1 hw
  exact Memory.le_of_get?_eq_some (Memory.wfFrom_cons.2 ⟨le_refl k, hk, htail⟩) h

/-- Two stores with the same first entry list the same bytes only if what follows it does. -/
theorem Memory.get?_tail_eq {lo lo' k : Nat} {v : Byte} {m n : Memory} (hm : Memory.wfFrom lo ((k, v) :: m) = true)
    (hn : Memory.wfFrom lo' ((k, v) :: n) = true)
    (h : ∀ a, Memory.get? ((k, v) :: m) a = Memory.get? ((k, v) :: n) a) (a : Nat) :
    Memory.get? m a = Memory.get? n a := by
  obtain ⟨_, _, hm⟩ := Memory.wfFrom_cons.1 hm
  obtain ⟨_, _, hn⟩ := Memory.wfFrom_cons.1 hn
  rcases eq_or_ne k a with rfl | ha
  · rw [Memory.get?_below m hm (Nat.lt_succ_self k), Memory.get?_below n hn (Nat.lt_succ_self k)]
  · simpa only [Memory.get?_cons_ne ha] using h a

theorem Memory.wfFrom_ext {lo lo' : Nat} (m n : Memory) (hm : Memory.wfFrom lo m = true)
    (hn : Memory.wfFrom lo' n = true) (h : ∀ a, Memory.get? m a = Memory.get? n a) : m = n := by
  induction m generalizing n lo lo' with
  | nil =>
    cases n with
    | nil => rfl
    | cons d n => exact absurd (h d.1) (by rw [Memory.get?_cons_self]; simp [Memory.get?])
  | cons c m ih =>
    obtain ⟨k, v⟩ := c
    have hk := Memory.get?_cons_self k v m
    cases n with
    | nil => exact absurd (h k) (by rw [hk]; simp [Memory.get?])
    | cons d n =>
      obtain ⟨j, w⟩ := d
      have hj := Memory.get?_cons_self j w n
      obtain rfl : k = j := le_antisymm (Memory.head_le_of_get?_eq_some hm ((h j).trans hj))
        (Memory.head_le_of_get?_eq_some hn ((h k).symm.trans hk))
      obtain rfl : v = w := Option.some.inj (hk.symm.trans ((h k).trans hj))
      obtain ⟨_, _, hmtail⟩ := Memory.wfFrom_cons.1 hm
      obtain ⟨_, _, hntail⟩ := Memory.wfFrom_cons.1 hn
      rw [ih n hmtail hntail (Memory.get?_tail_eq hm hn h)]

/-- Settles O15: entry by entry, the first entry of each store being its least address. -/
theorem equalBuffersAreEqualData : Obligations.EqualBuffersAreEqualData :=
  fun m n hm hn h => Memory.wfFrom_ext m n hm hn h

/-! ### What every command adds to the trace (R60, R61) -/

theorem newEvents_eq {s t : State} {es : List Event} (h : t.trace = s.trace ++ es) : newEvents s t = es := by
  rw [newEvents, h, List.drop_left]

/-- The state from which a command's events are a `Run`: ATTACH, which issues nothing, is the one command that writes
`CB_EN` (R165), so its run starts with the new enable. -/
def runStart : Instr → State → State
  | .attach b, s => s.setCbEn b
  | .reset, s | .rdbit, s | .wrbit _, s | .rdbyte, s | .wrbyte _, s | .rdbytes _, s | .wrbytes _, s | .skip, s => s
  | .select, s | .search, s | .rstsrch, s | .crc8 _, s | .verify _, s => s

@[simp] theorem runStart_trace (i : Instr) (s : State) : (runStart i s).trace = s.trace := by cases i <;> rfl

@[simp] theorem runStart_params (i : Instr) (s : State) : (runStart i s).params = s.params := by cases i <;> rfl

theorem resetBody_runs (s : State) :
    Runs s (primBound s.spu .reset) 2 ((doReset s).bind fun p s1 => if p then .ok () s1 else .fail .noPresence s1) :=
  (Runs.doReset s).quiet _ fun p t => by
    cases p with
    | true => exact .ok () (.refl t)
    | false => exact .fail .noPresence (.refl t) (by decide) (by decide)

theorem primBound_search (spu : Bool) : primBound spu .search = primBound spu .reset + 65 := by cases spu <;> rfl

/-- SEARCH past its first step: the reset, the command byte, 64 triplets, then nothing more is issued (R130 to R137). -/
theorem searchBody_runs (s : State) :
    Runs s (primBound s.spu .search) 67 ((searchPresence s).bind fun _ s1 =>
      (doWriteByte s1.params.cmdSearchRom s1).bind fun _ s2 =>
      (searchFrom 64 0 0 s2).bind fun lz s3 => searchDeliver (searchProgress lz s3)) := by
  have hbits (t : State) :
      Runs t 64 64 ((searchFrom 64 0 0 t).bind fun lz u => searchDeliver (searchProgress lz u)) :=
    (Runs.searchFrom 64 0 0 t).quiet _ fun lz u =>
      Runs.from (s' := searchProgress lz u) (.still rfl rfl rfl rfl rfl rfl rfl rfl) (.searchDeliver _)
  have hbyte (t : State) := (Runs.doWriteByte t.params.cmdSearchRom t).bind fun _ u _ => hbits u
  rw [primBound_search]
  exact (Runs.searchPresence s).bind fun _ t _ => hbyte t

/-- The body of every command is a run within the command's bounds (R117, R141). -/
theorem exec_runs (i : Instr) (s : State) :
    ∃ r, exec i s = runCommand r ∧ Runs (runStart i s) (primBound s.spu i) (pollBound i) r := by
  cases i with
  | reset => exact ⟨_, rfl, resetBody_runs s⟩
  | rdbit =>
    exact ⟨_, rfl, (Runs.doBit true s).quiet _ fun _ _ => .ok () (.still rfl rfl rfl rfl rfl rfl rfl rfl)⟩
  | wrbit b => exact ⟨_, rfl, (Runs.doBit b s).quiet _ fun _ t => .ok () (.refl t)⟩
  | rdbyte =>
    exact ⟨_, rfl, (Runs.doReadByte s).quiet _ fun _ _ => .ok () (.still rfl rfl rfl rfl rfl rfl rfl rfl)⟩
  | wrbyte v => exact ⟨_, rfl, .doWriteByte v s⟩
  | rdbytes len => exact ⟨_, rfl, .readBytesInto (byteCount len) 0 s⟩
  | wrbytes len => exact ⟨_, rfl, .writeBytesFrom (byteCount len) 0 s⟩
  | skip => exact ⟨_, rfl, .doWriteByte _ s⟩
  | select => exact ⟨_, rfl, (Runs.doWriteByte _ s).bind (a' := 8) (b' := 8) fun _ t _ => .writeBytesFrom 8 0 t⟩
  | search =>
    refine ⟨_, rfl, ?_⟩
    split_ifs
    · exact (Runs.fail .noMoreDevices (.refl s) (by decide) (by decide)).mono (Nat.zero_le _) (Nat.zero_le _)
    · exact searchBody_runs s
  | rstsrch => exact ⟨_, rfl, .ok () (.still rfl rfl rfl rfl rfl rfl rfl rfl)⟩
  | attach b => exact ⟨_, rfl, .ok () (.refl _)⟩
  | crc8 len => exact ⟨_, rfl, .ok () (.still rfl rfl rfl rfl rfl rfl rfl rfl)⟩
  | verify len =>
    refine ⟨_, rfl, ?_⟩
    split_ifs
    · exact .fail .illegalCommand (.refl s) (by decide) (by decide)
    · exact .ok () (.refl s)
    · exact .fail .checksum (.refl s) (by decide) (by decide)

/-- What the command `i` from `s` to `t` adds to the trace. -/
structure CommandRun (i : Instr) (s t : State) : Prop where
  run         : Run (runStart i s) (newEvents s t) t
  disciplined : disciplined false (newEvents s t) = true
  settled     : t.resOk = true → Settled (newEvents s t)
  cost        : Cost s.params.pollMax (newEvents s t) (primBound s.spu i) (pollBound i) 1
  transport   : t.cause = Cause.transport.code ↔ (newEvents s t).any Event.isDenied = true
  busyTimeout : t.cause = Cause.busyTimeout.code ↔ busyRow 0 (newEvents s t) = s.params.pollMax

theorem exec_commandRun {i : Instr} {s t : State} (ht : exec i s = .next t) : CommandRun i s t := by
  obtain ⟨r, hr, hruns⟩ := exec_runs i s
  obtain ⟨es, hrun, hdisc, hsettled, hcost, htransport, htimeout⟩ := runCommand_run hruns (hr.symm.trans ht)
  rw [runStart_params] at hcost htimeout
  obtain rfl : newEvents s t = es := newEvents_eq (by rw [hrun.trace, runStart_trace])
  exact ⟨hrun, hdisc, hsettled, hcost, htransport, htimeout⟩

/-- Settles O43: a command's run appends to the trace, and none of its primitives is `P_CHSL` or `P_SRP`. -/
theorem commandsOnlyAppendToTheTrace : Obligations.CommandsOnlyAppendToTheTrace := by
  intro i s t ht
  have hrun := (exec_commandRun ht).run
  refine ⟨by rw [hrun.trace, runStart_trace], ?_⟩
  rintro _ he p ok rfl
  exact hrun.plain p ok he

/-- Settles O46: a command's run keeps the discipline, and one that succeeds leaves nothing open. -/
theorem commandsWaitForTheBridge : Obligations.CommandsWaitForTheBridge := by
  intro i s t ht
  have h := exec_commandRun ht
  exact ⟨h.disciplined, fun hok => (h.settled hok).idle⟩

end Sys2Proof.Machine

/-! PROOFS. The command words: what the decoder reads from the two fields of a word, the round trip with the encoder, the
opcode table, and the illegal words. -/

namespace Sys2Proof.Machine

open Sys2Proof

/-! ### The two fields of a word (R70) -/

@[simp] theorem opField_append (op arg : Byte) : opField (op ++ arg) = op := (Laws.OpcodeField.word_fields op arg).1

@[simp] theorem argField_append (op arg : Byte) : argField (op ++ arg) = arg := (Laws.OpcodeField.word_fields op arg).2

@[simp] theorem opField_encode (i : Instr) : opField (encode i) = opcodeOf i := opField_append _ _

@[simp] theorem argField_encode (i : Instr) : argField (encode i) = operandOf i := argField_append _ _

/-- A word is its two fields. -/
theorem opField_append_argField (w : CmdWord) : opField w ++ argField w = w :=
  BitVec.extractLsb'_append_extractLsb'_eq_extractLsb' (by omega) |>.trans BitVec.extractLsb'_eq_self

/-! ### The decoder, format by format (R71, R72) -/

theorem formatN_eq_ok {arg : Byte} {i j : Instr} : formatN arg i = .ok j ↔ arg = 0 ∧ i = j := by
  unfold formatN
  by_cases h : arg = 0
  · simp [h]
  · rw [if_neg h]
    exact ⟨fun hj => (nomatch hj), fun hj => absurd hj.1 h⟩

/-- An operand byte whose high seven bits are 0 is a boolean's. -/
theorem eq_boolArg {arg : Byte} (h : arg.extractLsb' 1 7 = 0) : arg = boolArg (arg.getLsbD 0) := by
  revert arg; decide

theorem extractLsb'_boolArg (b : Bool) : (boolArg b).extractLsb' 1 7 = 0 := by cases b <;> decide

theorem getLsbD_boolArg (b : Bool) : (boolArg b).getLsbD 0 = b := by cases b <;> decide

theorem formatB_boolArg (b : Bool) (i : Bool → Instr) : formatB (boolArg b) i = .ok (i b) := by
  rw [formatB, if_pos (extractLsb'_boolArg b), getLsbD_boolArg]

theorem formatB_eq_ok {arg : Byte} {i : Bool → Instr} {j : Instr} :
    formatB arg i = .ok j ↔ ∃ b, arg = boolArg b ∧ i b = j := by
  constructor
  · intro h
    unfold formatB at h
    split_ifs at h with hhigh
    exact ⟨arg.getLsbD 0, eq_boolArg hhigh, Except.ok.inj h⟩
  · rintro ⟨b, rfl, rfl⟩
    exact formatB_boolArg b i

/-- A word with a command's opcode and operand decodes to it. -/
theorem decode_of_fields {w : CmdWord} {i : Instr} (hop : opField w = opcodeOf i) (harg : argField w = operandOf i)
    (hwf : i.wellFormed = true) : decode w = .ok i := by
  unfold decode
  rw [hop, harg]
  cases i with
  | wrbit b => exact formatB_boolArg b .wrbit
  | attach b => exact formatB_boolArg b .attach
  | verify len => exact if_neg (by simpa [Instr.wellFormed] using hwf)
  | reset | rdbit | rdbyte | skip | select | search | rstsrch => rfl
  | wrbyte _ | rdbytes _ | wrbytes _ | crc8 _ => rfl

theorem encode_eq_of_fields {w : CmdWord} {i : Instr} (hop : opField w = opcodeOf i) (harg : argField w = operandOf i) :
    encode i = w := by
  rw [encode, ← hop, ← harg, opField_append_argField]

theorem encode_of_formatN {w : CmdWord} {i j : Instr} (hop : opField w = opcodeOf j) (harg : operandOf j = 0)
    (hwf : j.wellFormed = true) (h : formatN (argField w) j = .ok i) : encode i = w ∧ i.wellFormed = true := by
  obtain ⟨h0, rfl⟩ := formatN_eq_ok.1 h
  exact ⟨encode_eq_of_fields hop (h0.trans harg.symm), hwf⟩

theorem encode_of_formatB {w : CmdWord} {i : Instr} {f : Bool → Instr} (hop : ∀ b, opField w = opcodeOf (f b))
    (harg : ∀ b, operandOf (f b) = boolArg b) (hwf : ∀ b, (f b).wellFormed = true)
    (h : formatB (argField w) f = .ok i) : encode i = w ∧ i.wellFormed = true := by
  obtain ⟨b, hb, rfl⟩ := formatB_eq_ok.1 h
  exact ⟨encode_eq_of_fields (hop b) (hb.trans (harg b).symm), hwf b⟩

theorem encode_of_formatI {w : CmdWord} {i j : Instr} (hop : opField w = opcodeOf j) (harg : argField w = operandOf j)
    (hwf : j.wellFormed = true) (h : (.ok j : Except DecodeReject Instr) = .ok i) :
    encode i = w ∧ i.wellFormed = true := by
  cases h
  exact ⟨encode_eq_of_fields hop harg, hwf⟩

/-- One test of the decoder's chain: it succeeds, or the rest of the chain decides. -/
theorem of_ite_eq {α : Type} {c P : Prop} [Decidable c] {a b x : α} (h : (if c then a else b) = x)
    (pos : c → a = x → P) (neg : b = x → P) : P := by
  by_cases hc : c
  · exact pos hc (by rwa [if_pos hc] at h)
  · exact neg (by rwa [if_neg hc] at h)

/-- Each branch of the decoder, in R73's order, gives back the two fields it read. -/
theorem encode_of_decode {w : CmdWord} {i : Instr} (h : decode w = .ok i) : encode i = w ∧ i.wellFormed = true := by
  refine of_ite_eq h (encode_of_formatN · rfl rfl) fun h => ?_
  refine of_ite_eq h (encode_of_formatN · rfl rfl) fun h => ?_
  refine of_ite_eq h (fun wrbit => encode_of_formatB (fun _ => wrbit) (fun _ => rfl) fun _ => rfl) fun h => ?_
  refine of_ite_eq h (encode_of_formatN · rfl rfl) fun h => ?_
  refine of_ite_eq h (encode_of_formatI · rfl rfl) fun h => ?_
  refine of_ite_eq h (encode_of_formatI · rfl rfl) fun h => ?_
  refine of_ite_eq h (encode_of_formatI · rfl rfl) fun h => ?_
  refine of_ite_eq h (encode_of_formatN · rfl rfl) fun h => ?_
  refine of_ite_eq h (encode_of_formatN · rfl rfl) fun h => ?_
  refine of_ite_eq h (encode_of_formatN · rfl rfl) fun h => ?_
  refine of_ite_eq h (encode_of_formatN · rfl rfl) fun h => ?_
  refine of_ite_eq h (fun attach => encode_of_formatB (fun _ => attach) (fun _ => rfl) fun _ => rfl) fun h => ?_
  refine of_ite_eq h (encode_of_formatI · rfl rfl) fun h => ?_
  refine of_ite_eq h (fun verify h => ?_) fun h => nomatch h
  split_ifs at h with h0
  exact encode_of_formatI (j := .verify (argField w)) verify rfl (by simpa [Instr.wellFormed] using h0) h

/-- A word is a command exactly when it is that command's encoding, and the command is well formed. -/
theorem decode_eq_ok_iff {w : CmdWord} {i : Instr} : decode w = .ok i ↔ encode i = w ∧ i.wellFormed = true := by
  refine ⟨encode_of_decode, ?_⟩
  rintro ⟨rfl, hwf⟩
  exact decode_of_fields (opField_encode i) (argField_encode i) hwf

/-- The one word of an ill-formed command is that of `VERIFY 0` (R74). -/
theorem wellFormed_of_encode_ne {i : Instr} (h : encode i ≠ 0x0E00) : i.wellFormed = true := by
  cases i with
  | verify len => exact bne_iff_ne.2 fun hlen => h (by rw [hlen]; rfl)
  | reset | rdbit | wrbit _ | rdbyte | wrbyte _ | rdbytes _ | wrbytes _ => rfl
  | skip | select | search | rstsrch | attach _ | crc8 _ => rfl

/-- Settles O6: the encoder writes the two fields, and the decoder gives back a command from its own. -/
theorem decodeOfEncodeIsIdentity : Obligations.DecodeOfEncodeIsIdentity :=
  fun _ hwf => decode_eq_ok_iff.2 ⟨rfl, hwf⟩

/-- Settles O7: each of the decoder's branches gives back the two fields it read. -/
theorem encodeOfDecodeIsIdentity : Obligations.EncodeOfDecodeIsIdentity :=
  fun _ _ h => decode_eq_ok_iff.1 h

/-- Settles O9: the words are literals. -/
theorem writtenOutWordsDecode : Obligations.WrittenOutWordsDecode := by
  refine ⟨?_, ?_, ?_, ?_, ?_, ?_, ?_, ?_⟩ <;> decide

/-! ### The opcode table (R73) -/

@[simp] theorem opField_and (w v : CmdWord) : opField (w &&& v) = opField w &&& opField v := BitVec.extractLsb'_and

@[simp] theorem argField_and (w v : CmdWord) : argField (w &&& v) = argField w &&& argField v := BitVec.extractLsb'_and

theorem word_eq_iff {w v : CmdWord} : w = v ↔ opField w = opField v ∧ argField w = argField v := by
  refine ⟨fun h => h ▸ ⟨rfl, rfl⟩, fun ⟨hop, harg⟩ => ?_⟩
  rw [← opField_append_argField w, hop, harg, opField_append_argField]

/-- The operand bits that a command's format fixes at 0 (R71): all in format N, bits 7:1 in format B, none in format I. -/
def operandMask : Instr → Byte
  | .wrbit _ | .attach _ => 0xFE
  | .wrbyte _ | .rdbytes _ | .wrbytes _ | .crc8 _ | .verify _ => 0
  | .reset | .rdbit | .rdbyte | .skip | .select | .search | .rstsrch => 0xFF

theorem operandOf_and_operandMask (i : Instr) : operandOf i &&& operandMask i = 0 := by
  cases i with
  | wrbit b | attach b => cases b <;> rfl
  | wrbyte _ | rdbytes _ | wrbytes _ | crc8 _ | verify _ => exact BitVec.and_zero
  | reset | rdbit | rdbyte | skip | select | search | rstsrch => rfl

/-- A command's row of the table. -/
def rowOf (i : Instr) : OpcodeRow := ⟨mnemonicOf i, opcodeOf i ++ (0 : Byte), BitVec.allOnes 8 ++ operandMask i⟩

/-- A row fixes the whole opcode, and the operand on its format's mask. -/
theorem accepts_rowOf (i : Instr) (w : CmdWord) :
    (rowOf i).accepts w = (argField w &&& operandMask i == 0 && opField w == opcodeOf i) := by
  rw [Bool.eq_iff_iff]
  simp only [OpcodeRow.accepts, rowOf, beq_iff_eq, Bool.and_eq_true, word_eq_iff, opField_and, argField_and,
    opField_append, argField_append, BitVec.and_allOnes, and_comm]

/-- One command of each row, in the table's order. -/
def rowCommands : List Instr :=
  [.reset, .rdbit, .wrbit false, .rdbyte, .wrbyte 0, .rdbytes 0, .wrbytes 0, .skip, .select, .search, .rstsrch,
   .attach false, .crc8 0, .verify 0]

theorem opcodeTable_eq : opcodeTable = rowCommands.map rowOf := by decide

/-- No two rows have the same opcode. -/
theorem opcodeTable_filter_opcode (i : Instr) :
    opcodeTable.filter (fun r => opField r.pattern == opcodeOf i) = [rowOf i] := by
  simp only [opcodeTable_eq, List.filter_map, Function.comp_def, rowOf, opField_append]
  cases i <;> rfl

/-- The word of a command matches that command's row alone. -/
theorem opcodeTable_filter_accepts (i : Instr) : opcodeTable.filter (·.accepts (encode i)) = [rowOf i] := by
  have hsplit : opcodeTable.filter (·.accepts (encode i)) =
      (opcodeTable.filter fun r => opField r.pattern == opcodeOf i).filter (·.accepts (encode i)) := by
    rw [List.filter_filter]
    refine List.filter_congr fun r hr => ?_
    rw [opcodeTable_eq] at hr
    obtain ⟨j, -, rfl⟩ := List.mem_map.1 hr
    rw [accepts_rowOf, opField_encode, rowOf, opField_append, Bool.and_assoc, Bool.beq_comm (a := opcodeOf i),
      Bool.and_self]
  rw [hsplit, opcodeTable_filter_opcode, List.filter_singleton, accepts_rowOf]
  simp [operandOf_and_operandMask]

theorem boolArg_of_masked {arg : Byte} (h : arg &&& 0xFE = 0) : ∃ b, boolArg b = arg := by
  revert arg; decide

theorem exists_encode_of_operandMask {w : CmdWord} {i : Instr} (hop : opField w = opcodeOf i)
    (harg : argField w &&& operandMask i = 0) : ∃ j, encode j = w := by
  cases i with
  | wrbit b =>
    obtain ⟨b, hb⟩ := boolArg_of_masked harg
    exact ⟨.wrbit b, encode_eq_of_fields hop hb.symm⟩
  | attach b =>
    obtain ⟨b, hb⟩ := boolArg_of_masked harg
    exact ⟨.attach b, encode_eq_of_fields hop hb.symm⟩
  | wrbyte _ => exact ⟨.wrbyte (argField w), encode_eq_of_fields hop rfl⟩
  | rdbytes _ => exact ⟨.rdbytes (argField w), encode_eq_of_fields hop rfl⟩
  | wrbytes _ => exact ⟨.wrbytes (argField w), encode_eq_of_fields hop rfl⟩
  | crc8 _ => exact ⟨.crc8 (argField w), encode_eq_of_fields hop rfl⟩
  | verify _ => exact ⟨.verify (argField w), encode_eq_of_fields hop rfl⟩
  | reset | rdbit | rdbyte | skip | select | search | rstsrch =>
    exact ⟨_, encode_eq_of_fields hop (BitVec.and_allOnes.symm.trans harg)⟩

/-- A word that matches a row is the word of a command, `VERIFY 0` included. -/
theorem exists_encode_of_accepts {r : OpcodeRow} (hr : r ∈ opcodeTable) {w : CmdWord} (h : r.accepts w = true) :
    ∃ i, encode i = w := by
  rw [opcodeTable_eq] at hr
  obtain ⟨i, -, rfl⟩ := List.mem_map.1 hr
  rw [accepts_rowOf, Bool.and_eq_true, beq_iff_eq, beq_iff_eq] at h
  exact exists_encode_of_operandMask h.2 h.1

/-- Settles O8: a command's word matches its own row alone, and a word that matches a row is a command's. -/
theorem decodeAgreesWithOpcodeTable : Obligations.DecodeAgreesWithOpcodeTable := by
  intro w
  refine ⟨⟨?_, ?_⟩, ?_⟩
  · rintro ⟨i, hi⟩
    obtain ⟨rfl, -⟩ := decode_eq_ok_iff.1 hi
    have hrow : rowOf i ∈ opcodeTable.filter (·.accepts (encode i)) := by simp [opcodeTable_filter_accepts]
    refine ⟨fun h0 => ?_, rowOf i, List.mem_filter.1 hrow⟩
    rw [h0] at hi
    cases hi
  · rintro ⟨h0, r, hr, hacc⟩
    obtain ⟨i, rfl⟩ := exists_encode_of_accepts hr hacc
    exact ⟨i, decode_eq_ok_iff.2 ⟨rfl, wellFormed_of_encode_ne h0⟩⟩
  · intro i hi
    obtain ⟨rfl, -⟩ := decode_eq_ok_iff.1 hi
    rw [opcodeTable_filter_accepts]
    rfl

/-! ### Illegal words (R74, R168) -/

theorem runWord_of_illegal {w : CmdWord} (h : ∀ i, decode w ≠ .ok i) (s : State) :
    runWord w s = .next (raiseFail .illegalCommand s) := by
  unfold runWord
  cases hd : decode w with
  | ok i => exact absurd hd (h i)
  | error _ => rfl

theorem opcodeOf_range (i : Instr) : 1 ≤ (opcodeOf i).toNat ∧ (opcodeOf i).toNat ≤ 0x0E := by
  cases i <;> simp [opcodeOf]

/-- The opcodes of format N, whose operand is 0 (R71, R73). -/
theorem operandOf_eq_zero {i : Instr} (h : (opcodeOf i).toNat ∈ [0x01, 0x02, 0x04, 0x08, 0x09, 0x0A, 0x0B]) :
    operandOf i = 0 := by
  cases i with
  | reset | rdbit | rdbyte | skip | select | search | rstsrch => rfl
  | wrbit _ | wrbyte _ | rdbytes _ | wrbytes _ | attach _ | crc8 _ | verify _ => simp [opcodeOf] at h

/-- The opcodes of format B, whose operand is a boolean (R71, R73). -/
theorem operandOf_high_eq_zero {i : Instr} (h : (opcodeOf i).toNat ∈ [0x03, 0x0C]) :
    (operandOf i).extractLsb' 1 7 = 0 := by
  cases i with
  | wrbit b | attach b => exact extractLsb'_boolArg b
  | reset | rdbit | rdbyte | skip | select | search | rstsrch => rfl
  | wrbyte _ | rdbytes _ | wrbytes _ | crc8 _ | verify _ => simp [opcodeOf] at h

/-- Settles O11: none of the listed words is the encoding of a well-formed command. -/
theorem illegalWordOnlyFails : Obligations.IllegalWordOnlyFails := by
  intro s w rest hhost hillegal
  have hno : ∀ i, decode w ≠ .ok i := by
    intro i hi
    obtain ⟨rfl, hwf⟩ := decode_eq_ok_iff.1 hi
    rw [opField_encode, argField_encode] at hillegal
    obtain ⟨hlo, hhi⟩ := opcodeOf_range i
    rcases hillegal with h0 | hbig | ⟨hN, harg⟩ | ⟨hB, harg⟩ | hverify
    · omega
    · omega
    · exact harg (operandOf_eq_zero hN)
    · exact harg (operandOf_high_eq_zero hB)
    · rw [hverify] at hi
      cases hi
  rw [step_of_move hhost]
  exact runWord_of_illegal hno _

end Sys2Proof.Machine

/-! PROOFS. What a command does not read: a change of the state that no procedure sees commutes with every procedure. The two
changes used are the zeroed bytes of failed answers (U4) and the result of an earlier command (R77). -/

namespace Sys2Proof.Machine

open Sys2Proof

/-! ### Changes of the state that a procedure does not see -/

/-- The same end in the changed state. -/
def Result.mapState {α : Type} (w : State → State) : Result α → Result α
  | .ok a s => .ok a (w s)
  | .fail c s => .fail c (w s)

/-- The procedure `f` does not see the change `w`: from the changed state it does the same, and leaves the change in place. -/
def Blind {α : Type} (w : State → State) (f : State → Result α) : Prop := ∀ s, f (w s) = (f s).mapState w

section
variable {α β : Type} {w : State → State}

theorem Blind.bind {f : State → Result α} {g : α → State → Result β} (hf : Blind w f) (hg : ∀ a, Blind w (g a)) :
    Blind w fun s => (f s).bind (g · ·) := by
  intro s
  simp only [hf s]
  cases f s with
  | ok a t => exact hg a t
  | fail c t => rfl

theorem Blind.pure (a : α) : Blind w fun s => .ok a s := fun _ => rfl

theorem Blind.raise (c : Cause) : Blind (α := α) w fun s => .fail c s := fun _ => rfl

theorem Blind.update (a : α) {f : State → State} (h : ∀ s, f (w s) = w (f s)) : Blind w fun s => .ok a (f s) :=
  fun s => congrArg (Result.ok a) (h s)

/-- A procedure with a parameter that is read from the state, where the change leaves it. -/
theorem Blind.reading {ι : Type} {p : State → ι} {f : ι → State → Result α} (hp : ∀ s, p (w s) = p s)
    (hf : ∀ x, Blind w (f x)) : Blind w fun s => f (p s) s := by
  intro s
  simp only [hp s]
  exact hf (p s) s

theorem Blind.ite {c : Prop} [Decidable c] {f g : State → Result α} (hf : Blind w f) (hg : Blind w g) :
    Blind w fun s => if c then f s else g s := by
  by_cases h : c
  · simpa only [if_pos h] using hf
  · simpa only [if_neg h] using hg

end

/-- A change that the downstream port does not see: the next answer is the same but for the byte of a failed one, the parameters
are the same, and using an answer or noting a status byte's faults leaves the change in place. -/
structure PortBlind (w : State → State) : Prop where
  ok         : ∀ s, (w s).nextAnswer.ok = s.nextAnswer.ok
  byte       : ∀ s, s.nextAnswer.ok = true → (w s).nextAnswer.byte = s.nextAnswer.byte
  answered   : ∀ s e, (w s).dropAnswer.emit e = w (s.dropAnswer.emit e)
  noteFaults : ∀ st s, noteFaults st (w s) = w (noteFaults st s)
  params     : ∀ s, (w s).params = s.params

/-! ### The procedures of the downstream port -/

section
variable {w : State → State} (h : PortBlind w)
include h

theorem PortBlind.prim (p : Prim) : Blind w (prim p) := by
  intro s
  simp only [Machine.prim, h.ok, h.answered]
  split_ifs <;> rfl

theorem PortBlind.readStatus : Blind w readStatus := by
  intro s
  by_cases hok : s.nextAnswer.ok = true
  · simp only [Machine.readStatus, h.ok, h.answered, hok, h.byte s hok, if_true]
    rfl
  · simp only [Machine.readStatus, h.ok, h.answered, if_neg hok]
    rfl

theorem PortBlind.readData : Blind w readData := by
  intro s
  by_cases hok : s.nextAnswer.ok = true
  · simp only [Machine.readData, h.ok, h.answered, hok, h.byte s hok, if_true]
    rfl
  · simp only [Machine.readData, h.ok, h.answered, if_neg hok]
    rfl

theorem PortBlind.pollOnce : Blind w pollOnce :=
  h.readStatus.bind fun st => .update st (h.noteFaults st)

theorem PortBlind.pollTimeout : Blind w pollTimeout := by
  intro s
  refine congrArg (Result.fail .busyTimeout) ?_
  rw [h.params]
  split_ifs
  · rw [primIgnored, h.ok, h.answered]
    rfl
  · rfl

theorem PortBlind.pollLoop (n : Nat) : Blind w (pollLoop n) := by
  induction n with
  | zero => exact h.pollOnce.bind fun st => .ite h.pollTimeout (.pure st)
  | succ n ih => exact h.pollOnce.bind fun st => .ite ih (.pure st)

theorem PortBlind.waitBusy : Blind w waitBusy :=
  .reading (p := fun s => s.params.pollMaxPred) (fun s => by rw [h.params]) h.pollLoop

theorem PortBlind.doBit (b : Bool) : Blind w (doBit b) :=
  (h.prim _).bind fun _ => h.waitBusy.bind fun st => .pure (statusSBR st)

theorem PortBlind.doWriteByte (v : Byte) : Blind w (doWriteByte v) :=
  (h.prim _).bind fun _ => h.waitBusy.bind fun _ => .pure ()

theorem PortBlind.doReadByte : Blind w doReadByte :=
  (h.prim _).bind fun _ => h.waitBusy.bind fun _ => h.readData

theorem PortBlind.writeBytesFrom (hbuf : ∀ s, (w s).buf = s.buf) (n k : Nat) : Blind w (writeBytesFrom n k) := by
  induction n generalizing k with
  | zero => exact .pure ()
  | succ n ih =>
    exact Blind.bind (.reading (p := fun s => s.bufAt k) (fun s => by rw [State.bufAt, hbuf]; rfl) h.doWriteByte)
      fun _ => ih (k + 1)

end

/-! ### Commands one after another (R77) -/

/-- The result of a command is read by no procedure of the next one. -/
theorem portBlind_commandDone : PortBlind commandDone where
  ok _         := rfl
  byte _ _     := rfl
  answered _ _ := rfl
  noteFaults st s := by rw [noteFaults_eq, noteFaults_eq]; rfl
  params _     := rfl

/-- The end of a command overwrites the result it started with. -/
theorem runCommand_of_commandDone {f : State → Result Unit} (hf : Blind commandDone f) (s : State) :
    runCommand (f (commandDone s)) = runCommand (f s) := by
  rw [hf s]
  cases f s <;> rfl

/-- A command of body `r`, and after it commands that together do `f`, are one command of the two bodies in sequence. -/
theorem runWhileOk_cons {i : Instr} {is : List Instr} {s : State} {r : Result Unit} {f : State → Result Unit}
    (hi : exec i s = runCommand r) (hf : Blind commandDone f)
    (his : ∀ t, r = .ok () t → runWhileOk is (commandDone t) = runCommand (f (commandDone t))) :
    runWhileOk (i :: is) s = runCommand (r.bind fun _ t => f t) := by
  rw [runWhileOk, hi]
  cases r with
  | ok _ t => exact (his t rfl).trans (runCommand_of_commandDone hf t)
  | fail c t => rfl

theorem runWhileOk_singleton (i : Instr) (s : State) : runWhileOk [i] s = exec i s := by
  obtain ⟨r, hr⟩ := exec_is_runCommand i s
  rw [hr, runWhileOk_cons hr (f := .ok ()) (.pure ()) fun _ _ => rfl]
  cases r <;> rfl

/-- The bytes from `BUF[k]` on, one WRBYTE each (R115): a sent byte leaves `BUF` as it was. -/
theorem runWhileOk_wrbytes (n k : Nat) (s : State) :
    runWhileOk ((List.range' k (n + 1)).map fun j => .wrbyte (s.bufAt j)) s = runCommand (writeBytesFrom (n + 1) k s) := by
  induction n generalizing k s with
  | zero => exact runWhileOk_cons rfl (.pure ()) fun _ _ => rfl
  | succ n ih =>
    rw [List.range'_succ, List.map_cons]
    refine runWhileOk_cons rfl (portBlind_commandDone.writeBytesFrom (fun _ => rfl) (n + 1) (k + 1)) fun t ht => ?_
    have hbuf : t.buf = s.buf := by
      have := (doWriteByte_frame (s.bufAt k) s).buf
      rwa [ht] at this
    rw [← ih]
    simp only [State.bufAt, commandDone, State.setResult_buf, hbuf]

/-- Settles O28: the result of each command in the sequence is overwritten by the last one's. -/
theorem sendingCommandsAreByteSequences : Obligations.SendingCommandsAreByteSequences := by
  refine ⟨fun s => rfl, fun s => ?_, fun s len hlen => ?_⟩
  · exact (runWhileOk_cons rfl (portBlind_commandDone.writeBytesFrom (fun _ => rfl) 8 0)
      fun t _ => runWhileOk_singleton _ _).symm
  · obtain ⟨n, hn⟩ := Nat.exists_eq_succ_of_ne_zero fun h : len.toNat = 0 => hlen (BitVec.eq_of_toNat_eq h)
    have := runWhileOk_wrbytes n 0 s
    rw [← List.range_eq_range', ← Nat.succ_eq_add_one, ← hn] at this
    exact this.symm

/-! ### The bytes of failed answers (U4) -/

theorem withoutFailedByte_ok (a : Answer) : (withoutFailedByte a).ok = a.ok := by
  unfold withoutFailedByte
  split_ifs with h
  · rfl
  · exact (Bool.eq_false_iff.2 h).symm

theorem withoutFailedByte_of_ok {a : Answer} (h : a.ok = true) : withoutFailedByte a = a := if_pos h

/-- The next answer is a listed one, without its byte if it failed, or the same free one. -/
theorem nextAnswer_withoutFailedBytes (s : State) :
    s.withoutFailedBytes.nextAnswer = withoutFailedByte s.nextAnswer ∨ s.withoutFailedBytes.nextAnswer = s.nextAnswer := by
  unfold State.nextAnswer State.withoutFailedBytes
  cases s.answers with
  | nil => exact .inr rfl
  | cons a as => exact .inl rfl

theorem dropAnswer_withoutFailedBytes (s : State) :
    s.withoutFailedBytes.dropAnswer = s.dropAnswer.withoutFailedBytes := by
  simp [State.dropAnswer, State.withoutFailedBytes, List.map_tail]

theorem portBlind_withoutFailedBytes : PortBlind State.withoutFailedBytes where
  ok s := by
    rcases nextAnswer_withoutFailedBytes s with h | h <;> rw [h]
    exact withoutFailedByte_ok _
  byte s hok := by
    rcases nextAnswer_withoutFailedBytes s with h | h <;> rw [h]
    rw [withoutFailedByte_of_ok hok]
  answered s e := by rw [dropAnswer_withoutFailedBytes]; rfl
  noteFaults st s := by rw [noteFaults_eq, noteFaults_eq]; rfl
  params _ := rfl

/-! RESET, SEARCH and RDBYTES read the state besides the port, never the list of answers. -/

theorem cfgWrite_withoutFailedBytes (apu b od : Bool) : Blind State.withoutFailedBytes fun s =>
    (prim (.wcfg apu b od) s).bind fun _ s1 => .ok () (s1.setSpu b) :=
  (portBlind_withoutFailedBytes.prim _).bind fun _ => .update () fun _ => rfl

theorem clearSpu_withoutFailedBytes : Blind State.withoutFailedBytes clearSpu :=
  fun s => Blind.ite (c := s.spu = true) (cfgWrite_withoutFailedBytes s.apu false s.od) (.pure ()) s

theorem restoreSpu_withoutFailedBytes (b : Bool) : Blind State.withoutFailedBytes (restoreSpu b) :=
  fun s => Blind.ite (c := b = true) (cfgWrite_withoutFailedBytes s.apu true s.od) (.pure ()) s

theorem doReset_withoutFailedBytes : Blind State.withoutFailedBytes doReset := by
  have h := portBlind_withoutFailedBytes
  exact fun s => (clearSpu_withoutFailedBytes.bind fun _ => h.waitBusy.bind fun _ => (h.prim .wrs).bind fun _ =>
    h.waitBusy.bind fun st => (restoreSpu_withoutFailedBytes s.spu).bind fun _ => .pure (statusPPD st)) s

theorem searchPresence_withoutFailedBytes : Blind State.withoutFailedBytes searchPresence := by
  intro s
  rw [searchPresence, searchPresence, doReset_withoutFailedBytes s]
  cases doReset s with
  | ok p t => cases p <;> rfl
  | fail c t => rfl

theorem searchBit_withoutFailedBytes (i : Nat) (lz : BitVec 7) : Blind State.withoutFailedBytes (searchBit i lz) := by
  have h := portBlind_withoutFailedBytes
  have hend (st : Byte) : Blind State.withoutFailedBytes fun t =>
      if tripletCollision st then .fail .collision t.resetSearch
      else .ok (if tripletZeroTaken st then BitVec.ofNat 7 i else lz) (t.setRomBit i (statusDIR st)) :=
    .ite (fun _ => rfl) (fun _ => rfl)
  exact fun s => ((h.prim (.wt (requestedDir s.rom s.ld i))).bind fun _ => h.waitBusy.bind hend) s

theorem searchFrom_withoutFailedBytes (n i : Nat) (lz : BitVec 7) : Blind State.withoutFailedBytes (searchFrom n i lz) := by
  induction n generalizing i lz with
  | zero => exact .pure lz
  | succ n ih => exact (searchBit_withoutFailedBytes i lz).bind fun lz' => ih (i + 1) lz'

theorem writeBufFrom_withoutFailedBytes (k : Nat) (vs : List Byte) (s : State) :
    s.withoutFailedBytes.writeBufFrom k vs = (s.writeBufFrom k vs).withoutFailedBytes := by
  induction vs generalizing k s with
  | nil => rfl
  | cons v vs ih => exact ih (k + 1) (s.writeBuf k v)

theorem searchDeliver_withoutFailedBytes : Blind State.withoutFailedBytes searchDeliver :=
  fun s => Blind.ite (c := crcVerify s.rom.toList = true) (.update (f := (·.writeBufFrom 0 s.rom.toList)) ()
    (writeBufFrom_withoutFailedBytes 0 s.rom.toList)) (.raise .checksum) s

theorem readBytesInto_withoutFailedBytes (n k : Nat) : Blind State.withoutFailedBytes (readBytesInto n k) := by
  induction n generalizing k with
  | zero => exact .pure ()
  | succ n ih => exact portBlind_withoutFailedBytes.doReadByte.bind fun v s => ih (k + 1) (s.writeBuf k v)

/-- The body of every command ends alike where the bytes of failed answers are zeroed. -/
theorem exec_withoutFailedBytes (i : Instr) (s : State) :
    ∃ r, exec i s = runCommand r ∧ exec i s.withoutFailedBytes = runCommand (r.mapState State.withoutFailedBytes) := by
  have h := portBlind_withoutFailedBytes
  cases i with
  | reset =>
    exact ⟨_, rfl, congrArg runCommand
      ((doReset_withoutFailedBytes.bind fun p => .ite (.pure ()) (.raise .noPresence)) s)⟩
  | rdbit =>
    exact ⟨_, rfl, congrArg runCommand
      (((h.doBit true).bind fun v => .update (f := (·.setResBit v)) () fun _ => rfl) s)⟩
  | wrbit b => exact ⟨_, rfl, congrArg runCommand (((h.doBit b).bind fun _ => .pure ()) s)⟩
  | rdbyte =>
    exact ⟨_, rfl, congrArg runCommand
      ((h.doReadByte.bind fun v => .update (f := (·.setData v)) () fun _ => rfl) s)⟩
  | wrbyte v => exact ⟨_, rfl, congrArg runCommand (h.doWriteByte v s)⟩
  | rdbytes len => exact ⟨_, rfl, congrArg runCommand (readBytesInto_withoutFailedBytes _ 0 s)⟩
  | wrbytes len => exact ⟨_, rfl, congrArg runCommand (h.writeBytesFrom (fun _ => rfl) _ 0 s)⟩
  | skip => exact ⟨_, rfl, congrArg runCommand (h.doWriteByte _ s)⟩
  | select =>
    exact ⟨_, rfl, congrArg runCommand (((h.doWriteByte _).bind fun _ => h.writeBytesFrom (fun _ => rfl) 8 0) s)⟩
  | search =>
    have hbits : Blind State.withoutFailedBytes fun t => (searchFrom 64 0 0 t).bind fun lz u =>
        searchDeliver (searchProgress lz u) :=
      (searchFrom_withoutFailedBytes 64 0 0).bind fun lz u => searchDeliver_withoutFailedBytes (searchProgress lz u)
    have hsearch : Blind State.withoutFailedBytes fun t => (searchPresence t).bind fun _ t1 =>
        (doWriteByte t1.params.cmdSearchRom t1).bind fun _ t2 =>
        (searchFrom 64 0 0 t2).bind fun lz u => searchDeliver (searchProgress lz u) :=
      searchPresence_withoutFailedBytes.bind fun _ t1 => ((h.doWriteByte t1.params.cmdSearchRom).bind fun _ => hbits) t1
    exact ⟨_, rfl, congrArg runCommand (Blind.ite (c := s.ldf = true) (.raise .noMoreDevices) hsearch s)⟩
  | rstsrch | attach _ | crc8 _ => exact ⟨_, rfl, rfl⟩
  | verify len =>
    have hcheck : Blind State.withoutFailedBytes fun t =>
        if crcVerify (s.bufBytes (byteCount len)) then .ok () t else .fail .checksum t :=
      .ite (.pure ()) (.raise .checksum)
    exact ⟨_, rfl, congrArg runCommand (Blind.ite (c := len = 0) (.raise .illegalCommand) hcheck s)⟩

/-- Settles O50: every request asks its answer's success before its byte, and so does every command. -/
theorem failedAnswerBytesAreUnread : Obligations.FailedAnswerBytesAreUnread := by
  intro i s t ht
  obtain ⟨r, hr, hr'⟩ := exec_withoutFailedBytes i s
  rw [eq_endCommand hr ht, hr']
  cases r <;> rfl

end Sys2Proof.Machine

/-! PROOFS. The transport rendering: the bytes of a primitive, the parts of a composite read, the trace event by event. -/

namespace Sys2Proof.Machine

open Sys2Proof

/-- The configuration byte, bit by bit: its lower half `{od, spu, 0, apu}`, its upper half the complement (R84). -/
theorem cfgByte_bits (apu spu od : Bool) (j : Nat) (hj : j < 4) :
    (cfgByte apu spu od).getLsbD j = (if j = 0 then apu else if j = 2 then spu else if j = 3 then od else false) ∧
      (cfgByte apu spu od).getLsbD (j + 4) = !(cfgByte apu spu od).getLsbD j := by
  revert apu spu od
  interval_cases j <;> decide

theorem compositeRead_all_succeeded (a : Nat) (ptr : Byte) (part : ReadPart) (answer : Option Byte) :
    (compositeRead a ptr part answer).all TransportOp.succeeded = answer.isSome := by
  cases answer <;> cases part <;> rfl

/-- One more event is rendered after the earlier ones, with its own choice of the part that failed. -/
theorem transportTrace_of_append {s t : State} {e : Event} (parts : Nat → ReadPart) (hp : t.params = s.params)
    (ht : t.trace = s.trace ++ [e]) :
    t.transportTrace parts = s.transportTrace parts ++ eventOps s.params.devAddr (parts s.trace.length) e := by
  simp [State.transportTrace, hp, ht, List.zipIdx_append]

theorem eventOps_all_succeeded (a : Nat) (part : ReadPart) {e : Event} (h : e.isRequest = true) :
    (eventOps a part e).all TransportOp.succeeded = e.answeredOk := by
  cases e with
  | prim p ok => simp [eventOps, TransportOp.succeeded, Event.answeredOk]
  | status st => exact compositeRead_all_succeeded a ptrStatus part st
  | data v => exact compositeRead_all_succeeded a ptrData part v
  | notify k => cases h

/-- Settles O60: the tables of bytes as they stand in the definitions, then the laws of the configuration byte, of an event's
success and of a longer trace. -/
theorem requestsRenderAsTransportOperations : Obligations.RequestsRenderAsTransportOperations := by
  refine ⟨fun a part p ok => rfl, ?_, fun a part v => ⟨rfl, rfl⟩, fun a => ⟨rfl, rfl, rfl, rfl⟩, fun a part k => rfl,
    fun a part e => eventOps_all_succeeded a part, fun s t e parts => transportTrace_of_append parts⟩
  exact ⟨rfl, fun _ => rfl, rfl, fun _ => rfl, fun _ => rfl, rfl, fun _ => rfl, fun apu spu od =>
    ⟨cfgByte apu spu od, rfl, cfgByte_bits apu spu od⟩⟩

end Sys2Proof.Machine

/-! PROOFS. The Bus Transaction Layer under given answers of the environment: `WaitBusy`, the commands of one request, the
byte strings, SELECT and RESET. -/

namespace Sys2Proof.Machine

open Sys2Proof

/-! ### WaitBusy (R100 to R104) -/

/-- The budget of status reads is exhausted: the recovery reset, if it is asked for, and BUSY_TIMEOUT (R104). -/
theorem pollTimeout_afterReads (s : State) (busy : List Byte) :
    pollTimeout (s.afterReads busy) = .fail .busyTimeout
      { s.consumed (busy.length + if s.params.timeoutDrst then 1 else 0) with
        sdSeen := flagAfter statusSD s.sdSeen busy, rstSeen := flagAfter statusRST s.rstSeen busy,
        trace := s.trace ++ readEvents s.cbEn s.sdSeen s.rstSeen busy ++
          (if s.params.timeoutDrst then [.prim .drst (s.answerAt busy.length).ok] else []) } := by
  have hanswer : (s.afterReads busy).nextAnswer = s.answerAt busy.length := by
    rw [State.nextAnswer_eq, State.answerAt_afterReads, Nat.add_zero]
  rw [pollTimeout, State.afterReads_params]
  split_ifs
  · rw [primIgnored, hanswer, State.dropAnswer_eq, ← State.consumed_consumed]
    rfl
  · simp [State.afterReads]

theorem Answers_denied_after {s : State} {as : List Answer} (h : s.Answers as)
    (hno : (s.answerAt as.length).ok = false) : ∃ z, s.Answers (as ++ [⟨false, z⟩]) := by
  have hdenied : ((s.consumed as.length).answerAt 0).ok = false := by rwa [State.answerAt_consumed]
  exact ⟨_, State.Answers.append.2 ⟨h, Answers_primitive_of_denied hdenied⟩⟩

/-- Settles O22: the poll under each course of the answers, and that everything a poll can end in is one of them. -/
theorem waitBusyFollowsItsRule : Obligations.WaitBusyFollowsItsRule := by
  refine ⟨fun s busy idle hbusy hidle hlen h => ?_, fun s busy z hbusy hlen h => ?_, fun s busy hbusy hlen h => ?_,
    fun s => ?_⟩
  · have good : (Poll.mk busy idle).good s.params.pollMax = true := by simpa [Poll.good, hidle, hlen] using hbusy
    rw [waitBusy_idle (p := ⟨busy, idle⟩) h good]
    simp [State.afterReads, Poll.bytes, flagAfter_append]
  · rw [waitBusy_denied h hbusy hlen, State.dropAnswer_eq, ← State.consumed_consumed]
    rfl
  · rw [waitBusy_timeout h hbusy hlen, pollTimeout_afterReads]
  · have out := waitBusy_outcome s
    generalize waitBusy s = r at out
    cases out with
    | idle p good ans =>
      simp only [Poll.good, Bool.and_eq_true, List.all_eq_true, Bool.not_eq_true', decide_eq_true_eq] at good
      obtain ⟨⟨hbusy, hidle⟩, hlen⟩ := good
      exact ⟨p.busy, hbusy, .inl ⟨hlen, p.idle, hidle, ans⟩⟩
    | timeout busy len all ans => exact ⟨busy, all, .inr (.inr ⟨len, ans⟩)⟩
    | denied busy len all ans no =>
      exact ⟨busy, all, .inr (.inl ⟨len, Answers_denied_after ans (by rwa [List.length_map])⟩)⟩

/-! ### The commands of one request, answered positively (R108 to R114, R121) -/

@[simp] theorem runCommand_ok (u : Unit) (s : State) : runCommand (.ok u s) = .next (commandDone s) := rfl

/-- The state after one exchange, as its fields. -/
theorem State.afterExchanges_singleton (s : State) (p : Prim) (x : Exchange) :
    s.afterExchanges [(p, x)] =
      { s.consumed x.answers.length with
        sdSeen := statusSD x.poll.idle, rstSeen := statusRST x.poll.idle,
        trace := s.trace ++ exchangeEvents s.cbEn s.sdSeen s.rstSeen [(p, x)] } := by
  simp [State.afterExchanges, exchangeAnswers]

/-- Settles O16: WRBYTE is one exchange of `P_1WWB`. -/
theorem writeByteCompletes : Obligations.WriteByteCompletes := by
  intro s v x h hx
  rw [exec, execWrbyte, doWriteByte_exchange v h hx, runCommand_ok, State.afterExchanges_singleton]
  rfl

/-- Settles O17: the sample is not passed on. -/
theorem writeBitCompletes : Obligations.WriteBitCompletes := by
  intro s b x h hx
  rw [exec, execWrbit, doBit_exchange b h hx, Result.ok_bind, runCommand_ok, State.afterExchanges_singleton]
  rfl

/-- Settles O18: the sample is bit 5 of the idle byte (R86). -/
theorem readBitCompletes : Obligations.ReadBitCompletes := by
  intro s x h hx
  rw [exec, execRdbit, doBit_exchange true h hx, Result.ok_bind, runCommand_ok, State.afterExchanges_singleton]
  rfl

/-- Settles O19: the exchange, then one more answer used for the data read. -/
theorem readByteCompletes : Obligations.ReadByteCompletes := by
  intro s x v h hx
  rw [exec, execRdbyte, doReadByte_exchange h hx, Result.ok_bind, runCommand_ok, State.afterExchange_dropAnswer]
  rfl

/-- Settles O20: SKIP is the exchange of one byte, the parameter `CMD_SKIP_ROM`. -/
theorem skipCompletes : Obligations.SkipCompletes := by
  intro s x h hx
  rw [exec, execSkip, doWriteByte_exchange _ h hx, runCommand_ok, State.afterExchanges_singleton]
  rfl

/-! ### Byte strings sent (R115, R122) -/

/-- The bytes `BUF[0], BUF[1], ...` sent by the exchanges `xs`. -/
def State.sends (s : State) (xs : List Exchange) : List (Prim × Exchange) :=
  ((List.range xs.length).map fun k => Prim.wwb (s.bufAt k)).zip xs

theorem State.sends_exchanges (s : State) (xs : List Exchange) : (s.sends xs).map (·.2) = xs :=
  List.map_snd_zip (by simp)

theorem exchangeAnswers_eq (ps : List (Prim × Exchange)) :
    exchangeAnswers ps = (ps.map (·.2)).flatMap Exchange.answers := by
  simp [exchangeAnswers, List.flatMap_map]

/-- What a sequence of exchanges leaves depends on the primitives only in the trace. -/
theorem State.afterExchanges_eq {s : State} {ps : List (Prim × Exchange)} {xs : List Exchange} (h : ps.map (·.2) = xs) :
    s.afterExchanges ps =
      { s.consumed (xs.flatMap Exchange.answers).length with
        sdSeen := flagAfter statusSD s.sdSeen (xs.map (·.poll.idle)),
        rstSeen := flagAfter statusRST s.rstSeen (xs.map (·.poll.idle)),
        trace := s.trace ++ exchangeEvents s.cbEn s.sdSeen s.rstSeen ps } := by
  subst h
  simp [State.afterExchanges, exchangeAnswers_eq, Function.comp_def]

/-- As many bytes of `BUF` sent as there are exchanges, and the rest still to send. -/
theorem writeBytesFrom_sends {s : State} {xs : List Exchange} (n : Nat) (h : s.Answers (xs.flatMap Exchange.answers))
    (hx : ∀ x ∈ xs, x.good s.params.pollMax = true) :
    writeBytesFrom (xs.length + n) 0 s = writeBytesFrom n xs.length (s.afterExchanges (s.sends xs)) := by
  rw [writeBytesFrom_exchanges xs n 0 s h hx, Nat.zero_add, ← List.range_eq_range']
  rfl

/-- Settles O23: every byte is one exchange, and none is left. -/
theorem writeBytesCompletes : Obligations.WriteBytesCompletes := by
  intro s len xs hlen h hx
  have hsent : writeBytesFrom xs.length 0 s = .ok () (s.afterExchanges (s.sends xs)) := writeBytesFrom_sends 0 h hx
  rw [exec, execWrbytes, byteCount, ← hlen, hsent, runCommand_ok, State.afterExchanges_eq (s.sends_exchanges xs),
    State.sends, hlen]
  rfl

theorem State.sends_answers {s : State} {xs : List Exchange} {as : List Answer} :
    (s.afterExchanges (s.sends xs)).Answers as ↔ (s.consumed (xs.flatMap Exchange.answers).length).Answers as := by
  rw [State.Answers.afterExchanges, exchangeAnswers_eq, State.sends_exchanges]

/-- After `n` answers have been used, the recovery reset's answer is the one `n` further on. -/
theorem PollFailure.recovery_consumed {s u : State} {n : Nat} (hparams : u.params = s.params)
    (hanswers : u.answers = (s.consumed n).answers) (hfree : u.freeCount = (s.consumed n).freeCount) (f : PollFailure)
    (m : Nat) : f.recovery u m = f.recovery s (n + m) := by
  cases f with
  | primitive z => rfl
  | statusRead note busy z => rfl
  | timeout note busy =>
    rw [PollFailure.recovery, PollFailure.recovery, hparams, State.answerAt_congr hanswers hfree,
      State.answerAt_consumed]

theorem PollFailure.recovery_sends (s : State) (xs : List Exchange) (f : PollFailure) (m : Nat) :
    f.recovery (s.afterExchanges (s.sends xs)) m = f.recovery s ((xs.flatMap Exchange.answers).length + m) := by
  rw [State.afterExchanges_eq (s.sends_exchanges xs)]
  refine f.recovery_consumed ?_ ?_ ?_ m <;> rfl

/-- Settles O24: the bytes before it are exchanges, and the first one that fails ends the command. -/
theorem writeBytesStopsAtFirstFailure : Obligations.WriteBytesStopsAtFirstFailure := by
  intro s len xs f hlen h hx hf sd rst n
  obtain ⟨hsent, hfailed⟩ := State.Answers.append.1 h
  obtain ⟨m, hm⟩ : ∃ m, len.toNat = xs.length + (m + 1) := ⟨len.toNat - xs.length - 1, by omega⟩
  have hbody : writeBytesFrom (m + 1) xs.length (s.afterExchanges (s.sends xs)) =
      .fail f.cause ((s.afterExchanges (s.sends xs)).afterFailure (.wwb (s.bufAt xs.length)) f) := by
    rw [writeBytesFrom, doWriteByte_failure _ (State.sends_answers.2 hfailed) hf, Result.fail_bind]
    rfl
  rw [exec, execWrbytes, byteCount, hm, writeBytesFrom_sends _ hsent hx, hbody, runCommand_fail,
    State.afterFailure, PollFailure.recovery_sends, State.afterExchanges_eq (s.sends_exchanges xs)]
  simp only [n, Nat.add_assoc, ← State.consumed_consumed s]
  rfl

/-- Settles O27: the command byte and the eight bytes of `BUF` are one sequence of exchanges. -/
theorem selectCompletes : Obligations.SelectCompletes := by
  intro s x xs hlen h hx hxs
  obtain ⟨hcommand, hbytes⟩ := State.Answers.append.1 h
  obtain ⟨p, hp⟩ : ∃ p, p = Prim.wwb s.params.cmdSelectRom := ⟨_, rfl⟩
  have hanswers : (s.afterExchanges [(p, x)]).Answers (xs.flatMap Exchange.answers) := by
    rw [State.Answers.afterExchanges, exchangeAnswers_eq]
    simpa using hbytes
  have hsent : writeBytesFrom 8 0 (s.afterExchanges [(p, x)]) = .ok () (s.afterExchanges ((p, x) :: s.sends xs)) := by
    rw [← hlen]
    have := writeBytesFrom_sends 0 hanswers hxs
    exact this.trans (congrArg (Result.ok ()) (State.afterExchanges_append s [(p, x)] (s.sends xs)))
  have hall : ((p, x) :: s.sends xs).map (·.2) = x :: xs := by rw [List.map_cons, State.sends_exchanges]
  rw [exec, execSelect, doWriteByte_exchange _ hcommand hx, Result.ok_bind, ← hp, hsent, runCommand_ok,
    State.afterExchanges_eq hall, State.sends, hlen, List.flatMap_cons, List.length_append]
  have hlast (bit : Byte → Bool) (seen : Bool) :
      flagAfter bit seen ((x :: xs).map (·.poll.idle)) = flagAfter bit seen (xs.map (·.poll.idle)) := by
    cases xs with
    | nil => simp at hlen
    | cons y ys => simp
  rw [hlast, hlast]
  rfl

/-! ### Byte strings received (R113, R116) -/

/-- The answers of read-byte exchanges, each with the answer to its data read. -/
def receivedAnswers (xs : List (Exchange × Byte)) : List Answer := xs.flatMap fun x => x.1.answers ++ [yes x.2]

theorem receivedAnswers_cons (x : Exchange × Byte) (xs : List (Exchange × Byte)) :
    receivedAnswers (x :: xs) = receivedAnswers [x] ++ receivedAnswers xs := by
  simp [receivedAnswers]

theorem receivedAnswers_singleton (x : Exchange × Byte) : receivedAnswers [x] = x.1.answers ++ [yes x.2] := by
  simp [receivedAnswers]

/-- The state after the bytes of `xs` have been received into `BUF[k], BUF[k+1], ...`. -/
def State.afterReceived (s : State) (k : Nat) (xs : List (Exchange × Byte)) : State :=
  { s.consumed (receivedAnswers xs).length with
    sdSeen := flagAfter statusSD s.sdSeen (xs.map (·.1.poll.idle)),
    rstSeen := flagAfter statusRST s.rstSeen (xs.map (·.1.poll.idle)),
    trace := s.trace ++ readByteEvents s.cbEn s.sdSeen s.rstSeen xs,
    buf := (s.writeBufFrom k (xs.map (·.2))).buf }

@[simp] theorem State.afterReceived_nil (s : State) (k : Nat) : s.afterReceived k [] = s := by
  simp [State.afterReceived, receivedAnswers, readByteEvents, State.writeBufFrom]

theorem writeBufFrom_buf_congr {s u : State} (h : u.buf = s.buf) (k : Nat) (vs : List Byte) :
    (u.writeBufFrom k vs).buf = (s.writeBufFrom k vs).buf := by
  induction vs generalizing s u k with
  | nil => exact h
  | cons v vs ih => exact ih (by rw [State.writeBuf_buf, State.writeBuf_buf, h]) (k + 1)

theorem State.afterReceived_answers {s : State} {k : Nat} {xs : List (Exchange × Byte)} {as : List Answer} :
    (s.afterReceived k xs).Answers as ↔ (s.consumed (receivedAnswers xs).length).Answers as :=
  State.Answers.congr rfl rfl

/-- One byte received and stored. -/
theorem State.afterReceived_singleton (s : State) (k : Nat) (x : Exchange) (v : Byte) :
    ((s.afterExchanges [(.wrb, x)]).dropAnswer.emit (.data (some v))).writeBuf k v = s.afterReceived k [(x, v)] := by
  rw [State.afterExchange_dropAnswer]
  simp [State.afterReceived, receivedAnswers, readByteEvents, State.emit, State.writeBuf, State.writeBufFrom,
    State.consumed]

theorem State.afterReceived_cons (s : State) (k : Nat) (x : Exchange × Byte) (xs : List (Exchange × Byte)) :
    (s.afterReceived k [x]).afterReceived (k + 1) xs = s.afterReceived k (x :: xs) := by
  have hbuf := writeBufFrom_buf_congr (s := s.writeBuf k x.2) (u := s.afterReceived k [x]) rfl (k + 1) (xs.map (·.2))
  rw [State.afterReceived, hbuf]
  simp only [State.afterReceived, receivedAnswers_cons x xs, List.length_append, ← State.consumed_consumed, List.map_cons,
    flagAfter_cons, readByteEvents, State.writeBufFrom, List.append_assoc]
  simp [State.consumed]

/-- `xs.length` bytes received from `BUF[k]` upward, and `n` more to come. -/
theorem readBytesInto_received (xs : List (Exchange × Byte)) (n k : Nat) (s : State) (h : s.Answers (receivedAnswers xs))
    (hx : ∀ x ∈ xs, x.1.good s.params.pollMax = true) :
    readBytesInto (xs.length + n) k s = readBytesInto n (k + xs.length) (s.afterReceived k xs) := by
  induction xs generalizing k s with
  | nil => simp
  | cons x xs ih =>
    rw [receivedAnswers_cons, State.Answers.append] at h
    obtain ⟨hfirst, hrest⟩ := h
    rw [receivedAnswers_singleton] at hfirst
    have hlen : (x :: xs).length + n = (xs.length + n) + 1 := by simp; omega
    have hnext : (s.afterReceived k [x]).Answers (receivedAnswers xs) := State.afterReceived_answers.2 hrest
    rw [hlen, readBytesInto, doReadByte_exchange hfirst (hx x (by simp)), Result.ok_bind,
      State.afterReceived_singleton, ih (k + 1) _ hnext fun y hy => hx y (by simp [hy]), State.afterReceived_cons,
      List.length_cons, Nat.add_right_comm k, Nat.add_assoc k]

theorem State.afterReceived_bufAt (s : State) (xs : List (Exchange × Byte)) :
    (∀ k (h : k < xs.length), (s.afterReceived 0 xs).bufAt k = xs[k].2) ∧
      keepsBufFrom xs.length s (s.afterReceived 0 xs) := by
  have hread (k : Nat) := writeBufFrom_bufAt s 0 k (xs.map (·.2))
  refine ⟨fun k hk => (hread k).trans ?_, fun k hk => (hread k).trans ?_⟩
  · rw [dif_pos (by simpa using hk)]
    simp
  · rw [dif_neg (by simpa using hk)]

/-- Settles O25: every byte is an exchange with its data read, and none is left. -/
theorem readBytesCompletes : Obligations.ReadBytesCompletes := by
  intro s len xs hlen h hx
  have hbody : readBytesInto xs.length 0 s = .ok () (s.afterReceived 0 xs) := readBytesInto_received xs 0 0 s h hx
  obtain ⟨hbelow, habove⟩ := s.afterReceived_bufAt xs
  rw [← hlen]
  refine ⟨commandDone (s.afterReceived 0 xs), ?_, rfl, rfl, hbelow, habove, rfl, rfl, rfl, rfl, rfl, ⟨rfl, rfl, rfl⟩,
    ⟨rfl, rfl, rfl⟩, ⟨rfl, rfl, rfl, rfl⟩, rfl, rfl⟩
  rw [exec, execRdbytes, byteCount, ← hlen, hbody, runCommand_ok]

/-- The bytes `xs` received and the next one failed: RDBYTES' loop ends there (R116). -/
theorem readBytesInto_fails {s : State} {xs : List (Exchange × Byte)} {c : Cause} {t : State} {len : Nat}
    (hlen : xs.length < len) (h : s.Answers (receivedAnswers xs)) (hx : ∀ x ∈ xs, x.1.good s.params.pollMax = true)
    (hfail : doReadByte (s.afterReceived 0 xs) = .fail c t) : readBytesInto len 0 s = .fail c t := by
  obtain ⟨m, rfl⟩ : ∃ m, len = xs.length + (m + 1) := ⟨len - xs.length - 1, by omega⟩
  rw [readBytesInto_received xs (m + 1) 0 s h hx, readBytesInto, hfail, Result.fail_bind]

/-- Settles O26: the bytes before it are received, and the first one that fails ends the command, leaving `BUF` to them. -/
theorem readBytesStopsAtFirstFailure : Obligations.ReadBytesStopsAtFirstFailure := by
  intro s len xs as c es hlen h hx sd rst n hway
  obtain ⟨hreceived, hlast⟩ := State.Answers.append.1 h
  replace hlast := (State.afterReceived_answers (k := 0)).2 hlast
  have hstate : ∃ t, doReadByte (s.afterReceived 0 xs) = .fail c t ∧
      t.trace = s.trace ++ readByteEvents s.cbEn s.sdSeen s.rstSeen xs ++ es := by
    obtain ⟨f, hf, rfl, rfl, rfl⟩ | ⟨x, z, hgood, rfl, rfl, rfl⟩ := hway
    · have hrec : f.recovery (s.afterReceived 0 xs) f.answers.length = f.recovery s n := by
        refine f.recovery_consumed ?_ ?_ ?_ _ <;> rfl
      refine ⟨_, doReadByte_failure hlast hf, ?_⟩
      rw [State.afterFailure, hrec, ← List.append_assoc]
      rfl
    · refine ⟨_, doReadByte_dataDenied hlast hgood, ?_⟩
      rw [State.emit_trace, State.afterExchange_dropAnswer, ← List.append_assoc]
      rfl
  obtain ⟨t, hfail, htrace⟩ := hstate
  have same := doReadByte_frame (s.afterReceived 0 xs)
  rw [hfail] at same
  obtain ⟨hbelow, habove⟩ := s.afterReceived_bufAt xs
  have hbuf (k : Nat) : t.bufAt k = (s.afterReceived 0 xs).bufAt k := congrArg (Memory.read · k) same.buf
  refine ⟨raiseFail c t, ?_, rfl, rfl, fun k hk => (hbuf k).trans (hbelow k hk), fun k hk => (hbuf k).trans (habove k hk),
    same.data, htrace⟩
  rw [exec, execRdbytes, byteCount, readBytesInto_fails hlen hreceived hx hfail, runCommand_fail]

/-! ### RESET (R106, R107, R208) -/

/-- Settles O29: `DoReset` with positive answers ends in one state, and the presence bit picks the end of the command. -/
theorem resetCompletes : Obligations.ResetCompletes := by
  intro s x h hx
  rw [exec, execReset, doReset_exchange h hx, Result.ok_bind, statusPPD]
  cases x.pulse.poll.idle.getLsbD 1 <;> rfl

/-- The clearing write is denied: the one request, and nothing written (R106). -/
theorem clearSpu_fail {s t : State} {c : Cause} (hs : s.spu = true) (h : clearSpu s = .fail c t) :
    t = s.dropAnswer.emit (.prim (.wcfg s.apu false s.od) false) := by
  rw [clearSpu, if_pos hs, prim_eq] at h
  split_ifs at h <;> cases h
  rfl

/-- The restoring write is denied: strong pull-up stays as it was (R106). -/
theorem restoreSpu_fail_spu {b : Bool} {s t : State} {c : Cause} (h : restoreSpu b s = .fail c t) : t.spu = s.spu := by
  rw [restoreSpu, prim_eq] at h
  split_ifs at h <;> cases h
  rfl

/-- `DoReset` between the two configuration writes. -/
def resetPulse (s : State) : Result Byte :=
  (waitBusy s).bind fun _ s2 => (prim .wrs s2).bind fun _ s3 => waitBusy s3

theorem doReset_eq (s : State) :
    doReset s = (clearSpu s).bind fun _ s1 => (resetPulse s1).bind fun st s4 =>
      (restoreSpu s.spu s4).bind fun _ s5 => .ok (statusPPD st) s5 := by
  simp only [doReset, resetPulse, Result.bind_assoc]

theorem resetPulse_frame (s : State) : SameButPort s (resetPulse s).state :=
  Result.bind_state (waitBusy_frame s) fun _ s2 => Result.bind_state (prim_frame _ s2) fun _ s3 => waitBusy_frame s3

/-- A `DoReset` that fails with strong pull-up set: the clearing write was denied, or pull-up is left cleared. -/
theorem doReset_fail_spu {s t : State} {c : Cause} (hs : s.spu = true) (h : doReset s = .fail c t) :
    t.spu = false ∨ t = s.dropAnswer.emit (.prim (.wcfg s.apu false s.od) false) := by
  rw [doReset_eq] at h
  cases hclear : clearSpu s with
  | fail c1 s1 =>
    rw [hclear] at h
    cases h
    exact .inr (clearSpu_fail hs hclear)
  | ok _ s1 =>
    rw [hclear, Result.ok_bind] at h
    have hpulse := (resetPulse_frame s1).spu.trans (clearSpu_spu hclear)
    generalize resetPulse s1 = r at h hpulse
    cases r with
    | fail c2 s4 =>
      cases h
      exact .inl hpulse
    | ok st s4 =>
      rw [Result.ok_bind] at h
      cases hrestore : restoreSpu s.spu s4 with
      | fail c3 s5 =>
        rw [hrestore] at h
        cases h
        exact .inl ((restoreSpu_fail_spu hrestore).trans hpulse)
      | ok _ s5 =>
        rw [hrestore] at h
        cases h

/-- Settles O30: a RESET that fails for another reason than want of presence is a `DoReset` that fails. -/
theorem failedResetLeavesPullUpCleared : Obligations.FailedResetLeavesPullUpCleared := by
  intro s t hs ht hok hcause
  rw [exec, execReset] at ht
  cases hr : doReset s with
  | ok present u =>
    rw [hr, Result.ok_bind] at ht
    cases present <;> cases ht
    · exact absurd rfl hcause
    · cases hok
  | fail c u =>
    rw [hr] at ht
    cases ht
    obtain hcleared | rfl := doReset_fail_spu hs hr
    · exact .inl hcleared
    · exact .inr ⟨hs, newEvents_eq rfl⟩

end Sys2Proof.Machine

/-! PROOFS. What each command leaves unchanged, and what its trace shows of notifications, configuration writes and
requests. -/

namespace Sys2Proof.Machine

open Sys2Proof

/-! ### Notifications, the configuration shadow, the bounds (R102, R106, R117, R141) -/

@[simp] theorem runStart_sdSeen (i : Instr) (s : State) : (runStart i s).sdSeen = s.sdSeen := by cases i <;> rfl
@[simp] theorem runStart_rstSeen (i : Instr) (s : State) : (runStart i s).rstSeen = s.rstSeen := by cases i <;> rfl
@[simp] theorem runStart_apu (i : Instr) (s : State) : (runStart i s).apu = s.apu := by cases i <;> rfl
@[simp] theorem runStart_od (i : Instr) (s : State) : (runStart i s).od = s.od := by cases i <;> rfl
@[simp] theorem runStart_spu (i : Instr) (s : State) : (runStart i s).spu = s.spu := by cases i <;> rfl

/-- ATTACH adds no event; every other command starts its run with the enable as it finds it. -/
theorem newEvents_eq_nil_or_runStart_cbEn {i : Instr} {s t : State} (ht : exec i s = .next t) :
    newEvents s t = [] ∨ (runStart i s).cbEn = s.cbEn := by
  cases i with
  | attach b =>
    cases ht
    exact .inl (newEvents_eq (List.append_nil _).symm)
  | _ => exact .inr rfl

/-- Settles O44: a command's run says it, from the enable its run starts with. -/
theorem notificationsAreTheRisingEdges : Obligations.NotificationsAreTheRisingEdges := by
  intro i s t ht es
  have hrun := (exec_commandRun ht).run
  have hsd := hrun.sd
  have hrst := hrun.rst
  have hnotices := hrun.notices
  rw [runStart_sdSeen] at hsd hnotices
  rw [runStart_rstSeen] at hrst hnotices
  refine ⟨?_, hsd, hrst⟩
  obtain hnone | hcb := newEvents_eq_nil_or_runStart_cbEn ht
  · simp [es, hnone, insertNotices]
  · rwa [hcb] at hnotices

/-- Settles O47: a command's run moves the shadow with each accepted write, and writes `APU` and `OD` as they are. -/
theorem shadowFollowsAcceptedConfigurations : Obligations.ShadowFollowsAcceptedConfigurations := by
  intro i s t ht
  have hrun := (exec_commandRun ht).run
  have hspu := hrun.spu
  have hcfgs := hrun.cfgs
  rw [runStart_spu] at hspu
  rw [runStart_apu, runStart_od] at hcfgs
  exact ⟨hspu, hcfgs⟩

/-- Settles O49: the cost of a command's run. -/
theorem commandsAreBounded : Obligations.CommandsAreBounded := by
  intro i s t ht
  obtain ⟨hprims, hreads, hresets⟩ := (exec_commandRun ht).cost
  exact ⟨hprims, hreads, hresets⟩

/-! ### Frames of the commands -/

theorem SameButPort.keeps {s t : State} (h : SameButPort s t) :
    keepsCfg s t ∧ keepsSearch s t ∧ keepsHostSide s t ∧ t.resBit = s.resBit ∧ t.data = s.data ∧ keepsBufFrom 0 s t :=
  ⟨⟨h.apu, h.spu, h.od⟩, ⟨h.rom, h.ld, h.ldf⟩, ⟨h.cbEn, h.params, h.host, h.hostOut⟩, h.resBit, h.data,
    fun k _ => congrArg (Memory.read · k) h.buf⟩

/-- A body that touches the port alone, and the end of the command: all but the result is kept. -/
theorem endCommand_keeps {s : State} {r : Result Unit} (h : SameButPort s r.state) :
    let t := endCommand r
    keepsCfg s t ∧ keepsSearch s t ∧ keepsHostSide s t ∧ t.resBit = s.resBit ∧ t.data = s.data ∧ keepsBufFrom 0 s t := by
  cases r <;> exact h.keeps

/-- The body of a sending command touches the port alone. -/
theorem exec_sending_frame {i : Instr} {b : Bool} {v len : Byte}
    (hi : i ∈ [Instr.wrbit b, .wrbyte v, .wrbytes len, .skip, .select]) (s : State) :
    ∃ r, exec i s = runCommand r ∧ SameButPort s r.state := by
  simp only [List.mem_cons, List.not_mem_nil, or_false] at hi
  obtain rfl | rfl | rfl | rfl | rfl := hi
  · exact ⟨_, rfl, Result.bind_state (doBit_frame b s) fun _ t => .refl t⟩
  · exact ⟨_, rfl, doWriteByte_frame v s⟩
  · exact ⟨_, rfl, writeBytesFrom_frame _ 0 s⟩
  · exact ⟨_, rfl, doWriteByte_frame _ s⟩
  · exact ⟨_, rfl, Result.bind_state (doWriteByte_frame _ s) fun _ t => writeBytesFrom_frame 8 0 t⟩

/-- Settles O52: their bodies touch the port alone, and the end of the command writes the result. -/
theorem sendingCommandsFrame : Obligations.SendingCommandsFrame := by
  rintro i s t ⟨b, v, len, hi⟩ ht
  obtain ⟨r, hr, hframe⟩ := exec_sending_frame hi s
  rw [eq_endCommand hr ht]
  exact endCommand_keeps hframe

/-- A body that touches the port alone, its value then put in `RES.BIT` or `DATA`. -/
theorem storeResult_frame {α : Type} {s t : State} {r : Result α} {store : State → α → State}
    (hstore : ∀ u a, store u a = { u with resBit := (store u a).resBit, data := (store u a).data })
    (hframe : SameButPort s r.state) (ht : runCommand (r.bind fun a u => .ok () (store u a)) = .next t) :
    keepsCfg s t ∧ keepsSearch s t ∧ keepsHostSide s t ∧ keepsBufFrom 0 s t := by
  obtain ⟨hcfg, hsearch, hhost, -, -, hbuf⟩ := hframe.keeps
  cases r with
  | ok a u =>
    rw [Result.ok_bind, hstore] at ht
    cases ht
    exact ⟨hcfg, hsearch, hhost, hbuf⟩
  | fail c u =>
    cases ht
    exact ⟨hcfg, hsearch, hhost, hbuf⟩

theorem exec_rdbytes_frame {len : Byte} {s t : State} (ht : exec (.rdbytes len) s = .next t) :
    keepsCfg s t ∧ keepsSearch s t ∧ keepsHostSide s t ∧ t.resBit = s.resBit ∧ t.data = s.data ∧
      keepsBufFrom len.toNat s t := by
  obtain ⟨hrest, hbuf⟩ := readBytesInto_frame (byteCount len) 0 s
  rw [exec, execRdbytes] at ht
  generalize readBytesInto (byteCount len) 0 s = r at ht hrest hbuf
  have habove : keepsBufFrom len.toNat s r.state := fun k hk => hbuf k (.inr (by rwa [Nat.zero_add]))
  obtain ⟨hcfg, hsearch, hhost, hbit, hdata, -⟩ := hrest.keeps
  cases r <;> cases ht <;> exact ⟨hcfg, hsearch, hhost, hbit, hdata, habove⟩

/-- Settles O53: what the bodies keep, and what the result registers say of the failures (R31). -/
theorem receivingCommandsFrame : Obligations.ReceivingCommandsFrame := by
  refine fun s t => ⟨fun ht => ?_, fun ht => ?_, fun len ht => exec_rdbytes_frame ht⟩
  · obtain ⟨hcfg, hsearch, hhost, hbuf⟩ :=
      storeResult_frame (store := State.setResBit) (fun _ _ => rfl) (doBit_frame true s) ht
    obtain ⟨hbit, hdata⟩ := exec_rdbit_results ht
    exact ⟨hcfg, hsearch, hhost, hdata, hbuf, fun hno => hbit.resolve_right (by simp [hno])⟩
  · obtain ⟨hcfg, hsearch, hhost, hbuf⟩ :=
      storeResult_frame (store := State.setData) (fun _ _ => rfl) (doReadByte_frame s) ht
    obtain ⟨hbit, hdata⟩ := exec_rdbyte_results ht
    exact ⟨hcfg, hsearch, hhost, hbit, hbuf, fun hno => hdata.resolve_right (by simp [hno])⟩

theorem exec_reset_frame {s t : State} (ht : exec .reset s = .next t) :
    t.apu = s.apu ∧ t.od = s.od ∧ keepsSearch s t ∧ keepsHostSide s t ∧ t.resBit = s.resBit ∧ t.data = s.data ∧
      keepsBufFrom 0 s t := by
  have hframe := doReset_frame s
  rw [exec, execReset] at ht
  generalize doReset s = r at ht hframe
  obtain ⟨⟨hapu, -, hod⟩, hsearch, hhost, hbit, hdata, hbuf⟩ := hframe.keeps
  cases r with
  | ok present u => cases present <;> cases ht <;> exact ⟨hapu, hod, hsearch, hhost, hbit, hdata, hbuf⟩
  | fail c u => cases ht; exact ⟨hapu, hod, hsearch, hhost, hbit, hdata, hbuf⟩

/-- What a whole SEARCH keeps: its steps 2 to 5, and of `BUF` the bytes past the address delivered (R137). -/
structure SameButDelivered (s t : State) : Prop where
  rest  : SameButSearch s { t with buf := s.buf }
  bytes : keepsBufFrom 8 s t

theorem SameButSearch.delivered {s t u : State} (h : SameButSearch s t) (g : SameButDelivered t u) :
    SameButDelivered s u where
  rest := { h.trans g.rest with buf := rfl }
  bytes := fun k hk => (g.bytes k hk).trans (congrArg (Memory.read · k) h.buf)

theorem SameButDelivered.refl (s : State) : SameButDelivered s s := ⟨.refl s, fun _ _ => rfl⟩

theorem Result.bind_delivered {α β : Type} {s : State} {r : Result α} {f : α → State → Result β}
    (h : SameButSearch s r.state) (hf : ∀ x t, SameButDelivered t (f x t).state) :
    SameButDelivered s (r.bind f).state := by
  cases r with
  | ok x t => exact h.delivered (hf x t)
  | fail c t => exact h.delivered (.refl t)

theorem searchDeliver_frame (s : State) : SameButDelivered s (searchDeliver s).state := by
  unfold searchDeliver
  split_ifs
  · refine ⟨?_, fun k hk => ?_⟩
    · rw [Result.state, writeBufFrom_eq]
      exact .refl s
    · rw [Result.state, writeBufFrom_bufAt, dif_neg (by simp; omega)]
  · exact .refl s

/-- Step 5 writes the search state alone (R135). -/
theorem searchProgress_frame (lz : BitVec 7) (s : State) : SameButSearch s (searchProgress lz s) :=
  ⟨rfl, rfl, rfl, rfl, rfl, rfl, rfl, rfl, rfl, rfl, rfl⟩

theorem exec_search_frame (s : State) : ∃ r, exec .search s = runCommand r ∧ SameButDelivered s r.state := by
  refine ⟨_, rfl, ?_⟩
  split_ifs
  · exact .refl s
  · exact Result.bind_delivered (searchPresence_frame s) fun _ s1 =>
      Result.bind_delivered (doWriteByte_frame _ s1).search fun _ s2 =>
      Result.bind_delivered (searchFrom_frame 64 0 0 s2) fun lz s3 =>
      (searchProgress_frame lz s3).delivered (searchDeliver_frame _)

/-- Settles O54: RESET's body is `DoReset`, SEARCH's its steps in order, of which only the last writes `BUF`. -/
theorem resettingCommandsFrame : Obligations.ResettingCommandsFrame := by
  refine fun s t => ⟨exec_reset_frame, fun ht => ?_⟩
  obtain ⟨r, hr, hrest, hbytes⟩ := exec_search_frame s
  rw [eq_endCommand hr ht]
  cases r <;>
    exact ⟨hrest.apu, hrest.od, ⟨hrest.cbEn, hrest.params, hrest.host, hrest.hostOut⟩, hrest.resBit, hrest.data, hbytes⟩

end Sys2Proof.Machine

/-! PROOFS. How a command ends: the causes its body can fail with, and that each is told by what the trace reports of the
1-Wire reset and of the triplets. -/

namespace Sys2Proof.Machine

open Sys2Proof

/-! ### The causes a procedure can fail with (R177) -/

/-- The failure a procedure ended in, if it did. -/
def Result.failure? {α : Type} : Result α → Option Cause
  | .ok _ _ => none
  | .fail c _ => some c

@[simp] theorem Result.failure?_ok {α : Type} (a : α) (s : State) : (Result.ok a s).failure? = none := rfl

@[simp] theorem Result.failure?_fail {α : Type} (c : Cause) (s : State) :
    (Result.fail c s : Result α).failure? = some c := rfl

theorem Cause.code_inj {c d : Cause} : c.code = d.code ↔ c = d := by
  refine ⟨fun h => ?_, congrArg Cause.code⟩
  cases c <;> cases d <;> simp_all [Cause.code]

/-- `CAUSE` is the failure's code, and NONE where there is none (R12). -/
theorem endCommand_cause_iff {r : Result Unit} {c : Cause} : (endCommand r).cause = c.code ↔ r.failure? = some c := by
  cases r with
  | ok _ s => exact ⟨fun h => absurd h.symm (code_ne_causeNone c), fun h => (by cases h)⟩
  | fail d s => exact Cause.code_inj.trans Option.some_inj.symm

/-- A failure of the procedure result is one that `p` lets it be. -/
def FailsWith {α : Type} (p : Cause → Prop) (r : Result α) : Prop := ∀ c, r.failure? = some c → p c

/-- `p` lets a procedure of the downstream port fail: with TRANSPORT or BUSY_TIMEOUT (R100, R101). -/
structure PortCauses (p : Cause → Prop) : Prop where
  transport   : p .transport
  busyTimeout : p .busyTimeout

section
variable {p : Cause → Prop}

theorem FailsWith.ok {α : Type} (a : α) (s : State) : FailsWith p (.ok a s) := fun _ h => by cases h

theorem FailsWith.fail {α : Type} {c : Cause} (s : State) (h : p c) : FailsWith (α := α) p (.fail c s) := by
  rintro _ ⟨⟩
  exact h

theorem FailsWith.bind {α β : Type} {r : Result α} {f : α → State → Result β} (h : FailsWith p r)
    (hf : ∀ a t, FailsWith p (f a t)) : FailsWith p (r.bind f) := by
  cases r with
  | ok a t => exact hf a t
  | fail c t => exact .fail t (h c rfl)

theorem FailsWith.prim (hp : PortCauses p) (q : Prim) (s : State) : FailsWith p (Machine.prim q s) := by
  rw [prim_eq]
  split_ifs
  · exact .ok () _
  · exact .fail _ hp.transport

theorem FailsWith.readData (hp : PortCauses p) (s : State) : FailsWith p (Machine.readData s) := by
  unfold Machine.readData
  split_ifs
  · exact .ok _ _
  · exact .fail _ hp.transport

theorem FailsWith.waitBusy (hp : PortCauses p) (s : State) : FailsWith p (Machine.waitBusy s) := by
  have out := waitBusy_outcome s
  generalize Machine.waitBusy s = r at out
  cases out with
  | idle => exact .ok _ _
  | timeout => exact .fail _ hp.busyTimeout
  | denied => exact .fail _ hp.transport

theorem FailsWith.doBit (hp : PortCauses p) (b : Bool) (s : State) : FailsWith p (Machine.doBit b s) :=
  (FailsWith.prim hp _ s).bind fun _ t => (FailsWith.waitBusy hp t).bind fun _ _ => .ok _ _

theorem FailsWith.doWriteByte (hp : PortCauses p) (v : Byte) (s : State) : FailsWith p (Machine.doWriteByte v s) :=
  (FailsWith.prim hp _ s).bind fun _ t => (FailsWith.waitBusy hp t).bind fun _ _ => .ok _ _

theorem FailsWith.doReadByte (hp : PortCauses p) (s : State) : FailsWith p (Machine.doReadByte s) :=
  (FailsWith.prim hp _ s).bind fun _ t => (FailsWith.waitBusy hp t).bind fun _ u => .readData hp u

theorem FailsWith.writeBytesFrom (hp : PortCauses p) (n k : Nat) (s : State) :
    FailsWith p (Machine.writeBytesFrom n k s) := by
  induction n generalizing k s with
  | zero => exact .ok () s
  | succ n ih => exact (FailsWith.doWriteByte hp _ s).bind fun _ t => ih (k + 1) t

theorem FailsWith.readBytesInto (hp : PortCauses p) (n k : Nat) (s : State) :
    FailsWith p (Machine.readBytesInto n k s) := by
  induction n generalizing k s with
  | zero => exact .ok () s
  | succ n ih => exact (FailsWith.doReadByte hp s).bind fun v t => ih (k + 1) (t.writeBuf k v)

theorem FailsWith.clearSpu (hp : PortCauses p) (s : State) : FailsWith p (Machine.clearSpu s) := by
  unfold Machine.clearSpu
  split_ifs
  · exact (FailsWith.prim hp _ s).bind fun _ _ => .ok _ _
  · exact .ok () s

theorem FailsWith.restoreSpu (hp : PortCauses p) (b : Bool) (s : State) : FailsWith p (Machine.restoreSpu b s) := by
  unfold Machine.restoreSpu
  split_ifs
  · exact (FailsWith.prim hp _ s).bind fun _ _ => .ok _ _
  · exact .ok () s

theorem FailsWith.doReset (hp : PortCauses p) (s : State) : FailsWith p (Machine.doReset s) :=
  (FailsWith.clearSpu hp s).bind fun _ s1 => (FailsWith.waitBusy hp s1).bind fun _ s2 =>
  (FailsWith.prim hp _ s2).bind fun _ s3 => (FailsWith.waitBusy hp s3).bind fun _ s4 =>
  (FailsWith.restoreSpu hp _ s4).bind fun _ _ => .ok _ _

theorem FailsWith.searchFrom (hp : PortCauses p) (hcollision : p .collision) (s : State) :
    FailsWith p (Machine.searchFrom 64 0 0 s) := by
  have out := searchFrom_outcome 64 0 0 s (by omega)
  generalize Machine.searchFrom 64 0 0 s = r at out
  cases out with
  | failed c t es sts hc => exact .fail _ (by obtain rfl | rfl := hc; exacts [hp.transport, hp.busyTimeout])
  | collision => exact .fail _ hcollision
  | stored => exact .ok _ _

theorem FailsWith.searchDeliver (hchecksum : p .checksum) (s : State) : FailsWith p (Machine.searchDeliver s) := by
  unfold Machine.searchDeliver
  split_ifs
  · exact .ok _ _
  · exact .fail _ hchecksum

end

/-! ### RESET and SEARCH in their parts (R107, R130) -/

/-- RESET's body (R107). -/
def resetBody (s : State) : Result Unit :=
  (doReset s).bind fun present t => if present then .ok () t else .fail .noPresence t

/-- SEARCH's steps 4 to 7 (R133 to R137). -/
def searchScan (s : State) : Result Unit := (searchFrom 64 0 0 s).bind fun lz t => searchDeliver (searchProgress lz t)

/-- SEARCH's steps 3 to 7, after the reset (R132). -/
def searchAfterReset (s : State) : Result Unit := (doWriteByte s.params.cmdSearchRom s).bind fun _ t => searchScan t

theorem exec_search_terminal {s : State} (h : s.ldf = true) : exec .search s = runCommand (.fail .noMoreDevices s) := by
  rw [exec, execSearch, if_pos h]

theorem exec_search_eq {s : State} (h : s.ldf = false) :
    exec .search s = runCommand ((searchPresence s).bind fun _ t => searchAfterReset t) := by
  rw [exec, execSearch, if_neg (by simp [h])]
  rfl

/-- SEARCH's step 2 is RESET's body, its search state cleared where that fails (R131). -/
theorem searchPresence_cases (s : State) :
    (∃ t, resetBody s = .ok () t ∧ searchPresence s = .ok () t) ∨
      ∃ c t, resetBody s = .fail c t ∧ searchPresence s = .fail c t.resetSearch := by
  unfold resetBody searchPresence
  cases doReset s with
  | ok present t =>
    cases present with
    | true => exact .inl ⟨t, rfl, rfl⟩
    | false => exact .inr ⟨_, t, rfl, rfl⟩
  | fail c t => exact .inr ⟨c, t, rfl, rfl⟩

section
variable {p : Cause → Prop}

theorem FailsWith.resetBody (hp : PortCauses p) (hpresence : p .noPresence) (s : State) :
    FailsWith p (Machine.resetBody s) :=
  (FailsWith.doReset hp s).bind fun present t => by
    cases present with
    | true => exact .ok () t
    | false => exact .fail t hpresence

theorem FailsWith.searchPresence (hp : PortCauses p) (hpresence : p .noPresence) (s : State) :
    FailsWith p (Machine.searchPresence s) := by
  have hreset := FailsWith.resetBody hp hpresence s
  obtain ⟨t, -, hs⟩ | ⟨c, t, hr, hs⟩ := searchPresence_cases s
  · exact hs ▸ .ok () t
  · rw [hr] at hreset
    exact hs ▸ .fail _ (hreset c rfl)

theorem FailsWith.searchAfterReset (hp : PortCauses p) (hcollision : p .collision) (hchecksum : p .checksum) (s : State) :
    FailsWith p (Machine.searchAfterReset s) :=
  (FailsWith.doWriteByte hp _ s).bind fun _ t => (FailsWith.searchFrom hp hcollision t).bind fun _ _ =>
    .searchDeliver hchecksum _

end

/-- The failures of R177's table, and ILLEGAL_COMMAND for the ill-formed term VERIFY 0 (log 8). -/
def mayFailWith (i : Instr) (c : Cause) : Prop :=
  c.code ∈ possibleCauses i ∨ (i.wellFormed = false ∧ c = .illegalCommand)

/-- A command that polls may fail as a poll does. -/
theorem portCauses_of_polls {i : Instr} (h : pollBound i ≠ 0) : PortCauses (mayFailWith i) := by
  suffices hports : Cause.transport.code ∈ possibleCauses i ∧ Cause.busyTimeout.code ∈ possibleCauses i from
    ⟨.inl hports.1, .inl hports.2⟩
  cases i with
  | rdbytes len | wrbytes len =>
    have hlen : len ≠ 0 := by
      rintro rfl
      exact h rfl
    rw [possibleCauses, if_neg hlen]
    decide
  | rstsrch | attach | crc8 | verify => exact absurd rfl h
  | _ => simp [possibleCauses]

theorem exec_failsWith (i : Instr) (s : State) : ∃ r, exec i s = runCommand r ∧ FailsWith (mayFailWith i) r := by
  have polls := @portCauses_of_polls i
  cases i with
  | reset => exact ⟨_, rfl, .resetBody (polls (by decide)) (.inl (by decide)) s⟩
  | rdbit => exact ⟨_, rfl, (FailsWith.doBit (polls (by decide)) _ s).bind fun _ _ => .ok _ _⟩
  | wrbit b => exact ⟨_, rfl, (FailsWith.doBit (polls Nat.one_ne_zero) _ s).bind fun _ _ => .ok _ _⟩
  | rdbyte => exact ⟨_, rfl, (FailsWith.doReadByte (polls (by decide)) s).bind fun _ _ => .ok _ _⟩
  | wrbyte v => exact ⟨_, rfl, .doWriteByte (polls Nat.one_ne_zero) _ s⟩
  | rdbytes len =>
    refine ⟨_, rfl, ?_⟩
    by_cases hlen : byteCount len = 0
    · rw [hlen]
      exact .ok () s
    · exact .readBytesInto (polls hlen) _ 0 s
  | wrbytes len =>
    refine ⟨_, rfl, ?_⟩
    by_cases hlen : byteCount len = 0
    · rw [hlen]
      exact .ok () s
    · exact .writeBytesFrom (polls hlen) _ 0 s
  | skip => exact ⟨_, rfl, .doWriteByte (polls (by decide)) _ s⟩
  | select =>
    have hp := polls (by decide)
    exact ⟨_, rfl, (FailsWith.doWriteByte hp _ s).bind fun _ t => .writeBytesFrom hp 8 0 t⟩
  | search =>
    have hp := polls (by decide)
    cases hldf : s.ldf with
    | true => exact ⟨_, exec_search_terminal hldf, .fail s (.inl (by decide))⟩
    | false =>
      exact ⟨_, exec_search_eq hldf, (FailsWith.searchPresence hp (.inl (by decide)) s).bind fun _ t =>
        .searchAfterReset hp (.inl (by decide)) (.inl (by decide)) t⟩
  | rstsrch => exact ⟨_, rfl, .ok _ _⟩
  | attach b => exact ⟨_, rfl, .ok _ _⟩
  | crc8 len => exact ⟨_, rfl, .ok _ _⟩
  | verify len =>
    refine ⟨_, rfl, ?_⟩
    split_ifs with hlen
    · exact .fail s (.inr ⟨by simp [Instr.wellFormed, hlen], rfl⟩)
    · exact .ok () s
    · exact .fail s (.inl (by simp [possibleCauses]))

theorem causeNone_possible (i : Instr) : causeNone ∈ possibleCauses i := by
  cases i with
  | rdbytes len | wrbytes len =>
    rw [possibleCauses]
    split_ifs <;> decide
  | _ => simp [possibleCauses]

/-- R177, the ill-formed term apart. -/
theorem exec_cause_possible {i : Instr} {s t : State} (ht : exec i s = .next t) :
    t.cause ∈ possibleCauses i ∨ (i.wellFormed = false ∧ t.cause = Cause.illegalCommand.code) := by
  obtain ⟨r, hr, hfails⟩ := exec_failsWith i s
  rw [eq_endCommand hr ht]
  cases r with
  | ok _ u => exact .inl (causeNone_possible i)
  | fail c u => exact (hfails c rfl).imp_right fun h => ⟨h.1, congrArg Cause.code h.2⟩

/-! ### What a procedure reports of the primitives that `picks` picks (R87, R106, R134) -/

/-- The events of the procedure result `r`, started in `s`, report `bytes`, and at success no poll is left open. -/
def Reports {α : Type} (picks : Event → Bool) (s : State) (bytes : List Byte) : Result α → Prop
  | .ok _ t => ∃ es, t.trace = s.trace ++ es ∧
      ∀ rest, idleBytes picks false (es ++ rest) = bytes ++ idleBytes picks false rest
  | .fail _ t => ∃ es, t.trace = s.trace ++ es ∧ idleBytes picks false es = bytes

section
variable {α β : Type} {picks : Event → Bool}

theorem Without.reports {s : State} {r : Result α} (h : Without picks s r) : Reports picks s [] r := by
  obtain ⟨es, htrace, hno⟩ := h
  cases r with
  | ok a t => exact ⟨es, htrace, fun rest => idleBytes_append_noPick es rest hno⟩
  | fail c t => exact ⟨es, htrace, idleBytes_noPick hno⟩

/-- What the first procedure reports, then what the second does. -/
theorem Reports.append {s t : State} {as bs : List Byte} {a : α} {r : Result β}
    (h : Reports picks s as (.ok a t : Result α)) (g : Reports picks t bs r) : Reports picks s (as ++ bs) r := by
  obtain ⟨es, htrace, hrep⟩ := h
  cases r with
  | ok b u =>
    obtain ⟨es', htrace', hrep'⟩ := g
    exact ⟨es ++ es', by rw [htrace', htrace, List.append_assoc], fun rest => by
      rw [List.append_assoc, hrep, hrep', List.append_assoc]⟩
  | fail c u =>
    obtain ⟨es', htrace', hrep'⟩ := g
    exact ⟨es ++ es', by rw [htrace', htrace, List.append_assoc], by rw [hrep, hrep']⟩

theorem Reports.newEvents {s : State} {bytes : List Byte} {r : Result Unit} (h : Reports picks s bytes r) :
    idleBytes picks false (newEvents s (endCommand r)) = bytes := by
  cases r with
  | ok u t =>
    obtain ⟨es, htrace, hrep⟩ := h
    rw [newEvents_eq (t := endCommand (.ok u t)) htrace]
    simpa [idleBytes] using hrep []
  | fail c t =>
    obtain ⟨es, htrace, hrep⟩ := h
    rw [newEvents_eq (t := endCommand (.fail c t)) htrace, hrep]

end

/-- A command other than SEARCH reports nothing of what `picks` picks, if that is not among the primitives it issues. -/
theorem exec_without {picks : Event → Bool} (hq : PicksPrims picks) (hbit : ∀ b ok, picks (.prim (.wsb b) ok) = false)
    (hwrite : ∀ v ok, picks (.prim (.wwb v) ok) = false) (hread : ∀ ok, picks (.prim .wrb ok) = false) {i : Instr}
    (hsearch : i ≠ .search) {s : State} (hreset : i = .reset → Without picks s (doReset s)) :
    ∃ r, exec i s = runCommand r ∧ Without picks s r := by
  cases i with
  | reset =>
    refine ⟨_, rfl, (hreset rfl).bind fun present t => ?_⟩
    cases present with
    | true => exact .ok () rfl
    | false => exact .fail _ rfl
  | rdbit => exact ⟨_, rfl, (Without.doBit hq s (hbit _)).bind fun _ _ => .ok _ rfl⟩
  | wrbit b => exact ⟨_, rfl, (Without.doBit hq s (hbit _)).bind fun _ _ => .ok _ rfl⟩
  | rdbyte => exact ⟨_, rfl, (Without.doReadByte hq s hread).bind fun _ _ => .ok _ rfl⟩
  | wrbyte v => exact ⟨_, rfl, .doWriteByte hq s (hwrite _)⟩
  | rdbytes len => exact ⟨_, rfl, .readBytesInto hq hread _ 0 s⟩
  | wrbytes len => exact ⟨_, rfl, .writeBytesFrom hq hwrite _ 0 s⟩
  | skip => exact ⟨_, rfl, .doWriteByte hq s (hwrite _)⟩
  | select =>
    exact ⟨_, rfl, (Without.doWriteByte hq s (hwrite _)).bind fun _ t => .writeBytesFrom hq hwrite 8 0 t⟩
  | search => exact absurd rfl hsearch
  | rstsrch => exact ⟨_, rfl, .ok _ rfl⟩
  | attach b => exact ⟨_, rfl, .ok _ rfl⟩
  | crc8 len => exact ⟨_, rfl, .ok _ rfl⟩
  | verify len =>
    refine ⟨_, rfl, ?_⟩
    split_ifs
    · exact .fail _ rfl
    · exact .ok _ rfl
    · exact .fail _ rfl

theorem tripletBytes_of_not_search {i : Instr} {s t : State} (hi : i ≠ .search) (ht : exec i s = .next t) :
    tripletBytes false (newEvents s t) = [] := by
  obtain ⟨r, hr, hwithout⟩ := exec_without picksPrims_triplet (fun _ _ => rfl) (fun _ _ => rfl) (fun _ => rfl) hi
    fun _ => .doReset picksPrims_triplet s (fun _ _ _ _ => rfl) fun _ => rfl
  rw [eq_endCommand hr ht]
  exact hwithout.reports.newEvents

theorem pulseBytes_of_no_pulse {i : Instr} {s t : State} (hsearch : i ≠ .search) (hreset : i ≠ .reset)
    (ht : exec i s = .next t) : pulseBytes false (newEvents s t) = [] := by
  obtain ⟨r, hr, hwithout⟩ := exec_without picksPrims_pulse (fun _ _ => rfl) (fun _ _ => rfl) (fun _ => rfl) hsearch
    fun h => absurd h hreset
  rw [eq_endCommand hr ht]
  exact hwithout.reports.newEvents

/-! ### The presence bit decides NO_PRESENCE (R107, R131) -/

/-- What the result `r` says of the bytes its 1-Wire reset reported: NO_PRESENCE comes of one without PPD, and any other
end but TRANSPORT of none such. -/
structure TellsPresence {α : Type} (s : State) (r : Result α) (pulses : List Byte) : Prop where
  reports : Reports Event.isPulse s pulses r
  absent  : r.failure? = some .noPresence → ∃ st ∈ pulses, statusPPD st = false
  present : r.failure? ≠ some .noPresence → r.failure? ≠ some .transport → ∀ st ∈ pulses, statusPPD st = true

theorem resetBody_tells (s : State) : ∃ pulses, TellsPresence s (resetBody s) pulses := by
  have hport : FailsWith (· ≠ .noPresence) (doReset s) := .doReset ⟨by decide, by decide⟩ s
  have hreport := doReset_report s
  unfold resetBody
  generalize doReset s = r at hport hreport
  cases hreport with
  | reported st t es trace pulse =>
    rw [Result.ok_bind]
    cases hst : statusPPD st with
    | true => exact ⟨[st], ⟨es, trace, pulse⟩, fun h => (by cases h), fun _ _ => by simpa using hst⟩
    | false =>
      exact ⟨[st], ⟨es, trace, by simpa [pulseBytes, idleBytes] using pulse []⟩, fun _ => by simpa using hst,
        fun h => absurd rfl h⟩
  | failed c t es trace pulse =>
    refine ⟨pulseBytes false es, ⟨es, trace, rfl⟩, fun h => absurd (Option.some.inj h) (hport c rfl), fun _ htr => ?_⟩
    rw [pulse.resolve_right fun hc => htr (congrArg some hc)]
    simp

/-- The end of a command body, by what its reset reported. -/
theorem TellsPresence.noPresence_iff {s : State} {r : Result Unit} {pulses : List Byte} (h : TellsPresence s r pulses) :
    r.failure? = some .noPresence ↔ (∃ st ∈ pulses, statusPPD st = false) ∧ r.failure? ≠ some .transport := by
  refine ⟨fun hr => ⟨h.absent hr, by simp [hr]⟩, fun ⟨⟨st, hst, hppd⟩, htr⟩ => ?_⟩
  by_contra hr
  exact absurd (h.present hr htr st hst) (by simp [hppd])

theorem Without.searchDeliver {picks : Event → Bool} (lz : BitVec 7) (s : State) :
    Without picks s (Machine.searchDeliver (searchProgress lz s)) := by
  unfold Machine.searchDeliver
  split_ifs
  · exact .ok _ (by rw [writeBufFrom_eq]; rfl)
  · exact .fail _ rfl

theorem Without.searchAfterReset {picks : Event → Bool} (hq : PicksPrims picks)
    (hwrite : ∀ v ok, picks (.prim (.wwb v) ok) = false) (htriplet : ∀ d ok, picks (.prim (.wt d) ok) = false) (s : State) :
    Without picks s (Machine.searchAfterReset s) :=
  (Without.doWriteByte hq s (hwrite _)).bind fun _ t =>
    (Without.searchFrom hq htriplet 64 0 0 t).bind fun lz u => .searchDeliver lz u

/-- SEARCH's presence is RESET's: nothing after its reset issues another one. -/
theorem search_tellsPresence (s : State) :
    ∃ pulses, TellsPresence s ((searchPresence s).bind fun _ t => searchAfterReset t) pulses := by
  obtain ⟨pulses, hreports, habsent, hpresent⟩ := resetBody_tells s
  refine ⟨pulses, ?_⟩
  obtain ⟨t, hr, hs⟩ | ⟨c, t, hr, hs⟩ := searchPresence_cases s
  · rw [hr] at hreports hpresent
    have hfails : FailsWith (· ≠ .noPresence) (searchAfterReset t) :=
      .searchAfterReset ⟨by decide, by decide⟩ (by decide) (by decide) t
    have hafter : Without Event.isPulse t (searchAfterReset t) :=
      .searchAfterReset picksPrims_pulse (fun _ _ => rfl) (fun _ _ => rfl) t
    rw [hs, Result.ok_bind]
    exact ⟨by simpa using hreports.append hafter.reports, fun h => absurd rfl (hfails _ h),
      fun _ _ => hpresent (by simp) (by simp)⟩
  · rw [hr] at hreports habsent hpresent
    rw [hs, Result.fail_bind]
    exact ⟨hreports, habsent, hpresent⟩

/-! ### The triplets decide COLLISION and CHECKSUM (R134, R136) -/

/-- The result `r` of a part of SEARCH is told by the bytes its triplets reported and the address it leaves. -/
structure TellsTriplets (s : State) (r : Result Unit) (sts : List Byte) : Prop where
  reports   : Reports Event.isTriplet s sts r
  collision : r.failure? = some .collision ↔ sts.any tripletCollision = true
  checksum  : r.failure? = some .checksum ↔
    sts.length = 64 ∧ sts.any tripletCollision = false ∧ crc8 (r.state.rom.toList.take 7) ≠ r.state.rom[7]

theorem any_tripletCollision_eq_false {sts : List Byte} (h : ∀ st ∈ sts, tripletCollision st = false) :
    sts.any tripletCollision = false := by
  simpa using h

theorem searchDeliver_rom (s : State) : (searchDeliver s).state.rom = s.rom := by
  unfold searchDeliver
  split_ifs
  · have hkept := congrArg State.rom (writeBufFrom_eq s 0 s.rom.toList)
    exact hkept
  · rfl

theorem searchDeliver_checksum_iff (s : State) :
    (searchDeliver s).failure? = some .checksum ↔ crc8 (s.rom.toList.take 7) ≠ s.rom[7] := by
  rw [Ne, ← crcVerify_rom, searchDeliver]
  split_ifs with hcrc <;> simp [hcrc]

/-- Steps 4 to 7. -/
theorem searchScan_tells (s : State) : ∃ sts, TellsTriplets s (searchScan s) sts := by
  have out := searchFrom_outcome 64 0 0 s (by omega)
  unfold searchScan
  generalize searchFrom 64 0 0 s = r at out
  cases out with
  | failed c t es sts hc hlen same trace reps no =>
    refine ⟨sts, ⟨es, trace, reps⟩, ?_, ?_⟩
    · obtain rfl | rfl := hc <;> simp [any_tripletCollision_eq_false no]
    · obtain rfl | rfl := hc <;> simp [hlen.ne]
  | collision sts last hlen t es trace reps no both =>
    exact ⟨sts ++ [last], ⟨es, trace, reps⟩, by simp [both], by simp [both]⟩
  | stored sts t es hlen same trace reps no =>
    rw [Result.ok_bind]
    have hreports : Reports Event.isTriplet s (sts ++ []) (searchDeliver (searchProgress (lastZeroFrom 0 0 sts) t)) :=
      Reports.append (r := searchDeliver _) (a := ()) ⟨es, trace, reps⟩ (Without.searchDeliver _ t).reports
    have hdeliver : FailsWith (· ≠ .collision) (searchDeliver (searchProgress (lastZeroFrom 0 0 sts) t)) :=
      .searchDeliver (by decide) _
    refine ⟨sts, by simpa using hreports, ?_, ?_⟩
    · rw [any_tripletCollision_eq_false no]
      exact ⟨fun h => absurd rfl (hdeliver _ h), fun h => (by cases h)⟩
    · rw [searchDeliver_checksum_iff, searchDeliver_rom, any_tripletCollision_eq_false no]
      simp [hlen]

/-- A part of SEARCH without triplets, before one that its triplets tell. -/
theorem TellsTriplets.bind {α : Type} {s : State} {r : Result α} {f : α → State → Result Unit}
    (hwithout : Without Event.isTriplet s r) (hfails : FailsWith (fun c => c ≠ .collision ∧ c ≠ .checksum) r)
    (hf : ∀ a t, ∃ sts, TellsTriplets t (f a t) sts) : ∃ sts, TellsTriplets s (r.bind f) sts := by
  have hreports := hwithout.reports
  cases r with
  | ok a t =>
    obtain ⟨sts, hrep, hcollision, hchecksum⟩ := hf a t
    exact ⟨sts, hreports.append hrep, hcollision, hchecksum⟩
  | fail c t =>
    obtain ⟨hcollision, hchecksum⟩ := hfails c rfl
    exact ⟨[], hreports, by simpa using hcollision, by simpa using hchecksum⟩

theorem Without.searchPresence (s : State) : Without Event.isTriplet s (Machine.searchPresence s) := by
  obtain ⟨es, htrace, hno⟩ :=
    Without.doReset picksPrims_triplet s (fun _ _ _ _ => rfl) fun _ => rfl
  refine ⟨es, ?_, hno⟩
  rw [← htrace]
  unfold Machine.searchPresence
  split <;> rename_i heq <;> rw [heq] <;> rfl

theorem search_tellsTriplets (s : State) :
    ∃ sts, TellsTriplets s ((searchPresence s).bind fun _ t => searchAfterReset t) sts :=
  TellsTriplets.bind (.searchPresence s) (.searchPresence ⟨by decide, by decide⟩ (by decide) s) fun _ t =>
    TellsTriplets.bind (.doWriteByte picksPrims_triplet t fun _ => rfl) (.doWriteByte ⟨by decide, by decide⟩ _ t)
      fun _ u => searchScan_tells u

/-- What SEARCH ends in, told by its triplets, by its reset, and by the terminal state it may start in (R131). -/
theorem exec_search_tells (s : State) : ∃ r sts pulses, exec .search s = runCommand r ∧ TellsTriplets s r sts ∧
    TellsPresence s r pulses ∧ (r.failure? = some .noMoreDevices ↔ s.ldf = true) := by
  cases hldf : s.ldf with
  | true =>
    have hquiet (picks : Event → Bool) : Reports picks s [] (.fail .noMoreDevices s : Result Unit) :=
      (Without.fail _ rfl).reports
    exact ⟨_, [], [], exec_search_terminal hldf, ⟨hquiet _, by simp, by simp⟩, ⟨hquiet _, by simp, by simp⟩, by simp⟩
  | false =>
    obtain ⟨sts, htriplets⟩ := search_tellsTriplets s
    obtain ⟨pulses, hpresence⟩ := search_tellsPresence s
    have hfails : FailsWith (· ≠ .noMoreDevices) ((searchPresence s).bind fun _ t => searchAfterReset t) :=
      (FailsWith.searchPresence ⟨by decide, by decide⟩ (by decide) s).bind fun _ t =>
        .searchAfterReset ⟨by decide, by decide⟩ (by decide) (by decide) t
    exact ⟨_, sts, pulses, exec_search_eq hldf, htriplets, hpresence,
      fun h => absurd rfl (hfails _ h), fun h => by cases h⟩

/-! ### Each cause, exactly when what R175 names has happened -/

/-- R177's table, read by cause. -/
theorem possibleCauses_cases {i : Instr} {c : Cause} (h : c.code ∈ possibleCauses i) :
    c = .transport ∨ c = .busyTimeout ∨ i = .search ∨ (c = .noPresence ∧ i = .reset) ∨
      (c = .checksum ∧ ∃ len, i = .verify len) := by
  cases i with
  | search => exact .inr (.inr (.inl rfl))
  | rstsrch | attach | crc8 => exact absurd (List.mem_singleton.1 h) (code_ne_causeNone c)
  | rdbytes len | wrbytes len =>
    rw [possibleCauses] at h
    split_ifs at h
    · exact absurd (List.mem_singleton.1 h) (code_ne_causeNone c)
    · simpa [Cause.code_inj, code_ne_causeNone] using h
  | verify len =>
    have hchecksum : c = .checksum := by simpa [possibleCauses, Cause.code_inj, code_ne_causeNone] using h
    exact .inr (.inr (.inr (.inr ⟨hchecksum, len, rfl⟩)))
  | _ => simpa [possibleCauses, Cause.code_inj, code_ne_causeNone] using h

/-- A cause besides the port's comes of SEARCH, or of RESET or VERIFY, one each. -/
theorem exec_cause_cases {i : Instr} {s t : State} {c : Cause} (ht : exec i s = .next t) (h : t.cause = c.code) :
    c = .transport ∨ c = .busyTimeout ∨ c = .illegalCommand ∨ i = .search ∨ (c = .noPresence ∧ i = .reset) ∨
      (c = .checksum ∧ ∃ len, i = .verify len) := by
  obtain hc | ⟨-, hc⟩ := exec_cause_possible ht
  · have := possibleCauses_cases (h ▸ hc)
    tauto
  · exact .inr (.inr (.inl (Cause.code_inj.1 (h.symm.trans hc))))

theorem exec_collision_iff {i : Instr} {s t : State} (ht : exec i s = .next t) :
    t.cause = Cause.collision.code ↔ (tripletBytes false (newEvents s t)).any tripletCollision = true := by
  by_cases hi : i = .search
  · subst hi
    obtain ⟨r, sts, -, hr, htriplets, -⟩ := exec_search_tells s
    have hsts : tripletBytes false (newEvents s (endCommand r)) = sts := htriplets.reports.newEvents
    rw [eq_endCommand hr ht, endCommand_cause_iff, hsts]
    exact htriplets.collision
  · rw [tripletBytes_of_not_search hi ht]
    refine ⟨fun h => ?_, fun h => by cases h⟩
    have := exec_cause_cases ht h
    simp [hi] at this

/-- VERIFY's test, its last byte apart (R152, R154). -/
theorem crcVerify_bufBytes (s : State) (n : Nat) :
    crcVerify (s.bufBytes (n + 1)) = true ↔ crc8 ((List.range n).map s.bufAt) = s.bufAt n := by
  simp [crcVerify, State.bufBytes, List.range_succ]

theorem exec_verify_checksum_iff {len : Byte} {s t : State} (ht : exec (.verify len) s = .next t) :
    t.cause = Cause.checksum.code ↔
      len ≠ 0 ∧ crc8 ((List.range (len.toNat - 1)).map s.bufAt) ≠ s.bufAt (len.toNat - 1) := by
  rw [eq_endCommand rfl ht, endCommand_cause_iff]
  by_cases hlen : len = 0
  · simp [hlen]
  · obtain ⟨n, hn⟩ := Nat.exists_eq_succ_of_ne_zero fun h : len.toNat = 0 => hlen (BitVec.eq_of_toNat_eq h)
    rw [if_neg hlen, byteCount, and_iff_right (a := len ≠ 0) hlen, hn, Nat.succ_eq_add_one, Nat.add_sub_cancel, Ne,
      ← crcVerify_bufBytes]
    split_ifs with hcrc <;> simp [hcrc]

theorem exec_checksum_iff {i : Instr} {s t : State} (ht : exec i s = .next t) :
    t.cause = Cause.checksum.code ↔
      (∃ len : Byte, i = .verify len ∧ len ≠ 0 ∧
        crc8 ((List.range (len.toNat - 1)).map s.bufAt) ≠ s.bufAt (len.toNat - 1)) ∨
      ((tripletBytes false (newEvents s t)).length = 64 ∧
        (tripletBytes false (newEvents s t)).any tripletCollision = false ∧ crc8 (t.rom.toList.take 7) ≠ t.rom[7]) := by
  by_cases hi : i = .search
  · subst hi
    obtain ⟨r, sts, -, hr, htriplets, -⟩ := exec_search_tells s
    have hsts : tripletBytes false (newEvents s (endCommand r)) = sts := htriplets.reports.newEvents
    have hrom : (endCommand r).rom = r.state.rom := by cases r <;> rfl
    rw [eq_endCommand hr ht, endCommand_cause_iff, hsts, hrom, htriplets.checksum]
    simp
  rw [tripletBytes_of_not_search hi ht]
  by_cases hverify : ∃ len, i = .verify len
  · obtain ⟨len, rfl⟩ := hverify
    rw [exec_verify_checksum_iff ht]
    simp
  · refine ⟨fun h => ?_, fun h => ?_⟩
    · have := exec_cause_cases ht h
      simp [hi, hverify] at this
    · obtain ⟨len, rfl, -⟩ | ⟨h, -⟩ := h
      · exact absurd ⟨len, rfl⟩ hverify
      · cases h

theorem exec_tellsPresence {i : Instr} (hi : i = .reset ∨ i = .search) (s : State) :
    ∃ r pulses, exec i s = runCommand r ∧ TellsPresence s r pulses := by
  obtain rfl | rfl := hi
  · obtain ⟨pulses, hpresence⟩ := resetBody_tells s
    exact ⟨resetBody s, pulses, rfl, hpresence⟩
  · obtain ⟨r, -, pulses, hr, -, hpresence, -⟩ := exec_search_tells s
    exact ⟨r, pulses, hr, hpresence⟩

theorem exec_noPresence_iff {i : Instr} {s t : State} (ht : exec i s = .next t) :
    t.cause = Cause.noPresence.code ↔
      (∃ st ∈ pulseBytes false (newEvents s t), statusPPD st = false) ∧ (newEvents s t).any Event.isDenied = false := by
  have hdenied : (newEvents s t).any Event.isDenied = false ↔ t.cause ≠ Cause.transport.code := by
    rw [Ne, (exec_commandRun ht).transport, Bool.not_eq_true]
  rw [hdenied]
  by_cases hi : i = .reset ∨ i = .search
  · obtain ⟨r, pulses, hr, hpresence⟩ := exec_tellsPresence hi s
    have hpulses : pulseBytes false (newEvents s (endCommand r)) = pulses := hpresence.reports.newEvents
    rw [eq_endCommand hr ht, hpulses, Ne, endCommand_cause_iff, endCommand_cause_iff]
    exact hpresence.noPresence_iff
  · obtain ⟨hreset, hsearch⟩ := not_or.1 hi
    rw [pulseBytes_of_no_pulse hsearch hreset ht]
    refine ⟨fun h => ?_, fun ⟨⟨st, hst, _⟩, _⟩ => by cases hst⟩
    have := exec_cause_cases ht h
    simp [hreset, hsearch] at this

theorem exec_noMoreDevices_iff {i : Instr} {s t : State} (ht : exec i s = .next t) :
    t.cause = Cause.noMoreDevices.code ↔ i = .search ∧ s.ldf = true := by
  by_cases hi : i = .search
  · subst hi
    obtain ⟨r, -, -, hr, -, -, hterminal⟩ := exec_search_tells s
    rw [eq_endCommand hr ht, endCommand_cause_iff, hterminal]
    simp
  · refine ⟨fun h => ?_, fun h => absurd h.1 hi⟩
    have := exec_cause_cases ht h
    simp [hi] at this

/-- Settles O5: R177's table by the causes the bodies can fail with; TRANSPORT and BUSY_TIMEOUT by the command's run; the
others by what the triplets and the 1-Wire reset reported. -/
theorem commandsEndOnlyWithTheirCauses : Obligations.CommandsEndOnlyWithTheirCauses := by
  intro i s t ht es sts
  have hrun := exec_commandRun ht
  refine ⟨fun hwf => ?_, hrun.transport, hrun.busyTimeout, exec_collision_iff ht, exec_checksum_iff ht,
    exec_noPresence_iff ht, exec_noMoreDevices_iff ht⟩
  exact (exec_cause_possible ht).resolve_right fun h => by simp [hwf] at h

end Sys2Proof.Machine

/-! PROOFS. The search state and the Search Engine's first two steps: RSTSRCH, a SEARCH that ends before its command byte, and
that no other command sees or writes `ROM`, `LD` and `LDF`. -/

namespace Sys2Proof.Machine

open Sys2Proof

/-! ### The search state written as a whole (R131, R140) -/

/-- Settles O35: RSTSRCH is `ResetSearch`, and the end of the command writes its result. -/
theorem rstsrchClearsTheSearchState : Obligations.RstsrchClearsTheSearchState := by
  intro s
  rfl

/-- Settles O31: step 1 by the terminal state, step 2 by the part that SEARCH shares with RESET. -/
theorem searchStepsOneAndTwo : Obligations.SearchStepsOneAndTwo := by
  refine ⟨fun s hlast => exec_search_terminal hlast, fun s u hlast hreset hno => ?_⟩
  have hu : u = endCommand (resetBody s) := eq_endCommand rfl hreset
  rw [exec_search_eq hlast]
  obtain ⟨t, hr, -⟩ | ⟨c, t, hr, hs⟩ := searchPresence_cases s
  · rw [hu, hr] at hno
    cases hno
  · rw [hs, Result.fail_bind, runCommand_fail, hu, hr]
    rfl

/-! ### What no other command sees (R139) -/

/-- A change of the state that `DoReset` does not see either: the shadow of the configuration is the same, and writing
`CFG.SPU` leaves the change in place. -/
structure ResetBlind (w : State → State) : Prop where
  port   : PortBlind w
  apu    : ∀ s, (w s).apu = s.apu
  spu    : ∀ s, (w s).spu = s.spu
  od     : ∀ s, (w s).od = s.od
  setSpu : ∀ s b, (w s).setSpu b = w (s.setSpu b)

section
variable {w : State → State} (h : ResetBlind w)
include h

/-- A configuration write that passes `APU` and `OD` on (R106). -/
theorem ResetBlind.cfgWrite (b : Bool) :
    Blind w fun s => (prim (.wcfg s.apu b s.od) s).bind fun _ t => .ok () (t.setSpu b) :=
  .reading (p := fun s => (s.apu, s.od))
    (f := fun x s => (prim (.wcfg x.1 b x.2) s).bind fun _ t => .ok () (t.setSpu b))
    (fun s => by rw [h.apu, h.od]) fun _ => (h.port.prim _).bind fun _ => .update () fun t => h.setSpu t b

theorem ResetBlind.clearSpu : Blind w clearSpu :=
  .reading (p := State.spu)
    (f := fun spu s => if spu then (prim (.wcfg s.apu false s.od) s).bind fun _ t => .ok () (t.setSpu false) else .ok () s)
    h.spu fun _ => .ite (h.cfgWrite false) (.pure ())

theorem ResetBlind.restoreSpu (b : Bool) : Blind w (restoreSpu b) := .ite (h.cfgWrite true) (.pure ())

theorem ResetBlind.doReset : Blind w doReset :=
  .reading (p := State.spu)
    (f := fun spu s => (Machine.clearSpu s).bind fun _ s1 => (waitBusy s1).bind fun _ s2 => (prim .wrs s2).bind fun _ s3 =>
      (waitBusy s3).bind fun st s4 => (Machine.restoreSpu spu s4).bind fun _ s5 => .ok (statusPPD st) s5)
    h.spu fun spu => h.clearSpu.bind fun _ => h.port.waitBusy.bind fun _ => (h.port.prim .wrs).bind fun _ =>
      h.port.waitBusy.bind fun st => (h.restoreSpu spu).bind fun _ => .pure (statusPPD st)

end

/-- The state with another search state. -/
def State.withSearch (rom : Vector Byte 8) (ld : BitVec 7) (ldf : Bool) (s : State) : State :=
  { s with rom := rom, ld := ld, ldf := ldf }

theorem resetBlind_withSearch (rom : Vector Byte 8) (ld : BitVec 7) (ldf : Bool) :
    ResetBlind (State.withSearch rom ld ldf) where
  port := {
    ok := fun _ => rfl
    byte := fun _ _ => rfl
    answered := fun _ _ => rfl
    noteFaults := fun st s => by rw [noteFaults_eq, noteFaults_eq]; rfl
    params := fun _ => rfl }
  apu _ := rfl
  spu _ := rfl
  od _ := rfl
  setSpu _ _ := rfl

section
variable (rom : Vector Byte 8) (ld : BitVec 7) (ldf : Bool)

theorem readBytesInto_withSearch (n k : Nat) : Blind (State.withSearch rom ld ldf) (readBytesInto n k) := by
  induction n generalizing k with
  | zero => exact .pure ()
  | succ n ih => exact (resetBlind_withSearch rom ld ldf).port.doReadByte.bind fun v s => ih (k + 1) (s.writeBuf k v)

/-- The body of every command but SEARCH and RSTSRCH does not see the search state. -/
theorem exec_withSearch {i : Instr} (hsearch : i ≠ .search) (hrstsrch : i ≠ .rstsrch) (s : State) :
    ∃ r, exec i s = runCommand r ∧
      exec i (s.withSearch rom ld ldf) = runCommand (r.mapState (State.withSearch rom ld ldf)) := by
  have hreset := resetBlind_withSearch rom ld ldf
  have h := hreset.port
  cases i with
  | reset =>
    exact ⟨_, rfl, congrArg runCommand ((hreset.doReset.bind fun p => .ite (.pure ()) (.raise .noPresence)) s)⟩
  | rdbit =>
    exact ⟨_, rfl, congrArg runCommand
      (((h.doBit true).bind fun v => .update (f := (·.setResBit v)) () fun _ => rfl) s)⟩
  | wrbit b => exact ⟨_, rfl, congrArg runCommand (((h.doBit b).bind fun _ => .pure ()) s)⟩
  | rdbyte =>
    exact ⟨_, rfl, congrArg runCommand
      ((h.doReadByte.bind fun v => .update (f := (·.setData v)) () fun _ => rfl) s)⟩
  | wrbyte v => exact ⟨_, rfl, congrArg runCommand (h.doWriteByte v s)⟩
  | rdbytes len => exact ⟨_, rfl, congrArg runCommand (readBytesInto_withSearch rom ld ldf _ 0 s)⟩
  | wrbytes len => exact ⟨_, rfl, congrArg runCommand (h.writeBytesFrom (fun _ => rfl) _ 0 s)⟩
  | skip => exact ⟨_, rfl, congrArg runCommand (h.doWriteByte _ s)⟩
  | select =>
    exact ⟨_, rfl, congrArg runCommand (((h.doWriteByte _).bind fun _ => h.writeBytesFrom (fun _ => rfl) 8 0) s)⟩
  | search => exact absurd rfl hsearch
  | rstsrch => exact absurd rfl hrstsrch
  | attach _ | crc8 _ => exact ⟨_, rfl, rfl⟩
  | verify len =>
    have hcheck : Blind (State.withSearch rom ld ldf) fun t =>
        if crcVerify (s.bufBytes (byteCount len)) then .ok () t else .fail .checksum t :=
      .ite (.pure ()) (.raise .checksum)
    exact ⟨_, rfl, congrArg runCommand (Blind.ite (c := len = 0) (.raise .illegalCommand) hcheck s)⟩

theorem endCommand_withSearch (r : Result Unit) :
    endCommand (r.mapState (State.withSearch rom ld ldf)) = (endCommand r).withSearch rom ld ldf := by
  cases r <;> rfl

end

/-- Settles O56: from any search state the command does the same and leaves that search state, from its own too. -/
theorem searchStateIsTheSearchEnginesOwn : Obligations.SearchStateIsTheSearchEnginesOwn := by
  intro i s t hsearch hrstsrch ht
  have hblind (rom : Vector Byte 8) (ld : BitVec 7) (ldf : Bool) :
      exec i (s.withSearch rom ld ldf) = .next (t.withSearch rom ld ldf) := by
    obtain ⟨r, hr, hw⟩ := exec_withSearch rom ld ldf hsearch hrstsrch s
    rw [hw, runCommand, endCommand_withSearch, eq_endCommand hr ht]
  refine ⟨?_, hblind⟩
  have hown : exec i s = .next (t.withSearch s.rom s.ld s.ldf) := hblind s.rom s.ld s.ldf
  rw [Host.Outcome.next.inj (ht.symm.trans hown)]
  exact ⟨rfl, rfl, rfl⟩

end Sys2Proof.Machine

/-! PROOFS. A SEARCH through its 64 triplets: what step 5 makes of their status bytes, what steps 6 and 7 leave, and the whole
command under given answers of the environment. -/

namespace Sys2Proof.Machine

open Sys2Proof

/-! ### Step 5: progress (R134, R135) -/

/-- `last_zero` of a whole scan: the largest index at which both branches existed and 0 was taken, 0 if there is none. -/
theorem lastZeroFrom_zero_spec {sts : List Byte} (hlen : sts.length = 64) :
    (∀ j (h : j < sts.length), tripletZeroTaken sts[j] = true → j ≤ (lastZeroFrom 0 0 sts).toNat) ∧
      (lastZeroFrom 0 0 sts = 0 ∨
        ∃ h : (lastZeroFrom 0 0 sts).toNat < sts.length, tripletZeroTaken sts[(lastZeroFrom 0 0 sts).toNat] = true) := by
  obtain ⟨hmax, -, hlast⟩ := lastZeroFrom_spec sts 0 0 (by omega) (by simp)
  refine ⟨fun j hj hz => by simpa using hmax j hj hz, hlast.imp_right fun ⟨j, hj, hz, he⟩ => ?_⟩
  rw [Nat.zero_add] at he
  simpa only [he] using ⟨hj, hz⟩

/-- From a search state that is not the last device's, `LDF` is set exactly where `LD` becomes 0. -/
theorem searchProgress_ldf_iff {s : State} (h : s.ldf = false) (lz : BitVec 7) :
    (searchProgress lz s).ldf = true ↔ lz = 0 := by
  rw [searchProgress, State.setProgress_ldf]
  split_ifs with hz
  · exact iff_of_true rfl hz
  · exact iff_of_false (by simp [h]) hz

theorem tripletZeroTaken_iff {st : Byte} :
    tripletZeroTaken st = true ↔ statusSBR st = false ∧ statusTSB st = false ∧ statusDIR st = false := by
  simp [tripletZeroTaken, and_assoc]

/-! ### Steps 6 and 7: the checksum and the delivery (R136, R137) -/

/-- `t` is the end of the command whose last steps start in `u`: nothing but the result and `BUF` is written, and the checksum
of the candidate decides what. -/
structure Delivered (u t : State) : Prop where
  rest    : t = { u with resOk := t.resOk, cause := t.cause, buf := t.buf }
  valid   : crc8 (u.rom.toList.take 7) = u.rom[7] →
    t.resOk = true ∧ t.cause = 0 ∧ (∀ k (h : k < 8), t.bufAt k = u.rom[k]) ∧ keepsBufFrom 8 u t
  invalid : crc8 (u.rom.toList.take 7) ≠ u.rom[7] → t.resOk = false ∧ t.cause = 5 ∧ keepsBufFrom 0 u t

theorem writeBufFrom_rom_bufAt (s : State) {k : Nat} (h : k < 8) :
    (s.writeBufFrom 0 s.rom.toList).bufAt k = s.rom[k] := by
  rw [writeBufFrom_bufAt, dif_pos (by simpa using h)]
  simp

theorem writeBufFrom_rom_keeps (s : State) : keepsBufFrom 8 s (s.writeBufFrom 0 s.rom.toList) := by
  intro k hk
  rw [writeBufFrom_bufAt, dif_neg (by simp; omega)]

theorem searchDeliver_delivered (u : State) : Delivered u (endCommand (searchDeliver u)) := by
  unfold searchDeliver
  by_cases hcrc : crcVerify u.rom.toList = true
  · rw [if_pos hcrc]
    refine ⟨?_, fun _ => ⟨rfl, rfl, fun k hk => writeBufFrom_rom_bufAt u hk, writeBufFrom_rom_keeps u⟩,
      fun h => absurd ((crcVerify_rom u.rom).1 hcrc) h⟩
    rw [endCommand, commandDone, writeBufFrom_eq]
    rfl
  · rw [if_neg hcrc]
    exact ⟨rfl, fun h => absurd ((crcVerify_rom u.rom).2 h) hcrc, fun _ => ⟨rfl, rfl, fun _ _ => rfl⟩⟩

/-! ### Steps 2 to 5 under given answers (R131 to R135) -/

theorem searchPresence_exchange {s : State} {r : ResetExchange} (h : s.Answers (r.answers s.spu))
    (hr : r.good s.params.pollMax = true) (hppd : statusPPD r.pulse.poll.idle = true) :
    searchPresence s = .ok () (s.afterReset r) := by
  rw [searchPresence, doReset_exchange h hr, hppd]

/-- The exchanges after SEARCH's reset: the command byte, then the triplets in the directions R133 gives. -/
def State.searches (s : State) (c : Exchange) (xs : List Exchange) : List (Prim × Exchange) :=
  (.wwb s.params.cmdSearchRom, c) :: ((List.range 64).map fun i => Prim.wt (requestedDir s.rom s.ld i)).zip xs

/-- Steps 3 to 7, up to the checksum test. -/
theorem searchAfterReset_exchanges {s : State} {c : Exchange} {xs : List Exchange} (hlen : xs.length = 64)
    (h : s.Answers (c.answers ++ xs.flatMap Exchange.answers)) (hc : c.good s.params.pollMax = true)
    (hx : ∀ x ∈ xs, x.good s.params.pollMax = true) (hno : ∀ x ∈ xs, tripletCollision x.poll.idle = false) :
    searchAfterReset s =
      searchDeliver (searchProgress (lastZeroFrom 0 0 (xs.map (·.poll.idle)))
        { s.afterExchanges (s.searches c xs) with
          rom := storeBits s.rom 0 (xs.map fun x => statusDIR x.poll.idle) }) := by
  rw [State.Answers.append] at h
  obtain ⟨hbyte, htriplets⟩ := h
  have hscan := searchFrom_exchanges xs 0 0 (s.afterExchanges [(.wwb s.params.cmdSearchRom, c)]) (by omega)
    ((State.Answers.afterExchanges _).2 (by simpa [exchangeAnswers] using htriplets)) hx hno
  rw [hlen] at hscan
  rw [searchAfterReset, doWriteByte_exchange _ hbyte hc, Result.ok_bind, searchScan, hscan, Result.ok_bind,
    State.afterExchanges_append, ← List.range_eq_range']
  rfl

/-- The address is what the triplets reported. -/
theorem storeBits_eq_found {rom found : Vector Byte 8} {bs : List Bool} (hlen : bs.length = 64)
    (h : ∀ i (hi : i < bs.length), romBit found i = bs[i]) : storeBits rom 0 bs = found := by
  refine rom_ext fun j hj => ?_
  rw [romBit_storeBits rom 0 j bs (by omega) hj, dif_pos (by omega), h j (by omega)]
  rfl

/-- The state at step 5 of a SEARCH all of whose answers are positive. -/
def State.afterScan (s : State) (r : ResetExchange) (c : Exchange) (xs : List Exchange) : State :=
  { (s.afterReset r).afterExchanges (s.searches c xs) with
    rom := storeBits s.rom 0 (xs.map fun x => statusDIR x.poll.idle) }

theorem SameButPort.afterReset (s : State) (r : ResetExchange) : SameButPort s (s.afterReset r) :=
  ⟨rfl, rfl, rfl, rfl, rfl, rfl, rfl, rfl, rfl, rfl, rfl, rfl, rfl, rfl, rfl⟩

theorem SameButPort.afterExchanges (s : State) (ps : List (Prim × Exchange)) : SameButPort s (s.afterExchanges ps) :=
  ⟨rfl, rfl, rfl, rfl, rfl, rfl, rfl, rfl, rfl, rfl, rfl, rfl, rfl, rfl, rfl⟩

/-- It differs from the start in the candidate address and the port alone. -/
theorem State.afterScan_frame (s : State) (r : ResetExchange) (c : Exchange) (xs : List Exchange) :
    SameButPort s { s.afterScan r c xs with rom := s.rom } :=
  { (SameButPort.afterReset s r).trans (.afterExchanges _ (s.searches c xs)) with rom := rfl }

theorem State.afterScan_trace (s : State) (r : ResetExchange) (c : Exchange) (xs : List Exchange) :
    (s.afterScan r c xs).trace = s.trace ++ resetEvents s r ++
      exchangeEvents s.cbEn (statusSD r.pulse.poll.idle) (statusRST r.pulse.poll.idle) (s.searches c xs) := by
  have hreset : (s.afterReset r).trace = s.trace ++ resetEvents s r := rfl
  have hcb : (s.afterReset r).cbEn = s.cbEn := rfl
  calc ((s.afterReset r).afterExchanges (s.searches c xs)).trace
      = (s.afterReset r).trace ++ exchangeEvents (s.afterReset r).cbEn (s.afterReset r).sdSeen (s.afterReset r).rstSeen
          (s.searches c xs) := rfl
    _ = _ := by rw [hreset, hcb]; rfl

/-- Steps 2 to 7 under positive answers, up to the checksum test. -/
theorem exec_search_exchanges {s : State} {r : ResetExchange} {c : Exchange} {xs : List Exchange} (hlast : s.ldf = false)
    (hlen : xs.length = 64) (hans : s.Answers (r.answers s.spu ++ c.answers ++ xs.flatMap Exchange.answers))
    (hr : r.good s.params.pollMax = true) (hc : c.good s.params.pollMax = true)
    (hx : ∀ x ∈ xs, x.good s.params.pollMax = true) (hppd : statusPPD r.pulse.poll.idle = true)
    (hno : ∀ x ∈ xs, tripletCollision x.poll.idle = false) :
    exec .search s = runCommand (searchDeliver
      (searchProgress (lastZeroFrom 0 0 (xs.map (·.poll.idle))) (s.afterScan r c xs))) := by
  rw [List.append_assoc, State.Answers.append] at hans
  obtain ⟨hreset, hafter⟩ := hans
  have hrest : (s.afterReset r).Answers (c.answers ++ xs.flatMap Exchange.answers) := (State.Answers.congr rfl rfl).2 hafter
  rw [exec_search_eq hlast, searchPresence_exchange hreset hr hppd, Result.ok_bind,
    searchAfterReset_exchanges hlen hrest hc hx hno]
  rfl

/-- Settles O32: the state at the checksum test, then what step 5 made of the status bytes, and what steps 6 and 7 leave. -/
theorem searchCompletes : Obligations.SearchCompletes := by
  intro s r c xs found hlast hlen hans hr hc hx hppd hno hbits
  have hexec := exec_search_exchanges hlast hlen hans hr hc hx hppd fun x hm => by
    simpa [tripletCollision] using hno x hm
  have hrom : (s.afterScan r c xs).rom = found :=
    storeBits_eq_found (by simpa using hlen) fun i hi => by simpa using hbits i (by simpa using hi)
  have hframe := s.afterScan_frame r c xs
  have htrace := s.afterScan_trace r c xs
  obtain ⟨hmax, hzero⟩ := lastZeroFrom_zero_spec (sts := xs.map (·.poll.idle)) (by simpa using hlen)
  simp only [List.length_map, List.getElem_map, tripletZeroTaken_iff] at hmax hzero
  generalize s.afterScan r c xs = v at hexec hrom hframe htrace
  generalize lastZeroFrom 0 0 (xs.map (·.poll.idle)) = lz at hexec hmax hzero
  obtain ⟨hrest, hvalid, hinvalid⟩ := searchDeliver_delivered (searchProgress lz v)
  refine ⟨_, hexec, ?_⟩
  generalize endCommand (searchDeliver (searchProgress lz v)) = t at hrest hvalid hinvalid
  obtain rfl : t.ld = lz := congrArg State.ld hrest
  have hldf : t.ldf = true ↔ t.ld = 0 :=
    (iff_of_eq (congrArg (·.ldf = true) hrest)).trans (searchProgress_ldf_iff (hframe.ldf.trans hlast) t.ld)
  have hbuf (n : Nat) (h : keepsBufFrom n (searchProgress t.ld v) t) : keepsBufFrom n s t := fun k hk =>
    (h k hk).trans (congrArg (Memory.read · k) hframe.buf)
  have hfound : t.rom = found := (congrArg State.rom hrest).trans hrom
  subst hrom
  refine ⟨fun hcrc => ?_, fun hcrc => ?_, hfound, fun i hi h1 h2 h3 => hmax i hi ⟨h1, h2, h3⟩, hzero, hldf,
    (congrArg State.trace hrest).trans htrace, ?_, ?_, (congrArg State.resBit hrest).trans hframe.resBit,
    (congrArg State.data hrest).trans hframe.data⟩
  · obtain ⟨hok, hcause, haddress, hkept⟩ := hvalid hcrc
    exact ⟨hok, hcause, haddress, hbuf 8 hkept⟩
  · obtain ⟨hok, hcause, hkept⟩ := hinvalid hcrc
    exact ⟨hok, hcause, hbuf 0 hkept⟩
  · exact ⟨(congrArg State.apu hrest).trans hframe.apu, (congrArg State.spu hrest).trans hframe.spu,
      (congrArg State.od hrest).trans hframe.od⟩
  · exact ⟨(congrArg State.cbEn hrest).trans hframe.cbEn, (congrArg State.params hrest).trans hframe.params,
      (congrArg State.host hrest).trans hframe.host, (congrArg State.hostOut hrest).trans hframe.hostOut⟩

end Sys2Proof.Machine

/-! PROOFS. Every exit of SEARCH, whatever the answers: one inversion lemma for the whole command, and what R133 and R138 say
read off it. -/

namespace Sys2Proof.Machine

open Sys2Proof

@[simp] theorem endCommand_rom (r : Result Unit) : (endCommand r).rom = r.state.rom := by cases r <;> rfl
@[simp] theorem endCommand_ld (r : Result Unit) : (endCommand r).ld = r.state.ld := by cases r <;> rfl
@[simp] theorem endCommand_ldf (r : Result Unit) : (endCommand r).ldf = r.state.ldf := by cases r <;> rfl
@[simp] theorem endCommand_trace (r : Result Unit) : (endCommand r).trace = r.state.trace := by cases r <;> rfl

theorem endCommand_newEvents (s : State) (r : Result Unit) : newEvents s (endCommand r) = newEvents s r.state := by
  rw [newEvents, endCommand_trace, newEvents]

theorem endCommand_none_iff {r : Result Unit} : (endCommand r).cause = causeNone ↔ r.failure? = none := by
  cases r with
  | ok _ t => exact iff_of_true rfl rfl
  | fail c t => exact iff_of_false (code_ne_causeNone c) (by simp)

theorem Without.of_trace {α : Type} {picks : Event → Bool} {s : State} {r : Result α} (h : Without picks s r)
    {es : List Event} (he : r.state.trace = s.trace ++ es) : ∀ e ∈ es, picks e = false := by
  obtain ⟨es', htrace, hno⟩ := h
  rw [htrace] at he
  rwa [← List.append_cancel_left he]

/-! ### What the events of SEARCH show (R132 to R134) -/

/-- The events `es` of a SEARCH report the status bytes `sts` of its triplets; `sent` says whether a byte was written; and the
triplets request the directions of R133, at most 64 of them. -/
structure SearchEvents (rom : Vector Byte 8) (ld : BitVec 7) (es : List Event) (sts : List Byte) (sent : Bool) : Prop where
  reports : tripletBytes false es = sts
  written : es.any Event.isWriteByte = sent
  dirs    : ∃ m ≤ 64, es.filterMap Event.tripletDir? = (List.range m).map (requestedDir rom ld)

theorem tripletDirs_of_noTriplet {es : List Event} (h : ∀ e ∈ es, e.isTriplet = false) :
    es.filterMap Event.tripletDir? = [] :=
  List.filterMap_eq_nil_iff.2 fun e he => by simpa [Event.isTriplet] using h e he

/-- Events without a triplet before the events of the triplets. -/
theorem SearchEvents.after {rom : Vector Byte 8} {ld : BitVec 7} {es es' : List Event} {sts : List Byte} {sent : Bool}
    (h : ∀ e ∈ es, e.isTriplet = false) (g : SearchEvents rom ld es' sts sent) :
    SearchEvents rom ld (es ++ es') sts (es.any Event.isWriteByte || sent) where
  reports := (idleBytes_append_noPick es es' h).trans g.reports
  written := by rw [List.any_append, g.written]
  dirs := by rw [List.filterMap_append, tripletDirs_of_noTriplet h]; exact g.dirs

theorem SearchEvents.none (rom : Vector Byte 8) (ld : BitVec 7) : SearchEvents rom ld [] [] false :=
  ⟨rfl, rfl, 0, by omega, rfl⟩

/-- Events of step 4, which writes no byte, as the loop's inversion lemma gives them. -/
theorem SearchEvents.ofScan {rom : Vector Byte 8} {ld : BitVec 7} {es : List Event} {sts : List Byte} {m : Nat}
    (reports : tripletBytes false es = sts) (hwrite : ∀ e ∈ es, e.isWriteByte = false) (hm : m ≤ 64)
    (dirs : es.filterMap Event.tripletDir? = (List.range' 0 m).map (requestedDir rom ld)) :
    SearchEvents rom ld es sts false :=
  ⟨reports, by simpa using hwrite, m, hm, by rw [dirs, List.range_eq_range']⟩

/-! ### Every exit of SEARCH (R131 to R138) -/

/-- The search state is cleared (R138). -/
def State.SearchCleared (t : State) : Prop := (∀ k (h : k < 8), t.rom[k] = 0) ∧ t.ld = 0 ∧ t.ldf = false

theorem searchCleared_of_eq {t : State} (hrom : t.rom = Vector.replicate 8 0) (hld : t.ld = 0) (hldf : t.ldf = false) :
    t.SearchCleared :=
  ⟨fun k h => by simp [hrom], hld, hldf⟩

/-- A SEARCH from `s`, past step 1, has come to `t`, with these events. -/
structure SearchPart (s t : State) (sts : List Byte) (sent : Bool) : Prop where
  notLast : s.ldf = false
  same    : SameButSearch s t
  events  : SearchEvents s.rom s.ld (newEvents s t) sts sent

/-- The bits of the status bytes `sts`, none of them a collision, are stored in `t`, and `LD` and `LDF` are those of `s`. -/
structure BitsStored (s t : State) (sts : List Byte) : Prop where
  len : sts.length ≤ 64
  no  : ∀ st ∈ sts, tripletCollision st = false
  rom : t.rom = storeBits s.rom 0 (sts.map statusDIR)
  ld  : t.ld = s.ld
  ldf : t.ldf = s.ldf

/-- Everything SEARCH can end in: in step 1, before the command byte, in a poll after it, in a collision, or at the checksum
test. -/
inductive SearchOutcome (s : State) : Result Unit → Prop where
  | terminal (last : s.ldf = true) : SearchOutcome s (.fail .noMoreDevices s)
  | absent (c : Cause) (t : State) (hc : c = .transport ∨ c = .busyTimeout ∨ c = .noPresence)
      (part : SearchPart s t [] false) : SearchOutcome s (.fail c t.resetSearch)
  | stopped (c : Cause) (t : State) (sts : List Byte) (hc : c = .transport ∨ c = .busyTimeout)
      (part : SearchPart s t sts true) (bits : BitsStored s t sts) : SearchOutcome s (.fail c t)
  | collision (t : State) (sts : List Byte) (last : Byte) (no : ∀ st ∈ sts, tripletCollision st = false)
      (part : SearchPart s t (sts ++ [last]) true) (cleared : t.SearchCleared) : SearchOutcome s (.fail .collision t)
  | scanned (t : State) (sts : List Byte) (len : sts.length = 64) (part : SearchPart s t sts true)
      (bits : BitsStored s t sts) : SearchOutcome s (searchDeliver (searchProgress (lastZeroFrom 0 0 sts) t))

/-- Step 2: no triplet and no byte written; the search state is kept where there is presence and cleared where not (R131). -/
inductive PresenceOutcome (s : State) : Result Unit → Prop where
  | present (t : State) (es : List Event) (same : SameButPort s (t.setSpu s.spu)) (trace : t.trace = s.trace ++ es)
      (quiet : ∀ e ∈ es, (e.isTriplet || e.isWriteByte) = false) : PresenceOutcome s (.ok () t)
  | absent (c : Cause) (t : State) (es : List Event) (hc : c = .transport ∨ c = .busyTimeout ∨ c = .noPresence)
      (same : SameButPort s (t.setSpu s.spu)) (trace : t.trace = s.trace ++ es)
      (quiet : ∀ e ∈ es, (e.isTriplet || e.isWriteByte) = false) : PresenceOutcome s (.fail c t.resetSearch)

theorem picksPrims_tripletOrByte : PicksPrims fun e => e.isTriplet || e.isWriteByte :=
  ⟨fun st => by cases st <;> rfl, fun v => by cases v <;> rfl, fun _ => rfl, fun _ => rfl⟩

theorem searchPresence_outcome (s : State) : PresenceOutcome s (searchPresence s) := by
  have hsame := doReset_frame s
  have hfails : FailsWith (fun c => c = .transport ∨ c = .busyTimeout) (doReset s) := .doReset ⟨.inl rfl, .inr rfl⟩ s
  have hquiet := Without.doReset picksPrims_tripletOrByte s (fun _ _ _ _ => rfl) fun _ => rfl
  unfold searchPresence
  generalize doReset s = r at hsame hfails hquiet
  obtain ⟨es, htrace, hno⟩ := hquiet
  cases r with
  | ok present t =>
    cases present with
    | true => exact .present t es hsame htrace hno
    | false => exact .absent _ t es (.inr (.inr rfl)) hsame htrace hno
  | fail c t => exact .absent c t es ((hfails c rfl).imp_right .inl) hsame htrace hno

/-- Step 3 writes a byte, and issues no triplet. -/
theorem doWriteByte_events (v : Byte) (s : State) : ∃ es, (doWriteByte v s).state.trace = s.trace ++ es ∧
    (∀ e ∈ es, e.isTriplet = false) ∧ es.any Event.isWriteByte = true := by
  have hquiet : Without Event.isTriplet s (doWriteByte v s) := .doWriteByte picksPrims_triplet s fun _ => rfl
  suffices hfirst : ∃ ok es, (doWriteByte v s).state.trace = s.trace ++ .prim (.wwb v) ok :: es by
    obtain ⟨ok, es, htrace⟩ := hfirst
    exact ⟨_, htrace, hquiet.of_trace htrace, rfl⟩
  unfold doWriteByte
  rw [prim_eq]
  split_ifs
  · rw [Result.ok_bind]
    obtain ⟨es, htrace, -⟩ := (Without.waitBusy picksPrims_triplet (s.dropAnswer.emit (.prim (.wwb v) true))).bind
      (f := fun _ t => .ok () t) fun _ _ => .ok () rfl
    exact ⟨true, es, by rw [htrace]; simp⟩
  · exact ⟨false, [], rfl⟩

/-- A SEARCH from `s`, past step 1, has issued its command byte and come to `t` without a triplet. -/
structure SearchSent (s t : State) : Prop where
  notLast : s.ldf = false
  same    : SameButPort s (t.setSpu s.spu)
  events  : ∃ es, t.trace = s.trace ++ es ∧ (∀ e ∈ es, e.isTriplet = false) ∧ es.any Event.isWriteByte = true

theorem SameButPort.setSpu_search {s t : State} (h : SameButPort s (t.setSpu s.spu)) : SameButSearch s t :=
  ⟨h.apu, h.od, h.cbEn, h.resOk, h.resBit, h.cause, h.data, h.buf, h.params, h.host, h.hostOut⟩

/-- Step 4's events come after those of the command byte. -/
theorem SearchSent.part {s t u : State} (h : SearchSent s t) (same : SameButSearch t u) {es : List Event}
    (trace : u.trace = t.trace ++ es) {sts : List Byte} (events : SearchEvents t.rom t.ld es sts false) :
    SearchPart s u sts true := by
  obtain ⟨hlast, hsame, es0, htrace, hno, hsent⟩ := h
  have hrom : t.rom = s.rom := hsame.rom
  have hld : t.ld = s.ld := hsame.ld
  refine ⟨hlast, hsame.setSpu_search.trans same, ?_⟩
  rw [newEvents_eq (es := es0 ++ es) (by rw [trace, htrace, List.append_assoc]), ← hrom, ← hld]
  simpa [hsent] using events.after hno

theorem SearchSent.bits {s t u : State} (h : SearchSent s t) {sts : List Byte} (len : sts.length ≤ 64)
    (no : ∀ st ∈ sts, tripletCollision st = false)
    (same : SameButPort { t with rom := storeBits t.rom 0 (sts.map statusDIR) } u) : BitsStored s u sts := by
  have hrom : t.rom = s.rom := h.same.rom
  exact ⟨len, no, hrom ▸ same.rom, same.ld.trans h.same.ld, same.ldf.trans h.same.ldf⟩

/-- Steps 4 to 7. -/
theorem searchScan_outcome {s t : State} (h : SearchSent s t) : SearchOutcome s (searchScan t) := by
  have hwrite : Without Event.isWriteByte t (searchFrom 64 0 0 t) :=
    .searchFrom ⟨fun st => by cases st <;> rfl, fun v => by cases v <;> rfl, fun _ => rfl, fun _ => rfl⟩
      (fun _ _ => rfl) 64 0 0 t
  have hframe := searchFrom_frame 64 0 0 t
  have out := searchFrom_outcome 64 0 0 t (by omega)
  unfold searchScan
  generalize searchFrom 64 0 0 t = r at hwrite hframe out
  cases out with
  | failed c u es sts hc hlen same trace reps no dirs =>
    exact .stopped c u sts hc (h.part hframe trace (.ofScan reps (hwrite.of_trace trace) (by omega) dirs))
      (h.bits (by omega) no same)
  | collision sts last hlen u es trace reps no both dirs rom ld ldf =>
    exact .collision u sts last no (h.part hframe trace (.ofScan reps (hwrite.of_trace trace) (by omega) dirs))
      (searchCleared_of_eq rom ld ldf)
  | stored sts u es hlen same trace reps no dirs =>
    have hreps : tripletBytes false es = sts := by simpa [tripletBytes, idleBytes] using reps []
    exact .scanned u sts hlen (h.part hframe trace (.ofScan hreps (hwrite.of_trace trace) (by omega) dirs))
      (h.bits (by omega) no same)

/-- Steps 2 to 7. -/
theorem searchBody_outcome {s : State} (hlast : s.ldf = false) :
    SearchOutcome s ((searchPresence s).bind fun _ t => searchAfterReset t) := by
  have out := searchPresence_outcome s
  generalize searchPresence s = r at out
  cases out with
  | absent c t es hc same trace quiet =>
    simp only [Bool.or_eq_false_iff] at quiet
    refine .absent c t hc ⟨hlast, same.setSpu_search, ?_⟩
    have hevents := (SearchEvents.none s.rom s.ld).after fun e he => (quiet e he).1
    have hnone : es.any Event.isWriteByte = false := by simpa using fun e he => (quiet e he).2
    rw [newEvents_eq trace]
    simpa [hnone] using hevents
  | present t es same trace quiet =>
    simp only [Bool.or_eq_false_iff] at quiet
    obtain ⟨es', htrace, hno, hsent⟩ := doWriteByte_events t.params.cmdSearchRom t
    have hframe := doWriteByte_frame t.params.cmdSearchRom t
    have hfails : FailsWith (fun c => c = .transport ∨ c = .busyTimeout) (doWriteByte t.params.cmdSearchRom t) :=
      .doWriteByte ⟨.inl rfl, .inr rfl⟩ _ t
    rw [Result.ok_bind, searchAfterReset]
    generalize doWriteByte t.params.cmdSearchRom t = r at htrace hframe hfails
    have sent : SearchSent s r.state :=
      ⟨hlast, same.trans { hframe with spu := rfl }, es ++ es', by rw [htrace, trace, List.append_assoc],
        fun e he => (List.mem_append.1 he).elim (fun h => (quiet e h).1) (hno e),
        by rw [List.any_append, hsent, Bool.or_true]⟩
    cases r with
    | ok _ u => exact searchScan_outcome sent
    | fail c u =>
      exact .stopped c u [] (hfails c rfl) (sent.part (.refl u) (List.append_nil _).symm (.none _ _))
        (sent.bits (by simp) (by simp) (.refl u))

theorem exec_search_outcome (s : State) : ∃ r, exec .search s = runCommand r ∧ SearchOutcome s r := by
  cases hlast : s.ldf with
  | true => exact ⟨_, exec_search_terminal hlast, .terminal hlast⟩
  | false => exact ⟨_, exec_search_eq hlast, searchBody_outcome hlast⟩

/-! ### The directions, whatever the answers (R133) -/

theorem newEvents_congr {s t u : State} (h : u.trace = t.trace) : newEvents s u = newEvents s t := by
  rw [newEvents, newEvents, h]

theorem newEvents_self (s : State) : newEvents s s = [] := newEvents_eq (List.append_nil _).symm

/-- Steps 5 to 7 issue nothing (R135 to R137). -/
theorem searchDeliver_trace (lz : BitVec 7) (t : State) : (searchDeliver (searchProgress lz t)).state.trace = t.trace := by
  have htrace := congrArg State.trace (searchDeliver_delivered (searchProgress lz t)).rest
  rwa [endCommand_trace] at htrace

/-- Every exit's events; a triplet that reported both bits is the last one (R134). -/
theorem SearchOutcome.events {s : State} {r : Result Unit} (h : SearchOutcome s r) :
    ∃ sts sent, SearchEvents s.rom s.ld (newEvents s (endCommand r)) sts sent ∧
      ∀ st ∈ sts.dropLast, tripletCollision st = false := by
  rw [endCommand_newEvents]
  cases h with
  | terminal last => exact ⟨[], false, newEvents_self s ▸ .none s.rom s.ld, by simp⟩
  | absent c t hc part => exact ⟨_, _, part.events, by simp⟩
  | stopped c t sts hc part bits => exact ⟨_, _, part.events, fun st hst => bits.no st (List.dropLast_subset sts hst)⟩
  | collision t sts last no part cleared => exact ⟨_, _, part.events, by simpa using no⟩
  | scanned t sts len part bits =>
    exact ⟨_, _, newEvents_congr (searchDeliver_trace _ t) ▸ part.events,
      fun st hst => bits.no st (List.dropLast_subset sts hst)⟩

/-- Settles O34: every exit of SEARCH has requested the directions of R133. -/
theorem searchRequestsTheLiteralDirections : Obligations.SearchRequestsTheLiteralDirections := by
  intro s t ht
  obtain ⟨r, hr, hout⟩ := exec_search_outcome s
  obtain ⟨sts, sent, ⟨-, -, m, hm, hdirs⟩, -⟩ := hout.events
  rw [← eq_endCommand hr ht] at hdirs
  simp only [hdirs, List.length_map, List.length_range, List.getElem_map, List.getElem_range]
  exact ⟨hm, fun i hi => rfl⟩

/-! ### The exits one by one (R138) -/

theorem searchDeliver_failure {s : State} {c : Cause} (h : (searchDeliver s).failure? = some c) : c = .checksum :=
  FailsWith.searchDeliver (p := (· = .checksum)) rfl s c h

/-- The candidate's bits: the reported ones, and those of before above them. -/
theorem BitsStored.romBit_eq {s t : State} {sts : List Byte} (h : BitsStored s t sts) {j : Nat} (hj : j < 64) :
    romBit t.rom j = (sts[j]?.map statusDIR).getD (romBit s.rom j) := by
  have hlen : 0 + (sts.map statusDIR).length ≤ 64 := by simpa using h.len
  rw [h.rom, romBit_storeBits s.rom 0 j _ hlen hj]
  by_cases hin : j < sts.length <;> simp [hin]

/-- Which exit it was, where the failure is the port's. -/
theorem SearchOutcome.of_port {s : State} {r : Result Unit} (h : SearchOutcome s r)
    (hc : r.failure? = some .transport ∨ r.failure? = some .busyTimeout) :
    (∃ t, r.state = t.resetSearch ∧ SearchPart s t [] false) ∨
      ∃ sts, SearchPart s r.state sts true ∧ BitsStored s r.state sts := by
  cases h with
  | terminal last => simp at hc
  | absent c t _ part => exact .inl ⟨t, rfl, part⟩
  | stopped c t sts _ part bits => exact .inr ⟨sts, part, bits⟩
  | collision t sts last no part cleared => simp at hc
  | scanned t sts len part bits =>
    obtain hc | hc := hc <;> cases searchDeliver_failure hc

/-- And where SEARCH came to the checksum test. -/
theorem SearchOutcome.of_scanned {s : State} {r : Result Unit} (h : SearchOutcome s r)
    (hc : r.failure? = none ∨ r.failure? = some .checksum) :
    ∃ t sts, r = searchDeliver (searchProgress (lastZeroFrom 0 0 sts) t) ∧ sts.length = 64 ∧ SearchPart s t sts true ∧
      BitsStored s t sts := by
  cases h with
  | terminal last => simp at hc
  | absent c t hport part => obtain rfl | rfl | rfl := hport <;> simp at hc
  | stopped c t sts hport part bits => obtain rfl | rfl := hport <;> simp at hc
  | collision t sts last no part cleared => simp at hc
  | scanned t sts len part bits => exact ⟨t, sts, rfl, len, part, bits⟩

/-- NO_PRESENCE and COLLISION clear the search state. -/
theorem SearchOutcome.cleared {s : State} {r : Result Unit} (h : SearchOutcome s r)
    (hc : r.failure? = some .noPresence ∨ r.failure? = some .collision) : (endCommand r).SearchCleared := by
  cases h with
  | terminal last => simp at hc
  | absent c t _ part => exact searchCleared_of_eq rfl rfl rfl
  | stopped c t sts hport part bits => obtain rfl | rfl := hport <;> simp at hc
  | collision t sts last no part cleared => exact cleared
  | scanned t sts len part bits =>
    obtain hc | hc := hc <;> cases searchDeliver_failure hc

/-- A failing exit leaves `BUF` unchanged. -/
theorem SearchOutcome.keepsBuf {s : State} {r : Result Unit} (h : SearchOutcome s r) (hno : (endCommand r).resOk = false) :
    keepsBufFrom 0 s (endCommand r) := by
  suffices hbuf : ∃ t, t.buf = s.buf ∧ keepsBufFrom 0 t (endCommand r) by
    obtain ⟨t, ht, hkept⟩ := hbuf
    exact fun k hk => (hkept k hk).trans (congrArg (Memory.read · k) ht)
  cases h with
  | terminal last => exact ⟨s, rfl, fun _ _ => rfl⟩
  | absent c t hc part => exact ⟨t, part.same.buf, fun _ _ => rfl⟩
  | stopped c t sts hc part bits => exact ⟨t, part.same.buf, fun _ _ => rfl⟩
  | collision t sts last no part cleared => exact ⟨t, part.same.buf, fun _ _ => rfl⟩
  | scanned t sts len part bits =>
    obtain ⟨-, hvalid, hinvalid⟩ := searchDeliver_delivered (searchProgress (lastZeroFrom 0 0 sts) t)
    obtain ⟨-, -, hkept⟩ := hinvalid fun hcrc => Bool.false_ne_true (hno.symm.trans (hvalid hcrc).1)
    exact ⟨searchProgress (lastZeroFrom 0 0 sts) t, part.same.buf, hkept⟩

/-- A failing request before the command byte has cleared the search state (R131). -/
theorem SearchOutcome.port_unsent {s : State} {r : Result Unit} (h : SearchOutcome s r)
    (hc : r.failure? = some .transport ∨ r.failure? = some .busyTimeout)
    (hsent : (newEvents s (endCommand r)).any Event.isWriteByte = false) : (endCommand r).SearchCleared := by
  obtain ⟨t, ht, -⟩ | ⟨sts, part, -⟩ := h.of_port hc
  · exact searchCleared_of_eq (by simp [ht]) (by simp [ht]) (by simp [ht])
  · rw [endCommand_newEvents, part.events.written] at hsent
    cases hsent

/-- A later one keeps `LD` and `LDF`, and has stored the bits reported so far. -/
theorem SearchOutcome.port_sent {s : State} {r : Result Unit} (h : SearchOutcome s r)
    (hc : r.failure? = some .transport ∨ r.failure? = some .busyTimeout)
    (hsent : (newEvents s (endCommand r)).any Event.isWriteByte = true) :
    (endCommand r).ld = s.ld ∧ (endCommand r).ldf = false ∧ ∀ j, j < 64 → romBit (endCommand r).rom j =
      ((tripletBytes false (newEvents s (endCommand r)))[j]?.map statusDIR).getD (romBit s.rom j) := by
  rw [endCommand_newEvents] at hsent ⊢
  obtain ⟨t, ht, part⟩ | ⟨sts, part, bits⟩ := h.of_port hc
  · rw [ht] at hsent
    cases hsent.symm.trans part.events.written
  · rw [endCommand_ld, endCommand_ldf, endCommand_rom, part.events.reports]
    exact ⟨bits.ld, bits.ldf.trans part.notLast, fun j hj => bits.romBit_eq hj⟩

/-- The search state of `t` is what step 5 leaves after triplets that reported `sts` (R134, R135). -/
structure SearchAdvanced (t : State) (sts : List Byte) : Prop where
  len      : sts.length = 64
  bits     : ∀ j (h : j < sts.length), romBit t.rom j = statusDIR sts[j]
  above    : ∀ j (h : j < sts.length), tripletZeroTaken sts[j] = true → j ≤ t.ld.toNat
  lastZero : t.ld = 0 ∨ ∃ h : t.ld.toNat < sts.length, tripletZeroTaken sts[t.ld.toNat] = true
  lastFlag : t.ldf = true ↔ t.ld = 0

/-- CHECKSUM and success have stored all 64 bits and advanced `LD` and `LDF`. -/
theorem SearchOutcome.advanced {s : State} {r : Result Unit} (h : SearchOutcome s r)
    (hc : r.failure? = none ∨ r.failure? = some .checksum) :
    SearchAdvanced (endCommand r) (tripletBytes false (newEvents s (endCommand r))) := by
  obtain ⟨u, sts, rfl, hlen, part, bits⟩ := h.of_scanned hc
  obtain ⟨hrest, -, -⟩ := searchDeliver_delivered (searchProgress (lastZeroFrom 0 0 sts) u)
  obtain ⟨hmax, hzero⟩ := lastZeroFrom_zero_spec hlen
  have hldf := searchProgress_ldf_iff (bits.ldf.trans part.notLast) (lastZeroFrom 0 0 sts)
  rw [endCommand_newEvents, newEvents_congr (searchDeliver_trace _ u), part.events.reports, hrest]
  refine ⟨hlen, fun j hj => ?_, hmax, hzero, hldf⟩
  refine (bits.romBit_eq (by omega)).trans ?_
  simp [hj]

/-- The checksum tells them apart (R136), and success has delivered the address (R137). -/
theorem SearchOutcome.scanned_delivery {s : State} {r : Result Unit} (h : SearchOutcome s r)
    (hc : r.failure? = none ∨ r.failure? = some .checksum) :
    let t := endCommand r
    (t.cause = 0 ↔ crc8 (t.rom.toList.take 7) = t.rom[7]) ∧ (t.cause = 0 → ∀ k (h : k < 8), t.bufAt k = t.rom[k]) := by
  obtain ⟨u, sts, rfl, -⟩ := h.of_scanned hc
  obtain ⟨-, hvalid, hinvalid⟩ := searchDeliver_delivered (searchProgress (lastZeroFrom 0 0 sts) u)
  intro t
  have hrom : t.rom = (searchProgress (lastZeroFrom 0 0 sts) u).rom := (endCommand_rom _).trans (searchDeliver_rom _)
  rw [← hrom] at hvalid hinvalid
  have hcrc : t.cause = 0 → crc8 (t.rom.toList.take 7) = t.rom[7] := fun hcause => by
    by_contra hbad
    obtain ⟨-, hbad, -⟩ := hinvalid hbad
    cases hcause.symm.trans hbad
  refine ⟨⟨hcrc, fun hgood => ?_⟩, fun hcause => ?_⟩
  · obtain ⟨-, hzero, -⟩ := hvalid hgood
    exact hzero
  · obtain ⟨-, -, haddress, -⟩ := hvalid (hcrc hcause)
    exact haddress

/-- In the terminal state SEARCH keeps the search state and adds no event (R131). -/
theorem exec_search_terminal_quiet {s t : State} (h : s.ldf = true) (ht : exec .search s = .next t) :
    keepsSearch s t ∧ newEvents s t = [] := by
  rw [eq_endCommand (exec_search_terminal h) ht]
  exact ⟨⟨rfl, rfl, rfl⟩, newEvents_self s⟩

/-- Settles O33: the causes of steps 1 and 4c as R175 tells them, and every other clause from the exit it speaks of. -/
theorem searchExitsLeaveTheStatedState : Obligations.SearchExitsLeaveTheStatedState := by
  intro s t ht es sts cleared
  have hterminal : t.cause = 7 ↔ s.ldf = true := (exec_noMoreDevices_iff ht).trans (and_iff_right rfl)
  have hcollision : t.cause = 3 ↔ sts.any tripletCollision = true := exec_collision_iff ht
  obtain ⟨r, hr, hout⟩ := exec_search_outcome s
  obtain rfl := eq_endCommand hr ht
  obtain ⟨sts', sent, hevents, hearlier⟩ := hout.events
  have hclear : (endCommand r).cause = 6 ∨ (endCommand r).cause = 3 →
      r.failure? = some .noPresence ∨ r.failure? = some .collision :=
    Or.imp (endCommand_cause_iff (c := .noPresence)).1 (endCommand_cause_iff (c := .collision)).1
  have hport : (endCommand r).cause = 1 ∨ (endCommand r).cause = 2 →
      r.failure? = some .transport ∨ r.failure? = some .busyTimeout :=
    Or.imp (endCommand_cause_iff (c := .transport)).1 (endCommand_cause_iff (c := .busyTimeout)).1
  have hscan : (endCommand r).cause = 0 ∨ (endCommand r).cause = 5 →
      r.failure? = none ∨ r.failure? = some .checksum :=
    Or.imp endCommand_none_iff.1 (endCommand_cause_iff (c := .checksum)).1
  refine ⟨endCommand_ok_iff_none r, hout.keepsBuf, hterminal, fun h7 => exec_search_terminal_quiet (hterminal.1 h7) ht,
    hcollision, ?_, fun hc => hout.cleared (hclear hc), fun hc => hout.port_unsent (hport hc),
    fun hc => hout.port_sent (hport hc), fun hc => ?_, fun h0 => (hout.scanned_delivery (hscan (.inl h0))).2 h0⟩
  · obtain rfl := hevents.reports
    exact any_tripletCollision_eq_false hearlier
  · obtain ⟨hlen, hbits, habove, hlast, hflag⟩ := hout.advanced (hscan hc)
    exact ⟨hlen, hbits, habove, hlast, hflag, (hout.scanned_delivery (hscan hc)).1⟩

end Sys2Proof.Machine

/-! PROOFS. The Checksum Validator: the CRC as a linear map that no single byte's change escapes, and its two commands. -/

namespace Sys2Proof.Machine

open Sys2Proof

/-! ### One byte: zero, table and injectivity (R150, R156, R157) -/

/-- A register that equals the input byte is only shifted: no inner step feeds back. -/
theorem crcBits_self (n : Nat) (b : Byte) : crcBits n b b = b >>> n := by
  induction n generalizing b with
  | zero => rfl
  | succ n ih =>
    have hstep : crcBit b b = b >>> 1 := by rw [crcBit_eq, Bool.xor_self, if_neg Bool.false_ne_true]; exact BitVec.xor_zero
    rw [crcBits, hstep, ih, ← BitVec.shiftRight_add, Nat.add_comm]

theorem crcBits_eight_self (b : Byte) : crcBits 8 b b = 0 := by
  rw [crcBits_self]
  exact BitVec.ushiftRight_eq_zero (Nat.le_refl 8)

/-- One byte of the table form (R151): the byte is added to the register before the look-up. -/
theorem crcBits_eight_eq_table (crc b : Byte) : crcBits 8 crc b = crc8 [crc ^^^ b] :=
  calc crcBits 8 crc b
    _ = crcBits 8 (0#8 ^^^ crc) ((crc ^^^ b) ^^^ crc) := by
      rw [BitVec.xor_comm crc b, BitVec.xor_assoc, BitVec.xor_self, BitVec.xor_zero, BitVec.zero_xor]
    _ = crcBits 8 0 (crc ^^^ b) ^^^ crcBits 8 crc crc := crcBits_xor 8 ..
    _ = crc8 [crc ^^^ b] := by rw [crcBits_eight_self]; exact BitVec.xor_zero

theorem crcBits_eight_comm (crc b : Byte) : crcBits 8 crc b = crcBits 8 b crc := by
  rw [crcBits_eight_eq_table, crcBits_eight_eq_table, BitVec.xor_comm]

/-- The shift leaves bit 7 clear and the polynomial has it set, so bit 7 shows whether the step fed back. -/
theorem crcBit_bit7 (crc b : Byte) : (crcBit crc b).getLsbD 7 = (crc.getLsbD 0 ^^ b.getLsbD 0) := by
  rw [crcBit_eq, BitVec.getLsbD_xor, BitVec.getLsbD_ushiftRight, BitVec.getLsbD_of_ge crc (1 + 7) (Nat.le_refl 8)]
  cases crc.getLsbD 0 ^^ b.getLsbD 0 <;> rfl

theorem crcBit_left_injective {c d b : Byte} (h : crcBit c b = crcBit d b) : c = d := by
  have hlow : c.getLsbD 0 = d.getLsbD 0 := by
    have := congrArg (BitVec.getLsbD · 7) h
    simpa only [crcBit_bit7, Bool.xor_left_inj] using this
  have hhigh : c >>> 1 = d >>> 1 := by
    rw [crcBit_eq, crcBit_eq, hlow] at h
    exact (BitVec.xor_left_inj _).1 h
  refine BitVec.eq_of_getLsbD_eq fun i _ => ?_
  cases i with
  | zero => exact hlow
  | succ i =>
    have := congrArg (BitVec.getLsbD · i) hhigh
    simpa only [BitVec.getLsbD_ushiftRight, Nat.add_comm 1 i] using this

theorem crcBits_left_injective {n : Nat} {c d b : Byte} (h : crcBits n c b = crcBits n d b) : c = d := by
  induction n generalizing c d b with
  | zero => exact h
  | succ n ih => exact crcBit_left_injective (ih h)

theorem crcBits_eight_right_injective {c v w : Byte} (h : crcBits 8 c v = crcBits 8 c w) : v = w := by
  rw [crcBits_eight_comm c v, crcBits_eight_comm c w] at h
  exact crcBits_left_injective h

/-! ### A sequence: linearity, zeros, and the change of one byte (R156, R157) -/

theorem crcFrom_xor (c d : Byte) {a b : List Byte} (h : a.length = b.length) :
    crcFrom (c ^^^ d) (List.zipWith (· ^^^ ·) a b) = crcFrom c a ^^^ crcFrom d b := by
  induction a generalizing b c d with
  | nil => cases b with
    | nil => rfl
    | cons y b => cases h
  | cons x a ih => cases b with
    | nil => cases h
    | cons y b =>
      rw [List.zipWith_cons_cons, crcFrom, crcBits_xor, ih _ _ (Nat.succ.inj h)]
      rfl

/-- Settles O40: both sequences run side by side, from registers 0 and 0. -/
theorem crcIsLinear : Obligations.CrcIsLinear :=
  fun _ _ h => crcFrom_xor 0 0 h

theorem crc8_zeros (n : Nat) : crc8 (List.replicate n 0) = 0 := by
  induction n with
  | zero => rfl
  | succ n ih => rw [List.replicate_succ', crc8_concat, ih, crcBits_eight_self]

theorem crcFrom_eq_table (crc : Byte) (d : List Byte) :
    crcFrom crc d = d.foldl (fun crc b => crc8 [crc ^^^ b]) crc := by
  induction d generalizing crc with
  | nil => rfl
  | cons b d ih => rw [crcFrom, ih, crcBits_eight_eq_table, List.foldl_cons]

/-- Settles O42: the loop of R150 is the table's fold byte by byte; the eight entries are computed. -/
theorem crcTableForm : Obligations.CrcTableForm :=
  ⟨crcFrom_eq_table 0, by decide, crc8_zeros⟩

theorem crcFrom_injective {c d : Byte} {a : List Byte} (h : crcFrom c a = crcFrom d a) : c = d := by
  induction a generalizing c d with
  | nil => exact h
  | cons x a ih => exact crcBits_left_injective (ih h)

theorem crc8_append (a b : List Byte) : crc8 (a ++ b) = crcFrom (crc8 a) b := crcFrom_append 0 a b

/-- The CRC sees every change of one byte: what follows the byte keeps two registers apart. -/
theorem crc8_byte_injective {a b : List Byte} {v w : Byte} (h : crc8 (a ++ [v] ++ b) = crc8 (a ++ [w] ++ b)) : v = w := by
  rw [crc8_append (a ++ [v]), crc8_append (a ++ [w])] at h
  have hbyte : crc8 (a ++ [v]) = crc8 (a ++ [w]) := crcFrom_injective h
  rw [crc8_concat, crc8_concat] at hbyte
  exact crcBits_eight_right_injective hbyte

/-! ### Verification is a zero CRC (R152, R155) -/

theorem crcVerify_concat (d : List Byte) (v : Byte) : crcVerify (d ++ [v]) = true ↔ crc8 d = v := by
  simp [crcVerify]

theorem crc8_concat_eq_zero (d : List Byte) (v : Byte) : crc8 (d ++ [v]) = 0 ↔ crc8 d = v := by
  rw [crc8_concat]
  refine ⟨fun h => crcBits_left_injective (h.trans (crcBits_eight_self v).symm), fun h => ?_⟩
  rw [h, crcBits_eight_self]

theorem crcVerify_iff_crc8_eq_zero {d : List Byte} (h : d ≠ []) : crcVerify d = true ↔ crc8 d = 0 := by
  rw [← List.dropLast_append_getLast h, crcVerify_concat, crc8_concat_eq_zero]

/-- Settles O39: both halves say that the appended byte is the CRC of the bytes before it. -/
theorem crcAppendLaw : Obligations.CrcAppendLaw :=
  fun d => ⟨(crcVerify_concat d _).2 rfl, (crc8_concat_eq_zero d _).2 rfl⟩

theorem bitAt_ne_zero {k : Nat} (h : k < 8) : bitAt k true ≠ 0 := by
  revert k; decide

/-- Settles O41: a sequence of one set bit is a change of one byte from zeros, and two sequences that verify have the same
CRC, 0. -/
theorem crcSeesSingleBitErrors : Obligations.CrcSeesSingleBitErrors := by
  refine ⟨fun m n k hk hzero => ?_, fun a b v k hk ⟨hv, hw⟩ => ?_⟩
  · have hzeros : crc8 (List.replicate m 0 ++ [0] ++ List.replicate n 0) = 0 := by
      rw [← List.replicate_succ', List.replicate_append_replicate]
      exact crc8_zeros _
    exact bitAt_ne_zero hk (crc8_byte_injective (hzero.trans hzeros.symm))
  · rw [crcVerify_iff_crc8_eq_zero (by simp)] at hv hw
    have hsame : v ^^^ bitAt k true = v ^^^ 0 := (crc8_byte_injective (hw.trans hv.symm)).trans BitVec.xor_zero.symm
    exact bitAt_ne_zero hk ((BitVec.xor_right_inj _).1 hsame)

/-! ### The two commands (R153, R154) -/

/-- Settles O37: the body is the write of DATA alone. -/
theorem crc8WritesData : Obligations.Crc8WritesData :=
  fun s len => runCommand_ok () (s.setData (crc8 (s.bufBytes len.toNat)))

/-- VERIFY of at least one byte, by its trailing byte. -/
theorem exec_verify {s : State} {len : Byte} (h : len ≠ 0) :
    exec (.verify len) s = runCommand
      (if crc8 ((List.range (len.toNat - 1)).map s.bufAt) = s.bufAt (len.toNat - 1) then .ok () s
        else .fail .checksum s) := by
  have hlen : len.toNat = len.toNat - 1 + 1 := by bv_omega
  rw [exec, execVerify, if_neg h, byteCount, hlen]
  simp only [crcVerify_bufBytes, Nat.add_sub_cancel]

/-- Settles O38: the two branches of VERIFY's test; the word of `VERIFY 0` is one of the illegal words of O11. -/
theorem verifyComparesTheTrailingByte : Obligations.VerifyComparesTheTrailingByte := by
  refine ⟨fun s len hlen => ⟨fun hgood => ?_, fun hbad => ?_⟩, fun s rest hhost => ?_⟩
  · rw [exec_verify hlen, if_pos hgood, runCommand_ok]
    rfl
  · rw [exec_verify hlen, if_neg hbad, runCommand_fail]
    rfl
  · exact illegalWordOnlyFails s 0x0E00 rest hhost (by decide)

end Sys2Proof.Machine

/-! PROOFS. The system family: what the host's write of `CFG` and its reads do, with the packing of R27 bit by bit, and
ATTACH. -/

namespace Sys2Proof.Machine

open Sys2Proof

/-! ### ATTACH (R165) -/

/-- Settles O36: the body of ATTACH is the write of `CB_EN` alone, and its end writes the result. -/
theorem attachWritesTheEnable : Obligations.AttachWritesTheEnable :=
  fun s b => runCommand_ok () (s.setCbEn b)

/-! ### The host's write of CFG (R166) -/

/-- An 8-bit register takes bits 7:0 of the move's value; `CFG` keeps three of them. -/
theorem writeCfg_low_byte (v : CmdWord) (s : State) :
    writeCfg (v.extractLsb' 0 8) s = s.setCfg (v.getLsbD 0) (v.getLsbD 1) (v.getLsbD 2) := by
  have hbit {k : Nat} (hk : k < 8) : (v.extractLsb' 0 8).getLsbD k = v.getLsbD k := by
    rw [BitVec.getLsbD_extractLsb', decide_eq_true hk, Bool.true_and, Nat.zero_add]
  rw [writeCfg, hbit (by decide), hbit (by decide), hbit (by decide)]

/-- Settles O12: the move writes `CFG` from the low byte of its value, whose bits 2:0 are those of the value. -/
theorem hostWriteOfCfgSetsTheShadowOnly : Obligations.HostWriteOfCfgSetsTheShadowOnly := by
  intro s v rest hhost
  calc step s = .next (writeCfg (v.extractLsb' 0 8) (s.setHost rest)) := step_of_move hhost
    _ = .next ((s.setHost rest).setCfg (v.getLsbD 0) (v.getLsbD 1) (v.getLsbD 2)) := by rw [writeCfg_low_byte]

/-! ### The packed registers, bit by bit (R27) -/

theorem getLsbD_bitAt {k : Nat} (hk : k < 8) (b : Bool) (j : Nat) :
    (bitAt k b).getLsbD j = if j = k then b else false := by
  cases b with
  | false => simp [bitAt]
  | true =>
    have hpow : (bitAt k true).getLsbD j = (decide (k < 8) && decide (k = j)) := by
      rw [bitAt, if_pos rfl, ← BitVec.twoPow_eq, BitVec.getLsbD_twoPow]
    simp [hpow, hk, eq_comm]

/-- Packing a bit into a byte that has none at its place. -/
theorem getLsbD_bitAt_or {k : Nat} (hk : k < 8) {v : Byte} (hv : v.getLsbD k = false) (b : Bool) (j : Nat) :
    (bitAt k b ||| v).getLsbD j = if j = k then b else v.getLsbD j := by
  rw [BitVec.getLsbD_or, getLsbD_bitAt hk]
  split_ifs with hj
  · rw [hj, hv, Bool.or_false]
  · exact Bool.false_or _

theorem State.packRes_getLsbD (s : State) (j : Nat) :
    s.packRes.getLsbD j = if j = 0 then s.resOk else if j = 1 then s.resBit else false := by
  have hbit : (bitAt 1 s.resBit).getLsbD 0 = false := getLsbD_bitAt (by decide) _ 0
  rw [State.packRes, getLsbD_bitAt_or (by decide) hbit, getLsbD_bitAt (by decide)]

theorem State.packCause_getLsbD (s : State) (j : Nat) : s.packCause.getLsbD j = s.cause.getLsbD j :=
  BitVec.getLsbD_setWidth' (by decide) s.cause j

theorem State.packCfg_getLsbD (s : State) (j : Nat) :
    s.packCfg.getLsbD j = if j = 0 then s.apu else if j = 1 then s.spu else if j = 2 then s.od else false := by
  have hod : (bitAt 2 s.od).getLsbD 1 = false := getLsbD_bitAt (by decide) _ 1
  have hspu : (bitAt 1 s.spu ||| bitAt 2 s.od).getLsbD 0 = false := by
    rw [getLsbD_bitAt_or (by decide) hod, getLsbD_bitAt (by decide)]
    rfl
  rw [State.packCfg, BitVec.or_assoc, getLsbD_bitAt_or (by decide) hspu, getLsbD_bitAt_or (by decide) hod,
    getLsbD_bitAt (by decide)]

theorem State.packSrch_getLsbD (s : State) (j : Nat) :
    s.packSrch.getLsbD j = if j = 7 then s.ldf else s.ld.getLsbD j := by
  have hld (j : Nat) : (s.ld.setWidth 8).getLsbD j = s.ld.getLsbD j :=
    BitVec.getLsbD_setWidth' (by decide) s.ld j
  have htop : (s.ld.setWidth 8).getLsbD 7 = false := (hld 7).trans (BitVec.getLsbD_of_ge s.ld 7 (by decide))
  rw [State.packSrch, BitVec.or_comm, getLsbD_bitAt_or (by decide) htop, hld]

theorem State.packFlt_getLsbD (s : State) (j : Nat) : s.packFlt.getLsbD j = if j = 0 then s.cbEn else false :=
  getLsbD_bitAt (by decide) s.cbEn j

/-! ### Which value a read gives (R27, R167) -/

/-- Above `FLT` (6), a read looks in `ROM`. -/
theorem hostRegValue_of_eight_le {index : Nat} (h : 8 ≤ index) (s : State) :
    hostRegValue index s = s.rom[index - 8]?.getD 0 := by
  rw [hostRegValue, if_neg, if_neg, if_neg, if_neg, if_neg, if_neg, if_neg, if_pos h] <;> omega

/-- Indices 8 to 15 are `ROM0` to `ROM7`. -/
theorem hostRegValue_rom {index : Nat} (h : 8 ≤ index ∧ index < 16) (s : State) :
    hostRegValue index s = s.rom[index - 8] := by
  rw [hostRegValue_of_eight_le h.1, Vector.getElem?_eq_getElem (by omega), Option.getD_some]

/-- The indices R27 assigns to no register. -/
theorem hostRegValue_unassigned {index : Nat} (h : index = 7 ∨ 16 ≤ index) (s : State) : hostRegValue index s = 0 := by
  obtain rfl | hbeyond := h
  · rfl
  · rw [hostRegValue_of_eight_le (by omega), Vector.getElem?_eq_none (by omega), Option.getD_none]

theorem step_of_readReg {s : State} {index : Nat} {rest : List HostMove} (h : s.host = .readReg index :: rest)
    (h0 : index ≠ 0) : step s = .next ((s.setHost rest).give (hostRegValue index s)) := by
  rw [step_of_move h, hostMove, hostReadReg, if_neg h0]
  rfl

/-- Settles O14: the value given is that of the register read, whose bits are R27's. -/
theorem hostReadsGiveThePackedValue : Obligations.HostReadsGiveThePackedValue := by
  refine ⟨fun s index rest hhost h0 => ?_, fun s k rest hhost => step_of_move hhost⟩
  refine ⟨hostRegValue index s, step_of_readReg hhost h0, ?_, ?_, ?_, ?_, ?_, ?_, ?_, ?_⟩
  · rintro rfl
    exact s.packRes_getLsbD
  · rintro rfl
    exact s.packCause_getLsbD
  · rintro rfl
    rfl
  · rintro rfl
    exact s.packCfg_getLsbD
  · rintro rfl
    exact s.packSrch_getLsbD
  · rintro rfl
    exact s.packFlt_getLsbD
  · exact fun hrom => hostRegValue_rom hrom s
  · exact fun hnone => hostRegValue_unassigned hnone s

end Sys2Proof.Machine

/-! PROOFS. Sequences of commands and of blocks: the notifications over many commands count the rising edges, and a step of one
block touches no other. -/

namespace Sys2Proof.Machine

open Sys2Proof

/-! ### One run's notifications (R102, R184) -/

/-- The status bit whose rising edge a notification of this kind reports (R102). -/
def FaultKind.statusBit : FaultKind → Byte → Bool
  | .short => statusSD
  | .reset => statusRST

/-- The one of the two edge memories that belongs to this kind. -/
def FaultKind.memory : FaultKind → Bool → Bool → Bool
  | .short, sd, _ => sd
  | .reset, _, rst => rst

theorem count_edgeEvents (k k' : FaultKind) (now seen : Bool) :
    (edgeEvents k' true now seen).count (.notify k) = if k' = k ∧ now && !seen then 1 else 0 := by
  unfold edgeEvents
  cases now && !seen <;> simp [List.count_singleton]

/-- With a handler attached, a status byte is followed by one notification of a kind when the kind's bit rises, else by none. -/
theorem count_edgePair (k : FaultKind) (sd rst : Bool) (st : Byte) :
    (edgeEvents .short true (statusSD st) sd ++ edgeEvents .reset true (statusRST st) rst).count (.notify k) =
      if k.statusBit st && !k.memory sd rst then 1 else 0 := by
  rw [List.count_append, count_edgeEvents, count_edgeEvents]
  cases k <;> simp [FaultKind.statusBit, FaultKind.memory]

theorem FaultKind.memory_statusBit (k : FaultKind) (st : Byte) : k.memory (statusSD st) (statusRST st) = k.statusBit st := by
  cases k <;> rfl

theorem statusByte?_of_not_request {e : Event} (h : e.isRequest = false) : e.statusByte? = none := by
  cases e with
  | notify k => rfl
  | _ => cases h

/-- Between a status byte and the next the memory holds the bit, so the notifications of a kind count its rising edges. -/
theorem count_insertNotices (k : FaultKind) (es : List Event) (sd rst : Bool) :
    (insertNotices true sd rst (es.filter Event.isRequest)).count (.notify k) =
      risingEdges k.statusBit (k.memory sd rst) (es.filterMap Event.statusByte?) := by
  induction es generalizing sd rst with
  | nil => rfl
  | cons e es ih =>
    cases hrequest : e.isRequest with
    | false =>
      have hno : e.statusByte? = none := statusByte?_of_not_request hrequest
      rw [List.filter_cons_of_neg (by simp [hrequest]), List.filterMap_cons_none hno, ih]
    | true =>
      have hne : e ≠ .notify k := by
        rintro rfl
        cases hrequest
      rw [List.filter_cons_of_pos hrequest, insertNotices]
      cases hst : e.statusByte? with
      | none => rw [List.count_cons_of_ne hne, ih, List.filterMap_cons_none hst]
      | some st =>
        rw [List.count_cons_of_ne hne, List.count_append, count_edgePair, ih, k.memory_statusBit,
          List.filterMap_cons_some hst, risingEdges]

/-- A run with a handler attached notifies once for every rising edge. -/
theorem Run.count_notify {s t : State} {es : List Event} (h : Run s es t) (hcb : s.cbEn = true) (k : FaultKind) :
    es.count (.notify k) =
      risingEdges k.statusBit (k.memory s.sdSeen s.rstSeen) (es.filterMap Event.statusByte?) := by
  have hnotices := h.notices
  rw [hcb] at hnotices
  calc es.count (.notify k)
    _ = (insertNotices true s.sdSeen s.rstSeen (es.filter Event.isRequest)).count (.notify k) := by rw [← hnotices]
    _ = _ := count_insertNotices k es s.sdSeen s.rstSeen

/-! ### Sequences of commands are runs (R60) -/

theorem runStart_of_not_attach {i : Instr} (h : ∀ b, i ≠ .attach b) (s : State) : runStart i s = s := by
  cases i with
  | attach b => exact absurd rfl (h b)
  | _ => rfl

theorem runAll_cons_next {i : Instr} {is : List Instr} {s u : State} (h : runAll (i :: is) s = .next u) :
    ∃ t, exec i s = .next t ∧ runAll is t = .next u := by
  obtain ⟨r, hr⟩ := exec_is_runCommand i s
  rw [runAll, hr] at h
  exact ⟨endCommand r, hr, h⟩

/-- Commands other than ATTACH run one after another as one run: the events concatenate, and `CB_EN` stays as it is. -/
theorem runAll_run {is : List Instr} {s t : State} (hno : ∀ i ∈ is, ∀ b, i ≠ .attach b) (h : runAll is s = .next t) :
    ∃ es, Run s es t := by
  induction is generalizing s with
  | nil =>
    cases h
    exact ⟨[], .refl _⟩
  | cons i is ih =>
    obtain ⟨u, hu, hrest⟩ := runAll_cons_next h
    have hfirst := (exec_commandRun hu).run
    rw [runStart_of_not_attach (hno i List.mem_cons_self)] at hfirst
    obtain ⟨es, hes⟩ := ih (fun j hj => hno j (List.mem_cons_of_mem i hj)) hrest
    exact ⟨_, hfirst.trans hes⟩

/-- Settles O45: the sequence is one run, and a run with a handler attached notifies once for every rising edge. -/
theorem notificationCountIsEdgeCount : Obligations.NotificationCountIsEdgeCount := by
  intro is s t hno hcb h sts
  obtain ⟨es, hrun⟩ := runAll_run hno h
  obtain rfl : newEvents s t = es := newEvents_eq hrun.trace
  exact ⟨hrun.count_notify hcb .short, hrun.count_notify hcb .reset⟩

/-! ### Blocks side by side (R190) -/

/-- Every step has a next state: a presented word runs to the end of its command (R176), and every other move is total. -/
theorem step_next (s : State) : ∃ t, step s = .next t := by
  cases hhost : s.host with
  | nil => exact ⟨s, step_of_no_move hhost⟩
  | cons m rest =>
    rw [step_of_move hhost]
    cases m with
    | writeReg index v =>
      by_cases h0 : index = 0
      · subst h0
        obtain ⟨r, hr⟩ := runWord_is_runCommand v (s.setHost rest)
        exact ⟨endCommand r, hr⟩
      by_cases h4 : index = 4
      · subst h4
        exact ⟨_, rfl⟩
      · exact ⟨_, hostWriteReg_ignored h0 h4 v _⟩
    | writeBuf k v => exact ⟨_, rfl⟩
    | readReg index => exact ⟨_, rfl⟩
    | readBuf k => exact ⟨_, rfl⟩

theorem stepBlock_of_none {k : Nat} {blocks : List State} (h : blocks[k]? = none) : stepBlock k blocks = .next blocks := by
  rw [stepBlock, h]

theorem stepBlock_of_some {k : Nat} {blocks : List State} {s t : State} (h : blocks[k]? = some s) (ht : step s = .next t) :
    stepBlock k blocks = .next (blocks.set k t) := by
  simp only [stepBlock, h, ht]

/-- Settles O58: the list's `k`th block is replaced by its next state, and where there is none nothing is. -/
theorem blocksShareNothing : Obligations.BlocksShareNothing := by
  intro k blocks
  cases hk : blocks[k]? with
  | none => exact ⟨blocks, stepBlock_of_none hk, rfl, fun _ _ => rfl, fun s hs => by cases hs⟩
  | some s =>
    obtain ⟨t, ht⟩ := step_next s
    refine ⟨blocks.set k t, stepBlock_of_some hk ht, List.length_set, fun j hj => List.getElem?_set_ne hj.symm, ?_⟩
    rintro _ ⟨⟩
    exact ⟨t, ht, List.getElem?_set_self (List.getElem?_eq_some_iff.1 hk).1⟩

end Sys2Proof.Machine

/-! PROOFS. Reset and the implementer's hazards: the values after block reset, the strong pull-up at a 1-Wire reset, and the
commands that leave the downstream port and the edge memories alone. -/

namespace Sys2Proof.Machine

open Sys2Proof

/-! ### Block reset (R195) -/

theorem reset_searchCleared : State.reset.SearchCleared := searchCleared_of_eq rfl rfl rfl

/-- Settles O1: the search state is cleared, nothing is written in `BUF`, and every other value is the one listed. -/
theorem blockResetLeavesStatedValues : Obligations.BlockResetLeavesStatedValues := by
  obtain ⟨hrom, hld, hldf⟩ := reset_searchCleared
  exact ⟨hrom, hld, hldf, ⟨rfl, rfl, rfl⟩, rfl, ⟨rfl, rfl⟩, ⟨rfl, rfl⟩, rfl, rfl, fun _ _ => rfl, rfl⟩

/-! ### Strong pull-up at the 1-Wire reset (R201) -/

/-- A run issues no 1-Wire reset with strong pull-up on, as far as its accepted configuration writes tell. -/
theorem Run.pullUpOff {s t : State} {es : List Event} (h : Run s es t) : pullUpOffAtReset s.spu es = true := by
  have hnothing := h.pull []
  rwa [List.append_nil] at hnothing

/-- Settles O48: a command's events are one run, which starts with the pull-up as the command finds it. -/
theorem pullUpIsOffDuringReset : Obligations.PullUpIsOffDuringReset := by
  intro i s t ht
  have hoff := (exec_commandRun ht).run.pullUpOff
  rwa [runStart_spu] at hoff

/-! ### Commands without a status read (R209) -/

/-- Nothing is issued or notified between the two states, and the edge memories are the same. -/
def Quiet (s t : State) : Prop := keepsPort s t ∧ keepsEdges s t

theorem Quiet.refl (s : State) : Quiet s s := ⟨⟨rfl, rfl, rfl⟩, rfl, rfl⟩

/-- The end of a command writes its result alone, so a command is as quiet as its body. -/
theorem Quiet.ofBody {i : Instr} {s t : State} {r : Result Unit} (hr : exec i s = runCommand r)
    (ht : exec i s = .next t) (h : Quiet s r.state) : Quiet s t := by
  rw [eq_endCommand hr ht]
  cases r <;> exact h

theorem exec_rstsrch_quiet {s t : State} (ht : exec .rstsrch s = .next t) : Quiet s t :=
  .ofBody (r := .ok () s.resetSearch) rfl ht (.refl s)

theorem exec_attach_quiet {b : Bool} {s t : State} (ht : exec (.attach b) s = .next t) : Quiet s t :=
  .ofBody (r := .ok () (s.setCbEn b)) rfl ht (.refl s)

theorem exec_crc8_quiet {len : Byte} {s t : State} (ht : exec (.crc8 len) s = .next t) : Quiet s t :=
  .ofBody (r := .ok () (s.setData (crc8 (s.bufBytes (byteCount len))))) rfl ht (.refl s)

/-- Each of VERIFY's three ends leaves the state as it was. -/
theorem exec_verify_quiet {len : Byte} {s t : State} (ht : exec (.verify len) s = .next t) : Quiet s t := by
  refine .ofBody rfl ht ?_
  split_ifs
  · exact .refl s
  · exact .refl s
  · exact .refl s

theorem exec_rdbytes_zero_quiet {s t : State} (ht : exec (.rdbytes 0) s = .next t) : Quiet s t :=
  .ofBody (r := .ok () s) rfl ht (.refl s)

theorem exec_wrbytes_zero_quiet {s t : State} (ht : exec (.wrbytes 0) s = .next t) : Quiet s t :=
  .ofBody (r := .ok () s) rfl ht (.refl s)

/-- SEARCH in the terminal state stops at step 1 (R131). -/
theorem exec_terminal_search_quiet {s t : State} (h : s.ldf = true) (ht : exec .search s = .next t) : Quiet s t :=
  .ofBody (exec_search_terminal h) ht (.refl s)

/-- Settles O57, command by command: none of the bodies touches the downstream port or an edge memory. -/
theorem quietCommandsTouchNoPort : Obligations.QuietCommandsTouchNoPort := by
  rintro i s t ht (⟨b, len, hi⟩ | ⟨rfl, hlast⟩)
  · simp only [List.mem_cons, List.not_mem_nil, or_false] at hi
    obtain rfl | rfl | rfl | rfl | rfl | rfl := hi
    · exact exec_rstsrch_quiet ht
    · exact exec_attach_quiet ht
    · exact exec_crc8_quiet ht
    · exact exec_verify_quiet ht
    · exact exec_rdbytes_zero_quiet ht
    · exact exec_wrbytes_zero_quiet ht
  · exact exec_terminal_search_quiet hlast ht

end Sys2Proof.Machine
